-- ==== Sys2Proof/Word.lean ====
section
/-! DEFINITION. The word types of the machine (spec/00_scope.md R4, R5): a byte is 8 bits, a doubleword 32. -/

namespace Sys2Proof

/-- A byte, 8 bits (R5). -/
abbrev Byte := BitVec 8

/-- A doubleword, 32 bits (R5): the width of a general register, of a linear address and of a segment base. -/
abbrev Word := BitVec 32

/-- A segment selector, 16 bits (R19). -/
abbrev Selector := BitVec 16

end Sys2Proof
end

