-- ==== Sys2Proof/Config.lean ====
section
/-! DEFINITION. What the model leaves free, and the one limit an implementation fixes (log 10, log 26). -/

namespace Sys2Proof

/-- A free value: the `k`-th draw, of `w` bits, in place of each `draw(N)` of the rules (spec/00_scope.md section 6.1,
D16, D22). It has no body: no proof can see a value of it, so what is proved holds for every value. Log 10. -/
opaque Config.draw (w k : Nat) : BitVec w

/-- The longest instruction, in bytes (R95, D18). -/
def Config.maxLength : Nat := 15

end Sys2Proof
end

