-- ==== Sys2Proof/Syntax.lean ====
section
/-! DEFINITION. The instructions: one constructor of `Instr` per row of spec/opcode_table.json, over the operand forms of
spec/30_encoding.md. An instruction carries its prefixes; its immediates and displacements keep the form they have in the
instruction bytes, so that its length is a function of it alone. -/

namespace Sys2Proof

/-- A general-register code, named by the 32-bit register it selects (R10). In an 8-bit position the same code names
AL, CL, DL, BL, AH, CH, DH, BH in this order, in a 16-bit one AX, CX, DX, BX, SP, BP, SI, DI (R11). -/
inductive Reg where
  | eax | ecx | edx | ebx | esp | ebp | esi | edi
deriving DecidableEq, Repr

/-- A segment register (R18), in the order of the sreg3 codes 000b to 101b. -/
inductive SReg where
  | es | cs | ss | ds | fs | gs
deriving DecidableEq, Repr

/-- An operand size: 8, 16 or 32 bits (R80). -/
inductive Size where
  | b8 | b16 | b32
deriving DecidableEq, Repr

/-- An operand size in bytes (R45). -/
def Size.bytes : Size → Nat
  | .b8 => 1
  | .b16 => 2
  | .b32 => 4

/-- An operand size in bits. -/
abbrev Size.bits (sz : Size) : Nat := 8 * sz.bytes

/-- An effective-address size: 16 or 32 bits (R78). -/
inductive AddrSize where
  | a16 | a32
deriving DecidableEq, Repr

/-- The sixteen conditions `tttn`, in the order 0000b to 1111b (R85). -/
inductive Cond where
  | o | no | b | nb | e | ne | be | nbe | s | ns | p | np | l | nl | le | nle
deriving DecidableEq, Repr

/-- The scale of an index register: x1, x2, x4, x8 (R87). -/
inductive Scale where
  | x1 | x2 | x4 | x8
deriving DecidableEq, Repr

/-- The prefixes of one instruction (R72). Their order has no meaning and no kind stands twice (D9). A repeat prefix
stands before no instruction of the model (R73). -/
structure Prefixes where
  /-- 66h, operand size (R74) -/
  opsize : Bool := false
  /-- 67h, address size (R75) -/
  adsize : Bool := false
  /-- F0h, bus lock (R77) -/
  lock : Bool := false
  /-- the segment override (R76) -/
  seg : Option SReg := none
deriving DecidableEq, Repr

/-- The register part of a 16-bit effective address, in the order of r/m 000b to 111b (R88). -/
inductive Base16 where
  | bxsi | bxdi | bpsi | bpdi | si | di | bp | bx
deriving DecidableEq, Repr

/-- The displacement of a 16-bit effective address: mod 00b, 01b, 10b (R88). -/
inductive Disp16 where
  | none
  | d8 (v : BitVec 8)
  | d16 (v : BitVec 16)
deriving DecidableEq, Repr

/-- The displacement of a 32-bit effective address: mod 00b, 01b, 10b (R89, R90). -/
inductive Disp32 where
  | none
  | d8 (v : BitVec 8)
  | d32 (v : BitVec 32)
deriving DecidableEq, Repr

/-- A memory operand, as mod, r/m and the sib byte give it (R88, R89, R90). -/
inductive Mem where
  /-- 16-bit addressing, mod 00b, r/m 110b: disp16 alone -/
  | abs16 (disp : BitVec 16)
  /-- 16-bit addressing with registers -/
  | base16 (base : Base16) (disp : Disp16)
  /-- 32-bit addressing, mod 00b, r/m 101b: disp32 alone -/
  | abs32 (disp : BitVec 32)
  /-- 32-bit addressing with one register, no sib byte -/
  | base32 (base : Reg) (disp : Disp32)
  /-- a sib byte with a base register; index code 100b (`.esp`) means no index -/
  | sib (scale : Scale) (index : Reg) (base : Reg) (disp : Disp32)
  /-- a sib byte with base 101b under mod 00b: no base register, disp32 -/
  | sibNoBase (scale : Scale) (index : Reg) (disp : BitVec 32)
deriving DecidableEq, Repr

/-- The effective-address size a memory operand is written for. -/
def Mem.adsize : Mem → AddrSize
  | .abs16 _ | .base16 _ _ => .a16
  | .abs32 _ | .base32 _ _ | .sib _ _ _ _ | .sibNoBase _ _ _ => .a32

/-- The operand that mod and r/m name: a register (mod 11b) or memory (R86). -/
inductive RM where
  | reg (r : Reg)
  | mem (m : Mem)
deriving DecidableEq, Repr

/-- An immediate of the operand's own size (R93): w = 0 carries `i8`, w = 1 `i16` or `i32`. -/
inductive Imm where
  | i8 (v : BitVec 8)
  | i16 (v : BitVec 16)
  | i32 (v : BitVec 32)
deriving DecidableEq, Repr

/-- The immediate of ADD (R111): opcode 80h or 81h carries one of the operand's size, opcode 83h (s = 1, w = 1) one byte
that is sign-extended (R82). -/
inductive AddImm where
  | same (v : Imm)
  | sext (v : BitVec 8)
deriving DecidableEq, Repr

/-- The displacement of a near conditional jump, of the operand size (R94, R131). -/
inductive Rel where
  | r16 (v : BitVec 16)
  | r32 (v : BitVec 32)
deriving DecidableEq, Repr

/-- The instructions of spec/opcode_table.json, one constructor per row. -/
inductive Instr where
  /-- CMC (R110) -/
  | cmc (p : Prefixes)
  /-- ADD r/m, imm (R111) -/
  | add (p : Prefixes) (dst : RM) (src : AddImm)
  /-- OR AL/AX/EAX, imm (R112) -/
  | or (p : Prefixes) (src : Imm)
  /-- MOV reg, imm (R120) -/
  | movRegImm (p : Prefixes) (dst : Reg) (src : Imm)
  /-- MOV Sreg, r/m16 (R121); `sreg3` is the raw 3-bit field, of which 001b, 110b, 111b raise -/
  | movSregRm16 (p : Prefixes) (sreg3 : BitVec 3) (src : RM)
  /-- PUSH FS (R122) -/
  | pushFs (p : Prefixes)
  /-- JMP rel8 (R130) -/
  | jmpRel8 (p : Prefixes) (rel : BitVec 8)
  /-- Jcc rel16/rel32 (R131) -/
  | jccRel1632 (p : Prefixes) (c : Cond) (rel : Rel)
  /-- Jcc rel8 (R132) -/
  | jccRel8 (p : Prefixes) (c : Cond) (rel : BitVec 8)
  /-- SETcc r/m8 (R133) -/
  | setcc (p : Prefixes) (c : Cond) (dst : RM)
  /-- NOP (R134) -/
  | nop (p : Prefixes)
  /-- LGDT m (R140); a register operand (mod 11b) raises -/
  | lgdt (p : Prefixes) (src : RM)
  /-- LIDT m (R141); a register operand (mod 11b) raises -/
  | lidt (p : Prefixes) (src : RM)
  /-- MOV r32, CR0 (R142); `cr` is the raw control-register number, of which the spec admits 0 -/
  | movR32Cr0 (p : Prefixes) (cr : BitVec 3) (dst : Reg)
  /-- MOV CR0, r32 (R143) -/
  | movCr0R32 (p : Prefixes) (cr : BitVec 3) (src : Reg)
deriving DecidableEq, Repr

/-- The prefixes an instruction carries. -/
def Instr.prefixes : Instr → Prefixes
  | .cmc p => p
  | .add p _ _ => p
  | .or p _ => p
  | .movRegImm p _ _ => p
  | .movSregRm16 p _ _ => p
  | .pushFs p => p
  | .jmpRel8 p _ => p
  | .jccRel1632 p _ _ => p
  | .jccRel8 p _ _ => p
  | .setcc p _ _ => p
  | .nop p => p
  | .lgdt p _ => p
  | .lidt p _ => p
  | .movR32Cr0 p _ _ => p
  | .movCr0R32 p _ _ => p

end Sys2Proof
end

