-- ==== Sys2Proof/WellFormed.lean ====
section
/-! DEFINITION. Which terms of `Instr` are instructions under a given operand size and address size: the immediates and
displacements have the sizes spec/30_encoding.md gives them, and no operand form stands where its code means another. -/

namespace Sys2Proof

/-- A memory operand that has an encoding of its own: BP alone and EBP alone need a displacement (their mod 00b codes mean
disp alone, R88, R89), ESP is no plain base (its code announces a sib byte, R89), a sib base EBP under mod 00b means no
base (R90), and a sib byte without an index has scale x1 (U7). -/
def Mem.wf : Mem → Bool
  | .abs16 _ => true
  | .base16 b d => b != .bp || d != .none
  | .abs32 _ => true
  | .base32 r d => r != .esp && (r != .ebp || d != .none)
  | .sib sc ix b d => (ix != .esp || sc == .x1) && (b != .ebp || d != .none)
  | .sibNoBase sc ix _ => ix != .esp || sc == .x1

/-- An operand of a mod r/m byte under an address size (R87 to R90). -/
def RM.wf (a : AddrSize) : RM → Bool
  | .reg _ => true
  | .mem m => m.wf && m.adsize == a

/-- An immediate under an operand size: one byte (w = 0) or the full size (w = 1) (R93). -/
def Imm.wf (o : Size) : Imm → Bool
  | .i8 _ => true
  | .i16 _ => o == .b16
  | .i32 _ => o == .b32

/-- The immediate of ADD under an operand size (R82, R93). -/
def AddImm.wf (o : Size) : AddImm → Bool
  | .same v => v.wf o
  | .sext _ => true

/-- A near displacement under an operand size (R94). -/
def Rel.wf (o : Size) : Rel → Bool
  | .r16 _ => o == .b16
  | .r32 _ => o == .b32

/-- Well-formed under the operand size and address size of the instruction. -/
def Instr.wf (o : Size) (a : AddrSize) : Instr → Bool
  | .cmc _ => true
  | .add _ dst src => dst.wf a && src.wf o
  | .or _ src => src.wf o
  | .movRegImm _ _ src => src.wf o
  | .movSregRm16 _ _ src => src.wf a
  | .pushFs _ => true
  | .jmpRel8 _ _ => true
  | .jccRel1632 _ _ rel => rel.wf o
  | .jccRel8 _ _ _ => true
  | .setcc _ _ dst => dst.wf a
  | .nop _ => true
  | .lgdt _ src => src.wf a
  | .lidt _ src => src.wf a
  | .movR32Cr0 _ _ _ => true
  | .movCr0R32 _ _ _ => true

end Sys2Proof
end

