-- ==== Sys2Proof/Decode.lean ====
section
/-! DEFINITION. From instruction bytes to `Instr` (spec/30_encoding.md, R70 to R95), total on any bytes and rejecting by
name; after it the encoder, written from the same tables; and the byte-order and bit-field helpers both use. -/

namespace Sys2Proof

/-! ## Byte order and fields -/

/-- A 16-bit value as its bytes in memory order, low byte first (R40, R41). -/
def le16 (v : BitVec 16) : List Byte := [v.extractLsb' 0 8, v.extractLsb' 8 8]

/-- A 32-bit value as its bytes in memory order, low byte first (R40, R41). -/
def le32 (v : BitVec 32) : List Byte :=
  [v.extractLsb' 0 8, v.extractLsb' 8 8, v.extractLsb' 16 8, v.extractLsb' 24 8]

/-- `n` bytes of a number, low byte first. -/
def leBytes (n w : Nat) : List Byte := (List.range n).map fun k => BitVec.ofNat 8 (w >>> (8 * k))

/-- Three fields of one byte: bits 7:6, 5:3, 2:0 (the mod r/m byte R86, the sib byte R87). -/
def packFields (hi : BitVec 2) (mid lo : BitVec 3) : Byte := hi ++ mid ++ lo

/-- Bits 7:6 of a mod r/m or sib byte: mod (R86), ss (R87). -/
def fieldHi (b : Byte) : BitVec 2 := b.extractLsb' 6 2

/-- Bits 5:3 of a mod r/m or sib byte: reg (R86), index (R87). -/
def fieldMid (b : Byte) : BitVec 3 := b.extractLsb' 3 3

/-- Bits 2:0 of a mod r/m or sib byte: r/m (R86), base (R87). -/
def fieldLo (b : Byte) : BitVec 3 := b.extractLsb' 0 3

/-! ## Codes of the fields -/

/-- The register code (R10, R11). -/
def Reg.code : Reg → BitVec 3
  | .eax => 0 | .ecx => 1 | .edx => 2 | .ebx => 3 | .esp => 4 | .ebp => 5 | .esi => 6 | .edi => 7

/-- The register a 3-bit code names (R10). -/
def Reg.ofCode (c : BitVec 3) : Reg :=
  match c.toNat with
  | 0 => .eax | 1 => .ecx | 2 => .edx | 3 => .ebx | 4 => .esp | 5 => .ebp | 6 => .esi | _ => .edi

/-- The sreg3 code (R18, R84). -/
def SReg.code : SReg → BitVec 3
  | .es => 0 | .cs => 1 | .ss => 2 | .ds => 3 | .fs => 4 | .gs => 5

/-- The segment register an sreg3 code names; 110b and 111b name none (R18, R84). -/
def SReg.ofCode (c : BitVec 3) : Option SReg :=
  match c.toNat with
  | 0 => some .es | 1 => some .cs | 2 => some .ss | 3 => some .ds | 4 => some .fs | 5 => some .gs | _ => none

/-- The `tttn` code (R85). -/
def Cond.code : Cond → BitVec 4
  | .o => 0 | .no => 1 | .b => 2 | .nb => 3 | .e => 4 | .ne => 5 | .be => 6 | .nbe => 7
  | .s => 8 | .ns => 9 | .p => 10 | .np => 11 | .l => 12 | .nl => 13 | .le => 14 | .nle => 15

/-- The condition a `tttn` code selects (R85). -/
def Cond.ofCode (c : BitVec 4) : Cond :=
  match c.toNat with
  | 0 => .o | 1 => .no | 2 => .b | 3 => .nb | 4 => .e | 5 => .ne | 6 => .be | 7 => .nbe
  | 8 => .s | 9 => .ns | 10 => .p | 11 => .np | 12 => .l | 13 => .nl | 14 => .le | _ => .nle

/-- The `ss` code (R87). -/
def Scale.code : Scale → BitVec 2
  | .x1 => 0 | .x2 => 1 | .x4 => 2 | .x8 => 3

/-- The scale an `ss` code selects (R87). -/
def Scale.ofCode (c : BitVec 2) : Scale :=
  match c.toNat with
  | 0 => .x1 | 1 => .x2 | 2 => .x4 | _ => .x8

/-- The r/m code of a 16-bit base (R88). -/
def Base16.code : Base16 → BitVec 3
  | .bxsi => 0 | .bxdi => 1 | .bpsi => 2 | .bpdi => 3 | .si => 4 | .di => 5 | .bp => 6 | .bx => 7

/-- The 16-bit base an r/m code selects (R88). -/
def Base16.ofCode (c : BitVec 3) : Base16 :=
  match c.toNat with
  | 0 => .bxsi | 1 => .bxdi | 2 => .bpsi | 3 => .bpdi | 4 => .si | 5 => .di | 6 => .bp | _ => .bx

/-! ## Default sizes and their override -/

/-- The operand size, from the default attribute D and the presence of prefix 66h (R74, R78). -/
def operandSize (d p66 : Bool) : Size := if d ^^ p66 then .b32 else .b16

/-- The effective-address size, from D and the presence of prefix 67h (R75, R78). -/
def addressSize (d p67 : Bool) : AddrSize := if d ^^ p67 then .a32 else .a16

/-- Well-formed in a code segment with default attribute `d`. -/
def Instr.wfIn (d : Bool) (i : Instr) : Bool :=
  i.wf (operandSize d i.prefixes.opsize) (addressSize d i.prefixes.adsize)

/-! ## Parsing -/

/-- Why bytes are no instruction of the model. -/
inductive Reject where
  /-- no row of spec/opcode_table.json: unknown opcode bytes (R6, R96, U15), the ADD group with a reg field other than 000b
  (U14), 0F 01 with a reg field other than 010b and 011b -/
  | noRow
  /-- opcode 82h, s = 1 and w = 0 (R111, U13) -/
  | opcode82
  /-- a repeat prefix (R73, U16) -/
  | repeatMark
  /-- two prefixes of one kind (R72, D9, U17) -/
  | doubledMark
  /-- a sib byte without an index register and with a scale other than x1 (R90, U7) -/
  | scaledNoIndex
deriving DecidableEq, Repr

/-- What parsing bytes gives: a value and the bytes after it, too few bytes, or a rejection. -/
inductive Parse (α : Type) where
  | ok (a : α) (rest : List Byte)
  | short
  | reject (r : Reject)
deriving DecidableEq, Repr

/-- Parse on with what was read and the bytes after it. -/
def Parse.bind {α β : Type} (x : Parse α) (f : α → List Byte → Parse β) : Parse β :=
  match x with
  | .ok a rest => f a rest
  | .short => .short
  | .reject r => .reject r

/-- Change the value that was read. -/
def Parse.map {α β : Type} (f : α → β) (x : Parse α) : Parse β := x.bind fun a rest => .ok (f a) rest

/-- One byte. -/
def take8 : List Byte → Parse Byte
  | b :: bs => .ok b bs
  | [] => .short

/-- Two bytes, low byte first (R41). -/
def take16 : List Byte → Parse (BitVec 16)
  | b0 :: b1 :: bs => .ok (b1 ++ b0) bs
  | _ => .short

/-- Four bytes, low byte first (R41). -/
def take32 : List Byte → Parse (BitVec 32)
  | b0 :: b1 :: b2 :: b3 :: bs => .ok (b3 ++ b2 ++ b1 ++ b0) bs
  | _ => .short

/-- The kinds of prefix byte (R72). -/
inductive Mark where
  | opsize | adsize | lock | rep
  | seg (r : SReg)
deriving DecidableEq, Repr

/-- The prefix a byte is, if it is one (the table of R72). -/
def Mark.ofByte (b : Byte) : Option Mark :=
  if b = 0x66 then some .opsize
  else if b = 0x67 then some .adsize
  else if b = 0xF0 then some .lock
  else if b = 0xF3 ∨ b = 0xF2 then some .rep
  else if b = 0x26 then some (.seg .es)
  else if b = 0x2E then some (.seg .cs)
  else if b = 0x36 then some (.seg .ss)
  else if b = 0x3E then some (.seg .ds)
  else if b = 0x64 then some (.seg .fs)
  else if b = 0x65 then some (.seg .gs)
  else none

/-- The prefixes read so far, a repeat prefix among them. -/
structure Marks where
  p : Prefixes := {}
  rep : Bool := false
deriving DecidableEq, Repr

/-- Record one more prefix; none where its kind was there already (D9). -/
def Marks.add (m : Marks) : Mark → Option Marks
  | .opsize => if m.p.opsize then none else some { m with p := { m.p with opsize := true } }
  | .adsize => if m.p.adsize then none else some { m with p := { m.p with adsize := true } }
  | .lock => if m.p.lock then none else some { m with p := { m.p with lock := true } }
  | .rep => if m.rep then none else some { m with rep := true }
  | .seg r => if m.p.seg.isSome then none else some { m with p := { m.p with seg := some r } }

/-- Read prefixes up to the first byte that is none (R72, R95), in any order (D9). A second prefix of a kind is refused
where it stands, before a byte more is read, so before a fault of fetching a later byte: the spec does not order the two
(DESIGN CHOICE, log 33). -/
def scanMarks (m : Marks) : List Byte → Parse Marks
  | [] => .short
  | b :: bs =>
    match Mark.ofByte b with
    | none => .ok m (b :: bs)
    | some k =>
      match m.add k with
      | none => .reject .doubledMark
      | some m' => scanMarks m' bs

/-- What the opcode byte or bytes select, with the fields they hold (R79 to R85). -/
inductive Opcode where
  | cmc
  | addGroup (s w : Bool)
  | or (w : Bool)
  | movRegImm (w : Bool) (r : Reg)
  | movSregRm16
  | pushFs
  | jmpRel8
  | jccRel1632 (c : Cond)
  | jccRel8 (c : Cond)
  | setcc (c : Cond)
  | nop
  | group0F01
  | movFromCr
  | movToCr
deriving DecidableEq, Repr

/-- The one-byte opcodes, by the match and mask of spec/opcode_table.json (R100). -/
def Opcode.ofByte (b : Byte) : Option Opcode :=
  if b = 0xF5 then some .cmc
  else if b &&& 0xFC = 0x80 then some (.addGroup (b.getLsbD 1) (b.getLsbD 0))
  else if b &&& 0xFE = 0x0C then some (.or (b.getLsbD 0))
  else if b &&& 0xF0 = 0xB0 then some (.movRegImm (b.getLsbD 3) (Reg.ofCode (fieldLo b)))
  else if b = 0x8E then some .movSregRm16
  else if b = 0xEB then some .jmpRel8
  else if b &&& 0xF0 = 0x70 then some (.jccRel8 (Cond.ofCode (b.extractLsb' 0 4)))
  else if b = 0x90 then some .nop
  else none

/-- The second byte of the opcodes that begin with 0Fh (R79, R100). -/
def Opcode.ofByte0F (b : Byte) : Option Opcode :=
  if b = 0xA0 then some .pushFs
  else if b &&& 0xF0 = 0x80 then some (.jccRel1632 (Cond.ofCode (b.extractLsb' 0 4)))
  else if b &&& 0xF0 = 0x90 then some (.setcc (Cond.ofCode (b.extractLsb' 0 4)))
  else if b = 0x01 then some .group0F01
  else if b = 0x20 then some .movFromCr
  else if b = 0x22 then some .movToCr
  else none

/-- Read the opcode byte or bytes (R79, R95). -/
def takeOpcode (bs : List Byte) : Parse Opcode :=
  (take8 bs).bind fun b bs =>
    if b = 0x0F then
      (take8 bs).bind fun b2 bs =>
        match Opcode.ofByte0F b2 with
        | some op => .ok op bs
        | none => .reject .noRow
    else
      match Opcode.ofByte b with
      | some op => .ok op bs
      | none => .reject .noRow

/-- The displacement of 16-bit addressing that `mod` calls for (R88). -/
def takeDisp16 (mod : BitVec 2) (bs : List Byte) : Parse Disp16 :=
  if mod = 0 then .ok .none bs
  else if mod = 1 then (take8 bs).map .d8
  else (take16 bs).map .d16

/-- The displacement of 32-bit addressing that `mod` calls for (R89, R90). -/
def takeDisp32 (mod : BitVec 2) (bs : List Byte) : Parse Disp32 :=
  if mod = 0 then .ok .none bs
  else if mod = 1 then (take8 bs).map .d8
  else (take32 bs).map .d32

/-- A 16-bit memory operand, `mod` not 11b (R88). -/
def takeMem16 (mod : BitVec 2) (rm : BitVec 3) (bs : List Byte) : Parse Mem :=
  if mod = 0 ∧ rm = 6 then (take16 bs).map .abs16
  else (takeDisp16 mod bs).map (.base16 (Base16.ofCode rm))

/-- The part of a 32-bit memory operand after a mod r/m byte that announces a sib byte (R87, R90). A sib byte with a scale
and no index (U7) is refused where it stands, before a byte more is read, so before a fault of fetching a later byte: the
spec does not order the two (DESIGN CHOICE, log 33). -/
def takeSib (mod : BitVec 2) (bs : List Byte) : Parse Mem :=
  (take8 bs).bind fun s bs =>
    let sc := Scale.ofCode (fieldHi s)
    let ix := Reg.ofCode (fieldMid s)
    let b := Reg.ofCode (fieldLo s)
    if ix = .esp ∧ sc ≠ .x1 then .reject .scaledNoIndex
    else if mod = 0 ∧ b = .ebp then (take32 bs).map (.sibNoBase sc ix)
    else (takeDisp32 mod bs).map (.sib sc ix b)

/-- A 32-bit memory operand, `mod` not 11b (R89, R90). -/
def takeMem32 (mod : BitVec 2) (rm : BitVec 3) (bs : List Byte) : Parse Mem :=
  if rm = 4 then takeSib mod bs
  else if mod = 0 ∧ rm = 5 then (take32 bs).map .abs32
  else (takeDisp32 mod bs).map (.base32 (Reg.ofCode rm))

/-- The operand of `mod` and `r/m` (R86 to R90). -/
def takeOperand (a : AddrSize) (mod : BitVec 2) (rm : BitVec 3) (bs : List Byte) : Parse RM :=
  if mod = 3 then .ok (.reg (Reg.ofCode rm)) bs
  else
    match a with
    | .a16 => (takeMem16 mod rm bs).map .mem
    | .a32 => (takeMem32 mod rm bs).map .mem

/-- A mod r/m byte with all that follows from it: its reg field and its operand (R86 to R90). A reg field that `sel` does
not admit selects no row, and is refused before a byte more is read (R95). -/
def takeRM (a : AddrSize) (sel : BitVec 3 → Bool) (bs : List Byte) : Parse (BitVec 3 × RM) :=
  (take8 bs).bind fun m bs =>
    if sel (fieldMid m) then (takeOperand a (fieldHi m) (fieldLo m) bs).map fun x => (fieldMid m, x)
    else .reject .noRow

/-- Every reg field. -/
def anyReg (_ : BitVec 3) : Bool := true

/-- An immediate of the operand's size (R93). -/
def takeImm (o : Size) (w : Bool) (bs : List Byte) : Parse Imm :=
  if w then
    match o with
    | .b32 => (take32 bs).map .i32
    | _ => (take16 bs).map .i16
  else (take8 bs).map .i8

/-- A displacement of the operand size (R94). -/
def takeRel (o : Size) (bs : List Byte) : Parse Rel :=
  match o with
  | .b32 => (take32 bs).map .r32
  | _ => (take16 bs).map .r16

/-- What follows the opcode, by the row it selects. -/
def takeRow (o : Size) (a : AddrSize) (p : Prefixes) (op : Opcode) (bs : List Byte) : Parse Instr :=
  match op with
  | .cmc => .ok (.cmc p) bs
  | .addGroup s w =>
    if s ∧ ¬ w then .reject .opcode82
    else
      (takeRM a (· == 0) bs).bind fun x bs =>
        if s then (take8 bs).map fun v => .add p x.2 (.sext v)
        else (takeImm o w bs).map fun v => .add p x.2 (.same v)
  | .or w => (takeImm o w bs).map (.or p)
  | .movRegImm w r => (takeImm o w bs).map (.movRegImm p r)
  | .movSregRm16 => (takeRM a anyReg bs).map fun x => .movSregRm16 p x.1 x.2
  | .pushFs => .ok (.pushFs p) bs
  | .jmpRel8 => (take8 bs).map (.jmpRel8 p)
  | .jccRel1632 c => (takeRel o bs).map (.jccRel1632 p c)
  | .jccRel8 c => (take8 bs).map (.jccRel8 p c)
  | .setcc c => (takeRM a anyReg bs).map fun x => .setcc p c x.2
  | .nop => .ok (.nop p) bs
  | .group0F01 =>
    (takeRM a (fun r => r == 2 || r == 3) bs).map fun x => if x.1 = 2 then .lgdt p x.2 else .lidt p x.2
  | .movFromCr => (take8 bs).map fun m => .movR32Cr0 p (fieldMid m) (Reg.ofCode (fieldLo m))
  | .movToCr => (take8 bs).map fun m => .movCr0R32 p (fieldMid m) (Reg.ofCode (fieldLo m))

/-- The instruction at the head of the bytes, in a code segment with default attribute `d`, and the bytes after it
(R70, R95). A repeat prefix is refused once the opcode selects a row (log 24), before a byte more is read (DESIGN CHOICE,
log 33). Every refusal of the decoder comes before any exception of the instruction's own, which the meanings raise: the
InvalidOpcode of a lock prefix (R77, U18), of a segment code (R84, R121) or of a register operand (R140), the privilege
check (R163) and the faults of its accesses. The spec does not order a refused encoding (U7, U16, U17) and such an exception
(DESIGN CHOICE, log 37). -/
def decode (d : Bool) (bs : List Byte) : Parse Instr :=
  (scanMarks {} bs).bind fun m bs =>
    (takeOpcode bs).bind fun op bs =>
      if m.rep then .reject .repeatMark
      else takeRow (operandSize d m.p.opsize) (addressSize d m.p.adsize) m.p op bs

/-- The instruction the decoder reads, in a code segment with D = 0, from an instruction of `nbits` bits whose value is
`w`, its first byte in bits 7:0, followed by zero bytes. -/
def decodeTableWord (nbits w : Nat) : Option Instr :=
  match decode false (leBytes Config.maxLength (w % 2 ^ nbits)) with
  | .ok i _ => some i
  | _ => none

/-! ## Encoding -/

/-- The override byte of a segment register (R72). -/
def SReg.overrideByte : SReg → Byte
  | .es => 0x26 | .cs => 0x2E | .ss => 0x36 | .ds => 0x3E | .fs => 0x64 | .gs => 0x65

/-- The prefix bytes, in the order lock, segment, operand size, address size. -/
def Prefixes.encode (p : Prefixes) : List Byte :=
  (if p.lock then [0xF0#8] else []) ++ (p.seg.map SReg.overrideByte).toList ++
    (if p.opsize then [0x66#8] else []) ++ (if p.adsize then [0x67#8] else [])

/-- The `mod` code of a 16-bit displacement (R88). -/
def Disp16.mod : Disp16 → BitVec 2
  | .none => 0 | .d8 _ => 1 | .d16 _ => 2

/-- The bytes of a 16-bit displacement. -/
def Disp16.encode : Disp16 → List Byte
  | .none => [] | .d8 v => [v] | .d16 v => le16 v

/-- The `mod` code of a 32-bit displacement (R89, R90). -/
def Disp32.mod : Disp32 → BitVec 2
  | .none => 0 | .d8 _ => 1 | .d32 _ => 2

/-- The bytes of a 32-bit displacement. -/
def Disp32.encode : Disp32 → List Byte
  | .none => [] | .d8 v => [v] | .d32 v => le32 v

/-- The mod r/m byte of an operand with the given reg field, and all that follows from it (R86 to R90). -/
def RM.encode (reg : BitVec 3) : RM → List Byte
  | .reg r => [packFields 3 reg r.code]
  | .mem (.abs16 v) => packFields 0 reg 6 :: le16 v
  | .mem (.base16 b d) => packFields d.mod reg b.code :: d.encode
  | .mem (.abs32 v) => packFields 0 reg 5 :: le32 v
  | .mem (.base32 r d) => packFields d.mod reg r.code :: d.encode
  | .mem (.sib sc ix b d) => packFields d.mod reg 4 :: packFields sc.code ix.code b.code :: d.encode
  | .mem (.sibNoBase sc ix v) => packFields 0 reg 4 :: packFields sc.code ix.code 5 :: le32 v

/-- The bytes of an immediate (R93). -/
def Imm.encode : Imm → List Byte
  | .i8 v => [v] | .i16 v => le16 v | .i32 v => le32 v

/-- The w field of an immediate: 0 for one byte, 1 for the full size (R80). -/
def Imm.w : Imm → Bool
  | .i8 _ => false | .i16 _ | .i32 _ => true

/-- The bytes of a near displacement (R94). -/
def Rel.encode : Rel → List Byte
  | .r16 v => le16 v | .r32 v => le32 v

/-- The opcode byte of ADD with its s and w fields, and its immediate (R111). -/
def AddImm.opcode : AddImm → Byte
  | .same v => if v.w then 0x81 else 0x80
  | .sext _ => 0x83

/-- The bytes of ADD's immediate. -/
def AddImm.encode : AddImm → List Byte
  | .same v => v.encode
  | .sext v => [v]

/-- The bytes of an instruction after its prefixes. -/
def Instr.encodeBody : Instr → List Byte
  | .cmc _ => [0xF5]
  | .add _ dst src => src.opcode :: dst.encode 0 ++ src.encode
  | .or _ src => (if src.w then 0x0D else 0x0C) :: src.encode
  | .movRegImm _ r src => ((if src.w then 0xB8 else 0xB0) ||| r.code.setWidth 8) :: src.encode
  | .movSregRm16 _ k src => 0x8E :: src.encode k
  | .pushFs _ => [0x0F, 0xA0]
  | .jmpRel8 _ rel => [0xEB, rel]
  | .jccRel1632 _ c rel => 0x0F :: (0x80 ||| c.code.setWidth 8) :: rel.encode
  | .jccRel8 _ c rel => [0x70 ||| c.code.setWidth 8, rel]
  | .setcc _ c dst => 0x0F :: (0x90 ||| c.code.setWidth 8) :: dst.encode 0
  | .nop _ => [0x90]
  | .lgdt _ src => 0x0F :: 0x01 :: src.encode 2
  | .lidt _ src => 0x0F :: 0x01 :: src.encode 3
  | .movR32Cr0 _ cr r => [0x0F, 0x20, packFields 3 cr r.code]
  | .movCr0R32 _ cr r => [0x0F, 0x22, packFields 3 cr r.code]

/-- The bytes of an instruction (R70). -/
def encode (i : Instr) : List Byte := i.prefixes.encode ++ i.encodeBody

/-! ## Length -/

/-- How many prefix bytes. -/
def Prefixes.length (p : Prefixes) : Nat :=
  p.lock.toNat + p.seg.isSome.toNat + p.opsize.toNat + p.adsize.toNat

/-- The length of a 16-bit displacement (R92). -/
def Disp16.length : Disp16 → Nat
  | .none => 0 | .d8 _ => 1 | .d16 _ => 2

/-- The length of a 32-bit displacement (R92). -/
def Disp32.length : Disp32 → Nat
  | .none => 0 | .d8 _ => 1 | .d32 _ => 4

/-- The length of a mod r/m byte with its sib byte and displacement (R95). -/
def RM.length : RM → Nat
  | .reg _ => 1
  | .mem (.abs16 _) => 3
  | .mem (.base16 _ d) => 1 + d.length
  | .mem (.abs32 _) => 5
  | .mem (.base32 _ d) => 1 + d.length
  | .mem (.sib _ _ _ d) => 2 + d.length
  | .mem (.sibNoBase _ _ _) => 6

/-- The length of an immediate (R93). -/
def Imm.length : Imm → Nat
  | .i8 _ => 1 | .i16 _ => 2 | .i32 _ => 4

/-- The length of ADD's immediate (R93). -/
def AddImm.length : AddImm → Nat
  | .same v => v.length
  | .sext _ => 1

/-- The length of a near displacement (R94). -/
def Rel.length : Rel → Nat
  | .r16 _ => 2 | .r32 _ => 4

/-- The length of an instruction after its prefixes. -/
def Instr.bodyLength : Instr → Nat
  | .cmc _ => 1
  | .add _ dst src => 1 + dst.length + src.length
  | .or _ src => 1 + src.length
  | .movRegImm _ _ src => 1 + src.length
  | .movSregRm16 _ _ src => 1 + src.length
  | .pushFs _ => 2
  | .jmpRel8 _ _ => 2
  | .jccRel1632 _ _ rel => 2 + rel.length
  | .jccRel8 _ _ _ => 2
  | .setcc _ _ dst => 2 + dst.length
  | .nop _ => 1
  | .lgdt _ src => 2 + src.length
  | .lidt _ src => 2 + src.length
  | .movR32Cr0 _ _ _ => 3
  | .movCr0R32 _ _ _ => 3

/-- The length of an instruction in bytes, prefixes included (R95). -/
def Instr.length (i : Instr) : Nat := i.prefixes.length + i.bodyLength

end Sys2Proof
end

