-- ==== Sys2Proof/Machine/State.lean ====
section
/-! DEFINITION. The state of the machine as plain data: every piece of state of spec/10_state.md, the fault state of
spec/60_exceptions.md R156, the spec's open parameters and the counter of free values; the reasons a step can stop; and
the state after reset. INVENTORY.md lists each with its rule. -/

namespace Sys2Proof.Machine

/-- The eight general registers (R10). -/
structure Regs where
  eax : Word
  ecx : Word
  edx : Word
  ebx : Word
  esp : Word
  ebp : Word
  esi : Word
  edi : Word
deriving DecidableEq, Repr

/-- The attributes in the hidden part of a segment register: the access byte (P, DPL, S, TYPE, A; R51), G, X (R53) and
AVL. -/
structure SegAttr where
  access : Byte
  g : Bool
  x : Bool
  avl : Bool
deriving DecidableEq, Repr

/-- A segment register: the visible selector and the hidden part (R18, R20). `valid` is false after a load of a null
selector in protected mode, which marks the hidden part invalid (R123, U21). It alone says whether the register "holds a
non-null selector" (R56), whatever the visible selector is (DESIGN CHOICE, log 38). -/
structure SegReg where
  sel : Selector
  base : Word
  limit : Word
  attr : SegAttr
  valid : Bool
deriving DecidableEq, Repr

/-- The six segment registers (R18). -/
structure SegRegs where
  es : SegReg
  cs : SegReg
  ss : SegReg
  ds : SegReg
  fs : SegReg
  gs : SegReg
deriving DecidableEq, Repr

/-- GDTR or IDTR: a 32-bit linear base and a 16-bit limit (R22). -/
structure TableReg where
  base : Word
  limit : BitVec 16
deriving DecidableEq, Repr

/-- A cached page-table entry (R28): the linear page (the upper 20 bits of a linear address, R57) and the entry, whose
format is not in the spec. -/
structure TlbEntry where
  page : BitVec 20
  entry : Word
deriving DecidableEq, Repr

/-- The system registers no rule of the spec reads or writes (R23, R24, R28, R169). The spec names CR2, CR3, DR0 to DR3, DR6,
DR7, TR6 and TR7 and gives them no width: the 32 bits of each are PRESUMED, the family's (log 35). -/
structure SysRegs where
  cr2 : Word
  cr3 : Word
  ldtr : SegReg
  tr : SegReg
  dr0 : Word
  dr1 : Word
  dr2 : Word
  dr3 : Word
  dr6 : Word
  dr7 : Word
  tr6 : Word
  tr7 : Word
  /-- the TLB, up to 32 entries (R28) -/
  tlb : List TlbEntry
deriving DecidableEq, Repr

/-- The exceptions of R151's table, by the name the spec gives them. -/
inductive Exception where
  | divideError
  | debug
  | nmi
  | breakpoint
  | overflow
  | boundRange
  | invalidOpcode
  | deviceNotAvailable
  | doubleFault
  | coprocessorSegmentOverrun
  | invalidTSS
  | segmentNotPresent
  | stackFault
  | generalProtection
  | pageFault
  | coprocessorError
deriving DecidableEq, Repr

/-- The fault state an exception leaves (R152, R156): its name, its error code where it has one, and the offset of the
faulting instruction's first byte. -/
structure FaultRecord where
  exn : Exception
  code : Option (BitVec 16)
  pc : Word
deriving DecidableEq, Repr

/-- A range of physical addresses. -/
structure Range where
  base : Nat
  size : Nat
deriving DecidableEq, Repr

/-- The open parameters of the spec that are plain data (R4): MEM_MAP (D26), the program text (D13) and HALT_ADDR (D21).
No instruction changes them. Logs 5, 6, 7. -/
structure Params where
  memMap : List Range
  text : List Range
  haltAddr : Option Word
deriving DecidableEq, Repr

/-- Physical memory: the bytes that differ from what an unlisted address reads as, addresses rising (R27). Log 4. -/
abbrev Memory := List Host.Cell

/-- The state of the machine. -/
structure State where
  /-- the general registers (R10) -/
  regs : Regs
  /-- EIP, the rules' `pc` (R14) -/
  eip : Word
  /-- EFLAGS (R16, R17) -/
  eflags : Word
  /-- the segment registers (R18, R20) -/
  segs : SegRegs
  /-- CR0 (R21) -/
  cr0 : Word
  /-- GDTR (R22) -/
  gdtr : TableReg
  /-- IDTR (R22) -/
  idtr : TableReg
  /-- CPL (R26, R162) -/
  cpl : BitVec 2
  /-- the system registers no rule reads or writes (R23, R24, R28) -/
  sys : SysRegs
  /-- LOCK#: whether the instruction just completed ran with the bus locked (R29, R77) -/
  busLock : Bool
  /-- physical memory (R27) -/
  mem : Memory
  /-- the fault state, once an exception was raised (R156) -/
  exn : Option FaultRecord
  /-- the model's own: how many free values have been drawn (log 10) -/
  draws : Nat
  /-- the open parameters (R4) -/
  params : Params
deriving DecidableEq, Repr

/-- Why a step stops with no next state. -/
inductive Fault where
  /-- raised by the step in a fault state: an exception is terminal and the machine "has no further step" (R156, D5).
  Safe: the chip would run a handler. -/
  | inFaultState (r : FaultRecord)
  /-- raised by the step when EIP = HALT_ADDR before a fetch: the run has ended normally and the state it is raised in is
  the final one (R187). Safe: nothing is claimed of what follows. -/
  | runEnded
  /-- raised by every memory access to a physical address that MEM_MAP does not back: the agent is stuck (R47, D26).
  Safe. -/
  | unpopulated (addr : Nat)
  /-- raised by every instruction that does not jump and whose next instruction would stand at offset 2^32: the spec does
  not model a wrap of EIP (R15, D8). Safe. -/
  | eipPastTop
deriving DecidableEq, Repr

/-- Why a step has no meaning in the model. -/
inductive Refusal where
  /-- raised by `exec` for an instruction that has no meaning yet. Safe. -/
  | notModelled (mnemonic : String)
  /-- raised by the step for bytes that are no instruction of the model (R6, D4). Safe. -/
  | rejected (r : Reject)
  /-- raised by the step in a state with EFLAGS.VM = 1 (R164, D24). Safe. -/
  | vm86
  /-- raised by the step in a state with CR0.PG = 1, and by MOV CR0, r32 for a value with bit 31 set (R57, R143, D17).
  Safe. -/
  | paging
  /-- raised by MOV to or from a control register other than CR0 (R142, R143, U10). Safe. -/
  | controlRegister (n : BitVec 3)
  /-- raised by a protected-mode segment load of a selector with TI = 1 (R123, D19). Safe. -/
  | ldtSelector
  /-- raised by a protected-mode load of an expand-down data segment (R123, D19) and by a protected-mode access
  through one that the state already held (log 17). Safe. -/
  | expandDown
  /-- raised by every store whose bytes overlap the program text (R64, D13). Safe. -/
  | storeToText (addr : Nat)
deriving DecidableEq, Repr

/-- A segment register after reset, with the given selector and base (R181; access byte log 1). -/
def SegReg.reset (sel : Selector) (base : Word) : SegReg :=
  { sel, base, limit := 0xFFFF, attr := { access := 0x93, g := false, x := false, avl := false }, valid := true }

/-- LDTR or TR after reset: "not usable until loaded" (R181, log 2). -/
def SegReg.unusable : SegReg :=
  { sel := 0, base := 0, limit := 0, attr := { access := 0, g := false, x := false, avl := false }, valid := false }

/-- The state after reset. The spec states no reset value (R30, R180); R181's values are taken as the family's (PRESUMED,
log 1), the rest is a DESIGN CHOICE (logs 2, 4 to 8, 10, 23). -/
def State.reset : State where
  regs := { eax := 0, ecx := 0, edx := 0x300, ebx := 0, esp := 0, ebp := 0, esi := 0, edi := 0 }
  eip := 0xFFF0
  eflags := 2
  segs :=
    { es := .reset 0 0, cs := .reset 0xF000 0xFFFF0000, ss := .reset 0 0, ds := .reset 0 0, fs := .reset 0 0,
      gs := .reset 0 0 }
  cr0 := 0
  gdtr := { base := 0, limit := 0 }
  idtr := { base := 0, limit := 0x3FF }
  cpl := 0
  sys :=
    { cr2 := 0, cr3 := 0, ldtr := .unusable, tr := .unusable, dr0 := 0, dr1 := 0, dr2 := 0, dr3 := 0, dr6 := 0, dr7 := 0,
      tr6 := 0, tr7 := 0, tlb := [] }
  busLock := false
  mem := []
  exn := none
  draws := 0
  params := { memMap := [{ base := 0, size := 2 ^ 32 }], text := [], haltAddr := none }

end Sys2Proof.Machine
end

