-- ==== Sys2Proof/Machine/Ops.lean ====
section
/-! DEFINITION. The named operations over the state: registers, segment registers, memory (spec/20_memory.md R47), the
checks of a segmented access (R48, R49, R52, R56), free values, taking an exception (spec/60_exceptions.md R150, R156),
and moving to the next instruction (spec/10_state.md R15). -/

namespace Sys2Proof

/-- A word with the `n` bits from bit `lo` on replaced by `v`, the others kept: a partial register write (R12). -/
def Word.insert {n : Nat} (w : Word) (lo : Nat) (v : BitVec n) : Word :=
  (w &&& ~~~((BitVec.allOnes n).setWidth 32 <<< lo)) ||| (v.setWidth 32 <<< lo)

/-- A word with bit `k` set to `b`. -/
def Word.setBit (w : Word) (k : Nat) (b : Bool) : Word := w.insert k (BitVec.ofBool b)

namespace Machine

/-! ## Field updates -/

def State.setRegs (s : State) (v : Regs) : State := { s with regs := v }
def State.setEip (s : State) (v : Word) : State := { s with eip := v }
def State.setEflags (s : State) (v : Word) : State := { s with eflags := v }
def State.setSegs (s : State) (v : SegRegs) : State := { s with segs := v }
def State.setCr0 (s : State) (v : Word) : State := { s with cr0 := v }
def State.setGdtr (s : State) (v : TableReg) : State := { s with gdtr := v }
def State.setIdtr (s : State) (v : TableReg) : State := { s with idtr := v }
def State.setBusLock (s : State) (v : Bool) : State := { s with busLock := v }
def State.setMem (s : State) (v : Memory) : State := { s with mem := v }
def State.setExn (s : State) (v : Option FaultRecord) : State := { s with exn := v }
def State.setDraws (s : State) (v : Nat) : State := { s with draws := v }

/-! ## General registers -/

/-- The register `x[i]` (R10). -/
def Regs.get (g : Regs) : Reg → Word
  | .eax => g.eax | .ecx => g.ecx | .edx => g.edx | .ebx => g.ebx
  | .esp => g.esp | .ebp => g.ebp | .esi => g.esi | .edi => g.edi

/-- The registers with `x[i]` replaced. -/
def Regs.set (g : Regs) (r : Reg) (v : Word) : Regs :=
  match r with
  | .eax => { g with eax := v } | .ecx => { g with ecx := v } | .edx => { g with edx := v }
  | .ebx => { g with ebx := v } | .esp => { g with esp := v } | .ebp => { g with ebp := v }
  | .esi => { g with esi := v } | .edi => { g with edi := v }

/-- The 32-bit register `x[i]`. -/
def State.x (s : State) (r : Reg) : Word := s.regs.get r

/-- `x[i] <- v`. -/
def State.setX (s : State) (r : Reg) (v : Word) : State := s.setRegs (s.regs.set r v)

/-- The 32-bit register that holds the register with code `c` and size `sz`: AH, CH, DH, BH lie in EAX, ECX, EDX, EBX
(R12). -/
def regHome (c : Reg) (sz : Size) : Reg :=
  match sz, c with
  | .b8, .esp => .eax
  | .b8, .ebp => .ecx
  | .b8, .esi => .edx
  | .b8, .edi => .ebx
  | _, c => c

/-- The lowest bit of the register with code `c` and size `sz` in its 32-bit register (R12). -/
def regLow (c : Reg) (sz : Size) : Nat :=
  match sz, c with
  | .b8, .esp => 8
  | .b8, .ebp => 8
  | .b8, .esi => 8
  | .b8, .edi => 8
  | _, _ => 0

/-- `R(c, sz)`: the register with code `c` and size `sz` (R11, R12). -/
def State.reg (s : State) (c : Reg) (sz : Size) : BitVec sz.bits :=
  (s.x (regHome c sz)).extractLsb' (regLow c sz) sz.bits

/-- `R(c, sz) <- v`: every other bit of the 32-bit register keeps its value (R12). -/
def State.setReg (s : State) (c : Reg) (sz : Size) (v : BitVec sz.bits) : State :=
  s.setX (regHome c sz) ((s.x (regHome c sz)).insert (regLow c sz) v)

/-! ## Segment registers, control register fields, mode -/

/-- `sreg[k]` (R18). -/
def SegRegs.get (g : SegRegs) : SReg → SegReg
  | .es => g.es | .cs => g.cs | .ss => g.ss | .ds => g.ds | .fs => g.fs | .gs => g.gs

/-- The segment registers with `sreg[k]` replaced. -/
def SegRegs.set (g : SegRegs) (k : SReg) (v : SegReg) : SegRegs :=
  match k with
  | .es => { g with es := v } | .cs => { g with cs := v } | .ss => { g with ss := v }
  | .ds => { g with ds := v } | .fs => { g with fs := v } | .gs => { g with gs := v }

/-- `sreg[k]`. -/
def State.seg (s : State) (k : SReg) : SegReg := s.segs.get k

/-- `sreg[k] <- v`. -/
def State.setSeg (s : State) (k : SReg) (v : SegReg) : State := s.setSegs (s.segs.set k v)

/-- `cr0.PE`, bit 0 (R21): protected mode (R26). -/
def State.pe (s : State) : Bool := s.cr0.getLsbD 0

/-- `cr0.PG`, bit 31 (R21). -/
def State.pg (s : State) : Bool := s.cr0.getLsbD 31

/-- `flags.VM`, bit 17 (R17, R26). -/
def State.vm (s : State) : Bool := s.eflags.getLsbD 17

/-- The operating modes (R3, R26, R160). -/
inductive Mode where
  | real | prot | vm86
deriving DecidableEq, Repr

/-- The operating mode is a function of the state (R26). -/
def State.mode (s : State) : Mode := if s.pe then if s.vm then .vm86 else .prot else .real

/-- The default size attribute D: the X bit of CS's hidden part (R25, R53), which a change of PE keeps (R144, D23) and no
admitted instruction writes. It is 0 in real mode (R78) wherever that bit is; log 13. -/
def State.defaultSize (s : State) : Bool := s.segs.cs.attr.x

/-- The operand size of an instruction with these prefixes (R78). -/
def State.opsize (s : State) (p : Prefixes) : Size := operandSize s.defaultSize p.opsize

/-- The P bit of an access byte (R51). -/
def SegAttr.p (a : SegAttr) : Bool := a.access.getLsbD 7

/-- The DPL field of an access byte (R51). -/
def SegAttr.dpl (a : SegAttr) : BitVec 2 := a.access.extractLsb' 5 2

/-- The S bit: a code or data segment (R51). -/
def SegAttr.s (a : SegAttr) : Bool := a.access.getLsbD 4

/-- TYPE bit 2: a code segment (R51). -/
def SegAttr.code (a : SegAttr) : Bool := a.access.getLsbD 3

/-- TYPE bit 1: expand-down for data, conforming for code (R51). -/
def SegAttr.b2 (a : SegAttr) : Bool := a.access.getLsbD 2

/-- TYPE bit 0: writable for data, readable for code (R51). -/
def SegAttr.b1 (a : SegAttr) : Bool := a.access.getLsbD 1

/-- The A bit (R51). -/
def SegAttr.a (a : SegAttr) : Bool := a.access.getLsbD 0

/-! ## Exceptions -/

/-- The vector number of an exception (R151). -/
def Exception.vector : Exception → Nat
  | .divideError => 0
  | .debug => 1
  | .nmi => 2
  | .breakpoint => 3
  | .overflow => 4
  | .boundRange => 5
  | .invalidOpcode => 6
  | .deviceNotAvailable => 7
  | .doubleFault => 8
  | .coprocessorSegmentOverrun => 9
  | .invalidTSS => 10
  | .segmentNotPresent => 11
  | .stackFault => 12
  | .generalProtection => 13
  | .pageFault => 14
  | .coprocessorError => 16

/-- Whether an exception has an error code (R151). -/
def Exception.hasErrorCode : Exception → Bool
  | .doubleFault | .invalidTSS | .segmentNotPresent | .stackFault | .generalProtection | .pageFault => true
  | _ => false

/-- What ends an instruction before its effect: an exception with its error code, a model fault, a refusal. -/
inductive Stop where
  | exn (e : Exception) (code : Option (BitVec 16))
  | fault (f : Fault)
  | refuse (r : Refusal)
deriving DecidableEq, Repr

/-- `raise InvalidOpcode`: no error code (R152). -/
def Stop.invalidOpcode : Stop := .exn .invalidOpcode none

/-- `raise GeneralProtection(e)`. -/
def Stop.gp (e : BitVec 16) : Stop := .exn .generalProtection (some e)

/-- `raise StackFault(e)`. -/
def Stop.sf (e : BitVec 16) : Stop := .exn .stackFault (some e)

/-- `raise SegmentNotPresent(e)`. -/
def Stop.np (e : BitVec 16) : Stop := .exn .segmentNotPresent (some e)

/-- TAKING AN EXCEPTION (R150, R152, R156, D5): the machine enters a fault state that records the exception's name, its
error code and the offset of the instruction's first byte; nothing else changes. The spec gives no delivery to a handler
and no return from an exception (R158), so no operation stands beside this one. Log 8. -/
def State.takeException (s : State) (e : Exception) (code : Option (BitVec 16)) : State :=
  s.setExn (some { exn := e, code, pc := s.eip })

/-- The outcome of an instruction begun in state `s` (R150, R157): its effect, or the exception taken in `s` itself, or a
stop. -/
def settle (s : State) : Except Stop State → Host.Outcome State Fault Refusal
  | .ok t => .next t
  | .error (.exn e code) => .next (s.takeException e code)
  | .error (.fault f) => .fault f
  | .error (.refuse r) => .refused r

/-- Go on only where `c` holds. -/
def require (c : Bool) (o : Stop) : Except Stop Unit := if c then .ok () else .error o

/-! ## Physical memory -/

/-- What an address that is not listed reads as (log 4). -/
def Memory.unlisted : Byte := 0

/-- The byte at an address. -/
def Memory.read (m : Memory) (a : Nat) : Byte :=
  match m with
  | [] => Memory.unlisted
  | c :: m => if c.1 = a then c.2 else Memory.read m a

/-- The memory with one byte replaced; a byte equal to what an unlisted address reads as is not listed. -/
def Memory.write (m : Memory) (a : Nat) (b : Byte) : Memory :=
  match m with
  | [] => if b = Memory.unlisted then [] else [(a, b)]
  | c :: m =>
    if c.1 < a then c :: Memory.write m a b
    else if c.1 = a then (if b = Memory.unlisted then m else (a, b) :: m)
    else if b = Memory.unlisted then c :: m
    else (a, b) :: c :: m

/-- The canonical form: addresses strictly rising from `lo` on and below 2^32, no byte equal to what an unlisted address
reads as. -/
def Memory.wfFrom (lo : Nat) : Memory → Bool
  | [] => true
  | c :: m => decide (lo ≤ c.1) && decide (c.1 < 2 ^ 32) && decide (c.2 ≠ Memory.unlisted) && Memory.wfFrom (c.1 + 1) m

/-- The canonical form of a memory. -/
def Memory.wf (m : Memory) : Bool := m.wfFrom 0

/-- `n` bytes from an address on, assembled little-endian, addresses modulo 2^32 (R40, R47). -/
def Memory.readLe (m : Memory) (a : Word) : Nat → Nat
  | 0 => 0
  | n + 1 => (m.read a.toNat).toNat + 256 * m.readLe (a + 1) n

/-- `n` bytes of a value written little-endian from an address on, addresses modulo 2^32 (R40, R47). -/
def Memory.writeLe (m : Memory) (a : Word) (n : Nat) (v : Nat) : Memory :=
  match n with
  | 0 => m
  | n + 1 => (m.write a.toNat (BitVec.ofNat 8 v)).writeLe (a + 1) n (v / 256)

/-- Bytes written one after another from an address on, addresses modulo 2^32. -/
def Memory.writeBytes (m : Memory) (a : Word) : List Byte → Memory
  | [] => m
  | b :: bs => (m.write a.toNat b).writeBytes (a + 1) bs

/-- Whether an address lies in a range. -/
def Range.has (r : Range) (a : Nat) : Bool := decide (r.base ≤ a) && decide (a < r.base + r.size)

/-- Whether MEM_MAP backs a physical address (R47, D26). -/
def State.populated (s : State) (a : Nat) : Bool := s.params.memMap.any (·.has a)

/-- Whether a physical address holds program text (R64, D13). -/
def State.isText (s : State) (a : Nat) : Bool := s.params.text.any (·.has a)

/-- The physical addresses of an access of `n` bytes at linear address `a`, paging off (R47, R58). -/
def accessAddrs (a : Word) (n : Nat) : List Nat := (List.range n).map fun k => (a + BitVec.ofNat 32 k).toNat

/-- An access outside MEM_MAP has no step (R47, D26). -/
def State.checkPopulated (s : State) (a : Word) (n : Nat) : Except Stop Unit :=
  match (accessAddrs a n).find? fun k => !s.populated k with
  | some k => .error (.fault (.unpopulated k))
  | none => .ok ()

/-- A store whose bytes overlap the program text is refused (R64, D13). -/
def State.checkText (s : State) (a : Word) (n : Nat) : Except Stop Unit :=
  match (accessAddrs a n).find? fun k => s.isText k with
  | some k => .error (.refuse (.storeToText k))
  | none => .ok ()

/-- `MemRead(a, n)` (R47). -/
def State.memRead (s : State) (a : Word) (n : Nat) : Except Stop (BitVec (8 * n)) := do
  s.checkPopulated a n
  return BitVec.ofNat (8 * n) (s.mem.readLe a n)

/-- `MemWrite(a, n, v)` (R47). Where one byte lies outside MEM_MAP (D26) and another in the program text (D13), the store
stops as unpopulated: the spec does not order the two stops (DESIGN CHOICE, log 36). -/
def State.memWrite (s : State) (a : Word) (n : Nat) (v : BitVec (8 * n)) : Except Stop State := do
  s.checkPopulated a n
  s.checkText a n
  return s.setMem (s.mem.writeLe a n v.toNat)

/-! ## Segmented access -/

/-- The exception of a failed access check: StackFault(0) through SS, else GeneralProtection(0) (R48, R151). -/
def accessFault (k : SReg) : Stop := if k = .ss then .sf 0 else .gp 0

/-- The limit check of `n` bytes at offset `off`, computed without wrap-around (R48, R52). -/
def SegReg.inLimit (g : SegReg) (off : Word) (n : Nat) : Bool := decide (off.toNat + n ≤ g.limit.toNat + 1)

/-- The type check of protected mode: a write needs a writable data segment, a read a data segment or a readable code
segment (R56). -/
def SegAttr.allows (a : SegAttr) (write : Bool) : Bool :=
  a.s && if write then !a.code && a.b1 else !a.code || a.b1

/-- A data segment that grows down: S = 1, not code, TYPE bit 1 set (R51). -/
def SegAttr.expandDown (a : SegAttr) : Bool := a.s && !a.code && a.b2

/-- The checks of an access of `n` bytes at offset `off` through segment register `k`, before any memory cycle: in both
modes the mark a null selector leaves (U21, log 16; R56's "the register holds a non-null selector" is read as this mark and
not as the visible selector: DESIGN CHOICE, log 38) and the limit (R48, R52, log 12), in protected mode also the type
(R56, log 25). An expand-down segment the state already held is refused in protected mode (log 17); in real mode its
attributes mean nothing (R48). -/
def State.checkAccess (s : State) (k : SReg) (off : Word) (n : Nat) (write : Bool) : Except Stop Unit := do
  let g := s.seg k
  require g.valid (accessFault k)
  require (!s.pe || !g.attr.expandDown) (.refuse .expandDown)
  require (!s.pe || g.attr.allows write) (accessFault k)
  require (g.inLimit off n) (accessFault k)

/-- `SegRead(k, off, n)` (R47). -/
def State.segRead (s : State) (k : SReg) (off : Word) (n : Nat) : Except Stop (BitVec (8 * n)) := do
  s.checkAccess k off n false
  s.memRead ((s.seg k).base + off) n

/-- `SegWrite(k, off, n, v)` (R47). -/
def State.segWrite (s : State) (k : SReg) (off : Word) (n : Nat) (v : BitVec (8 * n)) : Except Stop State := do
  s.checkAccess k off n true
  s.memWrite ((s.seg k).base + off) n v

/-! ## Free values -/

/-- `draw(w)`: a value the rules do not fix (log 10). -/
def State.draw (s : State) (w : Nat) : BitVec w := Config.draw w s.draws

/-- The state after `n` draws. -/
def State.drawn (s : State) (n : Nat) : State := s.setDraws (s.draws + n)

/-! ## Next instruction -/

/-- `pc <- next_pc` after an instruction of `len` bytes (R15), LOCK# as the instruction drove it (R77). EIP does not wrap
(R15, D8, log 14). -/
def State.advance (s : State) (len : Nat) (locked : Bool := false) : Except Stop State := do
  require (s.eip.toNat + len < 2 ^ 32) (.fault .eipPastTop)
  return (s.setEip (s.eip + BitVec.ofNat 32 len)).setBusLock locked

/-- The target of a relative jump: `trunc_opsize(next_pc + sext_32(rel))` (R15, R94). -/
def State.jumpTarget {n : Nat} (s : State) (len : Nat) (o : Size) (rel : BitVec n) : Word :=
  ((s.eip + BitVec.ofNat 32 len + rel.signExtend 32).setWidth o.bits).setWidth 32

/-- A relative jump that is taken: the target is checked against the code-segment limit (R130, R131). -/
def State.jump {n : Nat} (s : State) (len : Nat) (o : Size) (rel : BitVec n) : Except Stop State := do
  let target := s.jumpTarget len o rel
  require (target.toNat ≤ s.segs.cs.limit.toNat) (.gp 0)
  return (s.setEip target).setBusLock false

/-! ## Loading a segment register, pushing -/

/-- A selector's INDEX field (R19). -/
def selIndex (s : Selector) : Nat := (s.extractLsb' 3 13).toNat

/-- A selector's TABLE field: 1 selects the LDT (R19). -/
def selTable (s : Selector) : Bool := s.getLsbD 2

/-- A selector's RPL field (R19). -/
def selRpl (s : Selector) : BitVec 2 := s.extractLsb' 0 2

/-- The linear address of descriptor `idx` of the GDT (R54). -/
def State.descAddr (s : State) (idx : Nat) : Word := s.gdtr.base + BitVec.ofNat 32 (8 * idx)

/-- The base field of a descriptor (R50). -/
def descBase (d : BitVec 64) : Word := d.extractLsb' 56 8 ++ d.extractLsb' 16 24

/-- The 20-bit limit field of a descriptor (R50). -/
def descLimit20 (d : BitVec 64) : BitVec 20 := d.extractLsb' 48 4 ++ d.extractLsb' 0 16

/-- The byte limit of a descriptor: the limit field, in units of 4 KB when G = 1 (R52). -/
def descLimit (d : BitVec 64) : Word :=
  if d.getLsbD 55 then ((descLimit20 d).setWidth 32 <<< 12) ||| 0xFFF else (descLimit20 d).setWidth 32

/-- The attributes of a descriptor as they stand in memory: access byte, G, X, AVL (R50). -/
def descAttr (d : BitVec 64) : SegAttr :=
  { access := d.extractLsb' 40 8, g := d.getLsbD 55, x := d.getLsbD 54, avl := d.getLsbD 52 }

/-- The hidden part a descriptor loads, with the accessed bit set, under selector `s` (R123). -/
def descSeg (s : Selector) (d : BitVec 64) : SegReg :=
  { sel := s, base := descBase d, limit := descLimit d,
    attr := { descAttr d with access := (descAttr d).access ||| 1 }, valid := true }

/-- The error code of a selector: its RPL bits cleared (R152). -/
def selError (s : Selector) : BitVec 16 := s &&& 0xFFFC

/-- The checks of R123 on a descriptor's attributes `a` for a load of register `k` with selector `s` at privilege level
`cpl`, in the order of the rule. -/
def checkDescriptor (k : SReg) (s : Selector) (cpl : BitVec 2) (a : SegAttr) : Except Stop Unit := do
  if k = .ss then
    require (decide (selRpl s = cpl) && a.s && !a.code && a.b1 && decide (a.dpl = cpl)) (.gp (selError s))
    require a.p (.sf (selError s))
  else
    require (a.s && (!a.code || a.b1)) (.gp (selError s))
    require ((a.code && a.b2) || (decide (cpl ≤ a.dpl) && decide (selRpl s ≤ a.dpl))) (.gp (selError s))
    require a.p (.np (selError s))
  require (a.code || !a.b2) (.refuse .expandDown)

/-- `LoadSeg` in real mode: selector and base; limit and attributes keep their values (R48, R123, U22). Log 16 for the
mark. -/
def State.loadSegReal (s : State) (k : SReg) (v : Selector) : State :=
  s.setSeg k { s.seg k with sel := v, base := v.setWidth 32 * 16, valid := true }

/-- `LoadSeg` of a null selector in protected mode: the hidden part is marked invalid (R123, U21). -/
def State.loadSegNull (s : State) (k : SReg) (v : Selector) : State :=
  s.setSeg k { s.seg k with sel := v, valid := false }

/-- Set the accessed bit of the descriptor at linear address `a`, whose attributes are `d`, if it is clear (R46, R123). -/
def State.markAccessed (s : State) (a : Word) (d : SegAttr) : Except Stop State :=
  if d.a then .ok s else s.memWrite (a + 5) 1 (d.access ||| 1)

/-- `LoadSeg(k, v)`, `k` not CS (R123). -/
def State.loadSeg (s : State) (k : SReg) (v : Selector) : Except Stop State := do
  if !s.pe then
    return s.loadSegReal k v
  else if selIndex v = 0 ∧ !selTable v then
    require (decide (k ≠ .ss)) (.gp 0)
    return s.loadSegNull k v
  else
    require (!selTable v) (.refuse .ldtSelector)
    require (decide (8 * selIndex v + 7 ≤ s.gdtr.limit.toNat)) (.gp (selError v))
    let d ← s.memRead (s.descAddr (selIndex v)) 8
    checkDescriptor k v s.cpl (descAttr d)
    let t ← s.markAccessed (s.descAddr (selIndex v)) (descAttr d)
    return t.setSeg k (descSeg v d)

/-- Whether the stack pointer is ESP: in protected mode the X bit of SS (R53, R124, D25). -/
def State.bigStack (s : State) : Bool := s.pe && s.segs.ss.attr.x

/-- The size of the stack pointer. -/
def State.stackSize (s : State) : Size := if s.bigStack then .b32 else .b16

/-- The stack pointer after a push of `n` bytes, the stack pointer having size `z`: SP or ESP less `n`, modulo its size
(R124). -/
def State.pushPtr (s : State) (z : Size) (n : Nat) : BitVec z.bits := s.reg .esp z - BitVec.ofNat z.bits n

/-- A push of `n` bytes with a stack pointer of size `z` (R124). -/
def State.pushWith (s : State) (z : Size) (n : Nat) (v : BitVec (8 * n)) : Except Stop State := do
  let t ← s.segWrite .ss ((s.pushPtr z n).setWidth 32) n v
  return t.setReg .esp z (s.pushPtr z n)

/-- `Push(v, 8n)` (R124). -/
def State.push (s : State) (n : Nat) (v : BitVec (8 * n)) : Except Stop State := s.pushWith s.stackSize n v

end Machine

end Sys2Proof
end

