-- ==== Sys2Proof/Machine/Flags.lean ====
section
/-! DEFINITION. The flags: their places in EFLAGS (spec/10_state.md R17), how results set them
(spec/40_flag_and_arithmetic.md R111 to R113), the values left open (R112, R142, R143) and the conditions that read them
(spec/30_encoding.md R85). -/

namespace Sys2Proof.Machine

/-- The six status flags. -/
structure StatusFlags where
  cf : Bool
  pf : Bool
  af : Bool
  zf : Bool
  sf : Bool
  of : Bool
deriving DecidableEq, Repr

/-- The status flags of a flags word: CF bit 0, PF 2, AF 4, ZF 6, SF 7, OF 11 (R17). -/
def StatusFlags.ofWord (w : Word) : StatusFlags :=
  { cf := w.getLsbD 0, pf := w.getLsbD 2, af := w.getLsbD 4, zf := w.getLsbD 6, sf := w.getLsbD 7, of := w.getLsbD 11 }

/-- A flags word with the six status flags replaced, every other bit kept (R17). -/
def StatusFlags.putInto (f : StatusFlags) (w : Word) : Word :=
  ((((((w.setBit 0 f.cf).setBit 2 f.pf).setBit 4 f.af).setBit 6 f.zf).setBit 7 f.sf).setBit 11 f.of)

/-- The status flags of a state. -/
def State.status (s : State) : StatusFlags := .ofWord s.eflags

/-- The state with its six status flags replaced. -/
def State.setStatus (s : State) (f : StatusFlags) : State := s.setEflags (f.putInto s.eflags)

/-- The bits of EFLAGS that are reserved, with the value they read as (R17). -/
def reservedFlags : List (Nat × Bool) :=
  [(1, true), (3, false), (5, false), (15, false)] ++ (List.range 14).map fun k => (18 + k, false)

/-- Every reserved bit of a flags word reads as R17 says. -/
def flagsReservedOk (w : Word) : Bool := reservedFlags.all fun kb => w.getLsbD kb.1 == kb.2

/-- PF: bits 7:0 of the result hold an even number of ones, whatever its size (R113). -/
def parityEven {n : Nat} (r : BitVec n) : Bool := ((List.range 8).filter fun k => r.getLsbD k).length % 2 == 0

/-- The flags of an addition of `n` bits (R111, R113, R114). -/
def addFlags {n : Nat} (a b : BitVec n) : StatusFlags :=
  let r := a + b
  { cf := decide (2 ^ n ≤ a.toNat + b.toNat)
    pf := parityEven r
    af := decide (15 < a.toNat % 16 + b.toNat % 16)
    zf := decide (r = 0)
    sf := r.msb
    of := a.msb == b.msb && r.msb != a.msb }

/-- The flags of a bitwise OR with result `r`: CF and OF cleared, AF a free value (R112, R113). -/
def orFlags {n : Nat} (r : BitVec n) (af : Bool) : StatusFlags :=
  { cf := false, pf := parityEven r, af, zf := decide (r = 0), sf := r.msb, of := false }

/-- A free bit: the draw with number `k` (log 10). -/
def drawBit (k : Nat) : Bool := (Config.draw 1 k).getLsbD 0

/-- Six free flags, from draw `k` on, in the order OF, SF, ZF, AF, PF, CF (R142, R143, D16). -/
def drawFlags (k : Nat) : StatusFlags :=
  { of := drawBit k, sf := drawBit (k + 1), zf := drawBit (k + 2), af := drawBit (k + 3), pf := drawBit (k + 4),
    cf := drawBit (k + 5) }

/-- The six status flags left open, each a fresh draw (R142, R143, D16). -/
def State.undefineStatus (s : State) : State := (s.setStatus (drawFlags s.draws)).drawn 6

/-- `cond(tttn)` (the table of R85). -/
def Cond.holds (c : Cond) (f : StatusFlags) : Bool :=
  match c with
  | .o => f.of
  | .no => !f.of
  | .b => f.cf
  | .nb => !f.cf
  | .e => f.zf
  | .ne => !f.zf
  | .be => f.cf || f.zf
  | .nbe => !f.cf && !f.zf
  | .s => f.sf
  | .ns => !f.sf
  | .p => f.pf
  | .np => !f.pf
  | .l => f.sf != f.of
  | .nl => f.sf == f.of
  | .le => f.zf || f.sf != f.of
  | .nle => !f.zf && f.sf == f.of

end Sys2Proof.Machine
end

