-- ==== Sys2Proof/Machine/Operands.lean ====
section
/-! DEFINITION. The operands: effective address and segment of a memory operand (spec/30_encoding.md R88 to R92), reading
and writing the operand of mod and r/m (R86), immediates (R82, R93), the lock check (R77) and the privilege check
(spec/60_exceptions.md R163). -/

namespace Sys2Proof.Machine

/-! ## Effective address -/

/-- The displacement of a 16-bit address, sign-extended where it is one byte (R88, R92). -/
def Disp16.value : Disp16 → BitVec 16
  | .none => 0
  | .d8 v => v.signExtend 16
  | .d16 v => v

/-- The displacement of a 32-bit address, sign-extended where it is one byte (R89, R90, R92). -/
def Disp32.value : Disp32 → BitVec 32
  | .none => 0
  | .d8 v => v.signExtend 32
  | .d32 v => v

/-- `x16[i]` (R12). -/
def State.x16 (s : State) (r : Reg) : BitVec 16 := (s.x r).setWidth 16

/-- The register sum of a 16-bit address (R88). -/
def State.base16 (s : State) : Base16 → BitVec 16
  | .bxsi => s.x16 .ebx + s.x16 .esi
  | .bxdi => s.x16 .ebx + s.x16 .edi
  | .bpsi => s.x16 .ebp + s.x16 .esi
  | .bpdi => s.x16 .ebp + s.x16 .edi
  | .si => s.x16 .esi
  | .di => s.x16 .edi
  | .bp => s.x16 .ebp
  | .bx => s.x16 .ebx

/-- The factor of a scale (R87). -/
def Scale.factor : Scale → Word
  | .x1 => 1 | .x2 => 2 | .x4 => 4 | .x8 => 8

/-- The scaled index of a sib byte; index code 100b means no index (R90). -/
def State.scaledIndex (s : State) (sc : Scale) (ix : Reg) : Word := if ix = .esp then 0 else s.x ix * Scale.factor sc

/-- `EA`: the offset of a memory operand; the sum wraps modulo 2^adsize (R88, R89, R90, D28). -/
def State.ea (s : State) : Mem → Word
  | .abs16 d => d.setWidth 32
  | .base16 b d => (s.base16 b + Disp16.value d).setWidth 32
  | .abs32 d => d
  | .base32 r d => s.x r + Disp32.value d
  | .sib sc ix b d => s.x b + s.scaledIndex sc ix + Disp32.value d
  | .sibNoBase sc ix d => s.scaledIndex sc ix + d

/-- The default segment: SS when the base is BP, EBP or ESP, else DS (R88 to R91). -/
def memDefaultSeg : Mem → SReg
  | .base16 .bpsi _ | .base16 .bpdi _ | .base16 .bp _ => .ss
  | .base32 .ebp _ | .base32 .esp _ => .ss
  | .sib _ _ .ebp _ | .sib _ _ .esp _ => .ss
  | _ => .ds

/-- `SEG`: the override if there is one, else the default (R76, R91). -/
def memSeg (p : Prefixes) (m : Mem) : SReg := p.seg.getD (memDefaultSeg m)

/-- `trunc_adsize(EA + k)` (R140). -/
def State.eaPlus (s : State) (m : Mem) (k : Nat) : Word :=
  match m.adsize with
  | .a16 => ((s.ea m + BitVec.ofNat 32 k).setWidth 16).setWidth 32
  | .a32 => s.ea m + BitVec.ofNat 32 k

/-- The linear address of a memory operand (R48, R49). -/
def State.linear (s : State) (p : Prefixes) (m : Mem) : Word := (s.seg (memSeg p m)).base + s.ea m

/-! ## The operand of mod and r/m -/

/-- Read a memory operand of size `sz`. -/
def State.readMem (s : State) (p : Prefixes) (m : Mem) (sz : Size) : Except Stop (BitVec sz.bits) :=
  s.segRead (memSeg p m) (s.ea m) sz.bytes

/-- Write a memory operand of size `sz`. -/
def State.writeMem (s : State) (p : Prefixes) (m : Mem) (sz : Size) (v : BitVec sz.bits) : Except Stop State :=
  s.segWrite (memSeg p m) (s.ea m) sz.bytes v

/-- Read the operand of mod and r/m (R86). -/
def State.readRM (s : State) (p : Prefixes) (x : RM) (sz : Size) : Except Stop (BitVec sz.bits) :=
  match x with
  | .reg r => .ok (s.reg r sz)
  | .mem m => s.readMem p m sz

/-- Write the operand of mod and r/m (R86). -/
def State.writeRM (s : State) (p : Prefixes) (x : RM) (sz : Size) (v : BitVec sz.bits) : Except Stop State :=
  match x with
  | .reg r => .ok (s.setReg r sz v)
  | .mem m => s.writeMem p m sz v

/-! ## Immediates -/

/-- The value of an immediate, zero-extended. -/
def Imm.toWord : Imm → Word
  | .i8 v => v.setWidth 32
  | .i16 v => v.setWidth 32
  | .i32 v => v

/-- The size of an operand with this immediate: 8 bits when w = 0, `opsize` when w = 1 (R80). -/
def immSize (o : Size) (v : Imm) : Size := if v.w then o else .b8

/-- The operand size of ADD with this immediate (R111). -/
def addSize (o : Size) : AddImm → Size
  | .same v => immSize o v
  | .sext _ => o

/-- The value of an immediate as an operand of size `sz` (R93). -/
def immValue (sz : Size) (v : Imm) : BitVec sz.bits := (Imm.toWord v).setWidth sz.bits

/-- The value of ADD's immediate as an operand of size `sz`; with s = 1 the byte is sign-extended (R82, R111). -/
def addImmValue (sz : Size) : AddImm → BitVec sz.bits
  | .same v => immValue sz v
  | .sext v => v.signExtend sz.bits

/-! ## Checks of an instruction -/

/-- The lock prefix on an instruction that does not take it raises InvalidOpcode (R77, D10, log 15). It is reached
only where the decoder refuses nothing (log 37). -/
def noLock (p : Prefixes) : Except Stop Unit := require (!p.lock) .invalidOpcode

/-- A privileged instruction runs at CPL 0 or in real mode; in VM-86 mode it always raises GeneralProtection(0) (R163). -/
def State.privileged (s : State) : Except Stop Unit :=
  require (!s.pe || (decide (s.cpl = 0) && !s.vm)) (.gp 0)

end Sys2Proof.Machine
end

