-- ==== Sys2Proof/Machine/Control.lean ====
section
/-! DEFINITION. Control transfer and condition instructions: JMP, Jcc, SETcc, NOP (spec/42_control_transfer.md). -/

namespace Sys2Proof.Machine

/-- JMP rel8 (R130). -/
def execJmpRel8 (p : Prefixes) (rel : BitVec 8) (s : State) : Host.Outcome State Fault Refusal :=
  settle s do
    noLock p
    s.jump (Instr.jmpRel8 p rel).length (s.opsize p) rel

/-- A conditional relative jump of `len` bytes: the target is computed and checked only when it is taken (R131). -/
def State.jumpIf {n : Nat} (s : State) (c : Cond) (len : Nat) (o : Size) (rel : BitVec n) : Except Stop State :=
  if Cond.holds c s.status then s.jump len o rel else s.advance len

/-- Jcc rel16/rel32 (R131). -/
def execJccRel1632 (p : Prefixes) (c : Cond) (rel : Rel) (s : State) : Host.Outcome State Fault Refusal :=
  let len := (Instr.jccRel1632 p c rel).length
  settle s do
    noLock p
    match rel with
    | .r16 v => s.jumpIf c len (s.opsize p) v
    | .r32 v => s.jumpIf c len (s.opsize p) v

/-- Jcc rel8 (R132). -/
def execJccRel8 (p : Prefixes) (c : Cond) (rel : BitVec 8) (s : State) : Host.Outcome State Fault Refusal :=
  settle s do
    noLock p
    s.jumpIf c (Instr.jccRel8 p c rel).length (s.opsize p) rel

/-- SETcc r/m8 (R133). -/
def execSetcc (p : Prefixes) (c : Cond) (dst : RM) (s : State) : Host.Outcome State Fault Refusal :=
  settle s do
    noLock p
    let t ← s.writeRM p dst .b8 (if Cond.holds c s.status then 1 else 0)
    t.advance (Instr.setcc p c dst).length

/-- NOP (R134). -/
def execNop (p : Prefixes) (s : State) : Host.Outcome State Fault Refusal :=
  settle s do
    noLock p
    s.advance (Instr.nop p).length

end Sys2Proof.Machine
end

