-- ==== Sys2Proof/Machine/DataTransfer.lean ====
section
/-! DEFINITION. Data transfer instructions: MOV reg, imm; MOV Sreg, r/m16; PUSH FS (spec/41_data_transfer.md). -/

namespace Sys2Proof.Machine

/-- MOV reg, imm (R120). -/
def execMovRegImm (p : Prefixes) (dst : Reg) (src : Imm) (s : State) : Host.Outcome State Fault Refusal :=
  let sz := immSize (s.opsize p) src
  settle s do
    noLock p
    (s.setReg dst sz (immValue sz src)).advance (Instr.movRegImm p dst src).length

/-- MOV Sreg, r/m16 (R121): sreg3 codes 001b (CS), 110b and 111b raise InvalidOpcode; the source is 16 bits whatever the
operand size. -/
def execMovSregRm16 (p : Prefixes) (sreg3 : BitVec 3) (src : RM) (s : State) : Host.Outcome State Fault Refusal :=
  settle s do
    noLock p
    match SReg.ofCode sreg3 with
    | none => .error .invalidOpcode
    | some k =>
      require (decide (k ≠ .cs)) .invalidOpcode
      let v ← s.readRM p src .b16
      let t ← s.loadSeg k v
      t.advance (Instr.movSregRm16 p sreg3 src).length

/-- The push of FS (R122): with a 32-bit operand size the upper half of the doubleword is a free value (D22). -/
def State.pushFs (s : State) (o : Size) : Except Stop State :=
  match o with
  | .b32 => (s.drawn 1).push 4 (s.draw 16 ++ s.segs.fs.sel : BitVec 32)
  | _ => s.push 2 s.segs.fs.sel

/-- PUSH FS (R122). -/
def execPushFs (p : Prefixes) (s : State) : Host.Outcome State Fault Refusal :=
  settle s do
    noLock p
    let t ← s.pushFs (s.opsize p)
    t.advance (Instr.pushFs p).length

end Sys2Proof.Machine
end

