-- ==== Sys2Proof/Machine/FlagArith.lean ====
section
/-! DEFINITION. Flag and arithmetic instructions: CMC, ADD, OR (spec/40_flag_and_arithmetic.md). -/

namespace Sys2Proof.Machine

/-- CMC (R110). -/
def execCmc (p : Prefixes) (s : State) : Host.Outcome State Fault Refusal :=
  settle s do
    noLock p
    (s.setStatus { s.status with cf := !s.status.cf }).advance (Instr.cmc p).length

/-- ADD r/m, imm (R111). With a memory destination the lock prefix is allowed and LOCK# is driven (R77). The access is
checked for a write before the read. -/
def execAdd (p : Prefixes) (dst : RM) (src : AddImm) (s : State) : Host.Outcome State Fault Refusal :=
  let sz := addSize (s.opsize p) src
  let len := (Instr.add p dst src).length
  let b := addImmValue sz src
  settle s <|
    match dst with
    | .reg r => do
      noLock p
      let a := s.reg r sz
      ((s.setStatus (addFlags a b)).setReg r sz (a + b)).advance len
    | .mem m => do
      s.checkAccess (memSeg p m) (s.ea m) sz.bytes true
      let a ← s.memRead (s.linear p m) sz.bytes
      let t ← (s.setStatus (addFlags a b)).writeMem p m sz (a + b)
      t.advance len p.lock

/-- OR AL/AX/EAX, imm (R112). -/
def execOr (p : Prefixes) (src : Imm) (s : State) : Host.Outcome State Fault Refusal :=
  let sz := immSize (s.opsize p) src
  let r := s.reg .eax sz ||| immValue sz src
  settle s do
    noLock p
    (((s.setStatus (orFlags r (drawBit s.draws))).drawn 1).setReg .eax sz r).advance (Instr.or p src).length

end Sys2Proof.Machine
end

