-- ==== Sys2Proof/Machine/System.lean ====
section
/-! DEFINITION. System instructions: LGDT, LIDT, MOV to and from CR0 (spec/43_system.md). -/

namespace Sys2Proof.Machine

/-- The 6-byte operand of LGDT and LIDT: a limit of 2 bytes, then a base of 4 bytes at `trunc_adsize(EA + 2)`, of which
24 bits are kept with a 16-bit operand size (R140, D20). -/
def State.readTable (s : State) (p : Prefixes) (m : Mem) : Except Stop TableReg := do
  let limit ← s.segRead (memSeg p m) (s.ea m) 2
  let base ← s.segRead (memSeg p m) (s.eaPlus m 2) 4
  return { limit, base := match s.opsize p with
    | .b32 => base
    | _ => base &&& 0x00FFFFFF }

/-- The checks and the operand of LGDT and LIDT (R140, R141). -/
def State.loadTable (s : State) (p : Prefixes) (src : RM) : Except Stop TableReg := do
  noLock p
  match src with
  | .reg _ => .error .invalidOpcode
  | .mem m =>
    s.privileged
    s.readTable p m

/-- LGDT m (R140). -/
def execLgdt (p : Prefixes) (src : RM) (s : State) : Host.Outcome State Fault Refusal :=
  settle s do
    let v ← s.loadTable p src
    (s.setGdtr v).advance (Instr.lgdt p src).length

/-- LIDT m (R141). -/
def execLidt (p : Prefixes) (src : RM) (s : State) : Host.Outcome State Fault Refusal :=
  settle s do
    let v ← s.loadTable p src
    (s.setIdtr v).advance (Instr.lidt p src).length

/-- The checks of MOV to and from a control register: lock, privilege, and CR0 the only register the spec admits
(R142, R143). -/
def State.checkCr (s : State) (p : Prefixes) (cr : BitVec 3) : Except Stop Unit := do
  noLock p
  s.privileged
  require (decide (cr = 0)) (.refuse (.controlRegister cr))

/-- MOV r32, CR0 (R142). -/
def execMovR32Cr0 (p : Prefixes) (cr : BitVec 3) (dst : Reg) (s : State) : Host.Outcome State Fault Refusal :=
  settle s do
    s.checkCr p cr
    ((s.setX dst s.cr0).undefineStatus).advance (Instr.movR32Cr0 p cr dst).length

/-- MOV CR0, r32 (R143). A change of PE changes nothing else at once (R144, D23). -/
def execMovCr0R32 (p : Prefixes) (cr : BitVec 3) (src : Reg) (s : State) : Host.Outcome State Fault Refusal :=
  settle s do
    s.checkCr p cr
    require (!(s.x src).getLsbD 31) (.refuse .paging)
    ((s.setCr0 (s.x src)).undefineStatus).advance (Instr.movCr0R32 p cr src).length

end Sys2Proof.Machine
end

