-- ==== Sys2Proof/Machine/Dispatch.lean ====
section
/-! DEFINITION. The meaning of every instruction: one arm per constructor, each one direct call. -/

namespace Sys2Proof.Machine

def exec (i : Instr) (s : State) : Host.Outcome State Fault Refusal :=
  match i with
  | .cmc p => Sys2Proof.Machine.execCmc p s
  | .add p dst src => Sys2Proof.Machine.execAdd p dst src s
  | .or p src => Sys2Proof.Machine.execOr p src s
  | .movRegImm p dst src => Sys2Proof.Machine.execMovRegImm p dst src s
  | .movSregRm16 p sreg3 src => Sys2Proof.Machine.execMovSregRm16 p sreg3 src s
  | .pushFs p => Sys2Proof.Machine.execPushFs p s
  | .jmpRel8 p rel => Sys2Proof.Machine.execJmpRel8 p rel s
  | .jccRel1632 p c rel => Sys2Proof.Machine.execJccRel1632 p c rel s
  | .jccRel8 p c rel => Sys2Proof.Machine.execJccRel8 p c rel s
  | .setcc p c dst => Sys2Proof.Machine.execSetcc p c dst s
  | .nop p => Sys2Proof.Machine.execNop p s
  | .lgdt p src => Sys2Proof.Machine.execLgdt p src s
  | .lidt p src => Sys2Proof.Machine.execLidt p src s
  | .movR32Cr0 p cr dst => Sys2Proof.Machine.execMovR32Cr0 p cr dst s
  | .movCr0R32 p cr src => Sys2Proof.Machine.execMovCr0R32 p cr src s

end Sys2Proof.Machine
end

