-- ==== Sys2Proof/Machine/Fetch.lean ====
section
/-! DEFINITION. Before an instruction runs: whether the machine has a step at all (spec/60_exceptions.md R156, R164,
spec/70_reset_and_hazards.md R187, D17), and fetching and decoding the instruction at EIP (spec/30_encoding.md R95). -/

namespace Sys2Proof.Machine

/-- Whether a step begins (R156, R187), in a mode the model has rules for (R164, R57). The spec gives no order among these
stops; that a fault state comes first, then HALT_ADDR, then VM = 1, then PG = 1 is a DESIGN CHOICE (log 34). -/
def State.checkStep (s : State) : Except Stop Unit := do
  match s.exn with
  | some r => .error (.fault (.inFaultState r))
  | none => .ok ()
  require (decide (s.params.haltAddr ≠ some s.eip)) (.fault .runEnded)
  require (!s.vm) (.refuse .vm86)
  require (!s.pg) (.refuse .paging)

/-- The linear address of instruction byte `k` (R14, R41). -/
def State.fetchAddr (s : State) (k : Nat) : Word := s.segs.cs.base + s.eip + BitVec.ofNat 32 k

/-- Why instruction byte `k` cannot be fetched, if it cannot: beyond the code-segment limit (R95, D8) or outside MEM_MAP
(R47, D26). -/
def State.fetchStop (s : State) (k : Nat) : Option Stop :=
  if s.segs.cs.limit.toNat < s.eip.toNat + k then some (.gp 0)
  else if s.populated (s.fetchAddr k).toNat then none
  else some (.fault (.unpopulated (s.fetchAddr k).toNat))

/-- Up to `n` instruction bytes from byte `k` on, up to the first that cannot be fetched (R41, R95). -/
def State.fetchFrom (s : State) (k : Nat) : Nat → List Byte
  | 0 => []
  | n + 1 =>
    match s.fetchStop k with
    | some _ => []
    | none => s.mem.read (s.fetchAddr k).toNat :: s.fetchFrom (k + 1) n

/-- The instruction bytes at EIP that can be fetched, at most as many as the longest instruction has. -/
def State.window (s : State) : List Byte := s.fetchFrom 0 Config.maxLength

/-- The instruction at EIP (R95). Where it needs a byte that cannot be fetched, the reason that byte has; where it needs
more than 15, GeneralProtection(0) (D18). Where the bytes before that one are refused already, the refusal comes first
(DESIGN CHOICE, log 33). -/
def State.fetch (s : State) : Except Stop Instr :=
  match decode s.defaultSize s.window with
  | .ok i _ => .ok i
  | .reject r => .error (.refuse (.rejected r))
  | .short => .error (if s.window.length < Config.maxLength then (s.fetchStop s.window.length).getD (.gp 0) else .gp 0)

/-- The instruction a step runs. -/
def State.next (s : State) : Except Stop Instr := do
  s.checkStep
  s.fetch

end Sys2Proof.Machine
end

