-- ==== Sys2Proof/Machine/Step.lean ====
section
/-! DEFINITION. One step: the instruction at EIP is fetched, decoded and run; and the placing of an instruction where the
next step fetches it (log 9). -/

namespace Sys2Proof.Machine

/-- One step of the machine. -/
def step (s : State) : Host.Outcome State Fault Refusal :=
  match s.next with
  | .ok i => exec i s
  | .error (.exn e code) => .next (s.takeException e code)
  | .error (.fault f) => .fault f
  | .error (.refuse r) => .refused r

/-- The state with an instruction of `nbits` bits whose value is `w`, and zero bytes after it up to the longest
instruction, stored where the next step fetches (log 9). -/
def State.withFetchWord (s : State) (nbits w : Nat) : State :=
  s.setMem (s.mem.writeBytes (s.fetchAddr 0) (leBytes Config.maxLength (w % 2 ^ nbits)))

end Sys2Proof.Machine
end

