-- ==== Sys2Proof/Safety.lean ====
section
/-! DEFINITION. What counts as a legal state, and the words the claims use for what an instruction leaves unchanged. -/

namespace Sys2Proof.Machine

/-- A legal state: memory in canonical form; the reserved bits of EFLAGS read as R17 says; not VM-86 mode (D24) and paging
off (D17), the modes the rules are written for; CPL 0 in real mode (R162); at most 32 TLB entries (R28). -/
structure State.Legal (s : State) : Prop where
  mem : s.mem.wf = true
  flags : flagsReservedOk s.eflags = true
  vm : s.vm = false
  pg : s.pg = false
  cpl : s.pe = false → s.cpl = 0
  tlb : s.sys.tlb.length ≤ 32

/-- Exception `e` with error code `code` was taken in state `s`: nothing but the fault state changes (R150, R157). -/
def State.Raised (s : State) (e : Exception) (code : Option (BitVec 16)) : Host.Outcome State Fault Refusal :=
  .next { s with exn := some { exn := e, code := code, pc := s.eip } }

/-- Every byte of memory reads as before, except in the `n` bytes from linear address `a` on. -/
def memSameOutside (s t : State) (a : Word) (n : Nat) : Prop :=
  ∀ b : Nat, b ∉ accessAddrs a n → t.mem.read b = s.mem.read b

/-- Every byte of memory reads as before. -/
def memSame (s t : State) : Prop := ∀ b : Nat, t.mem.read b = s.mem.read b

/-- Every bit of a flags word but the six status flags is as before (R17). -/
def otherFlagsSame (w f : Word) : Prop :=
  ∀ k : Nat, k ≠ 0 → k ≠ 2 → k ≠ 4 → k ≠ 6 → k ≠ 7 → k ≠ 11 → f.getLsbD k = w.getLsbD k

/-- Every bit of EFLAGS but the six status flags is as before (R17). -/
def flagsSameOutsideStatus (s t : State) : Prop := otherFlagsSame s.eflags t.eflags

/-- SF, ZF and PF of a flags word `f` are those of the result `r` (R113). -/
def resultFlagsAre {n : Nat} (r : BitVec n) (f : Word) : Prop :=
  f.getLsbD 7 = r.msb ∧ f.getLsbD 6 = decide (r = 0) ∧
    f.getLsbD 2 = decide (Even ((List.range 8).countP fun k => r.getLsbD k))

/-- The six status flags of a flags word `f` are those of the sum of `a` and `b`, as R111 computes them. -/
def sumFlagsAre {n : Nat} (a b : BitVec n) (f : Word) : Prop :=
  f.getLsbD 0 = decide (2 ^ n ≤ a.toNat + b.toNat) ∧
    f.getLsbD 11 = decide (a.msb = b.msb ∧ (a + b).msb ≠ a.msb) ∧
    f.getLsbD 4 = decide (15 < a.toNat % 16 + b.toNat % 16) ∧ resultFlagsAre (a + b) f

/-- The system registers, the privilege level and the open parameters are as before. -/
def systemSame (s t : State) : Prop :=
  t.cr0 = s.cr0 ∧ t.gdtr = s.gdtr ∧ t.idtr = s.idtr ∧ t.cpl = s.cpl ∧ t.sys = s.sys ∧ t.params = s.params

/-- The physical bytes of an access are backed by MEM_MAP. -/
def State.backed (s : State) (a : Word) (n : Nat) : Prop := ∀ b ∈ accessAddrs a n, s.populated b = true

/-- The physical bytes of a store are backed by MEM_MAP and hold no program text. -/
def State.storable (s : State) (a : Word) (n : Nat) : Prop :=
  ∀ b ∈ accessAddrs a n, s.populated b = true ∧ s.isText b = false

/-- The instruction after `i` stands at an offset below 2^32, so that EIP does not wrap (R15, D8). -/
def State.room (s : State) (i : Instr) : Prop := s.eip.toNat + i.length < 2 ^ 32

/-- The rules' `next_pc` (R14). -/
def State.nextPc (s : State) (i : Instr) : Word := s.eip + BitVec.ofNat 32 i.length

/-- A data segment that grows down: S = 1, not code, TYPE bit 1 set (R51). -/
def SegAttr.growsDown (a : SegAttr) : Prop :=
  a.access.getLsbD 4 = true ∧ a.access.getLsbD 3 = false ∧ a.access.getLsbD 2 = true

/-- A data segment or a readable code segment (R51, R56). -/
def SegAttr.readable (a : SegAttr) : Prop :=
  a.access.getLsbD 4 = true ∧ (a.access.getLsbD 3 = false ∨ a.access.getLsbD 1 = true)

/-- A writable data segment (R51, R56). -/
def SegAttr.writable (a : SegAttr) : Prop :=
  a.access.getLsbD 4 = true ∧ a.access.getLsbD 3 = false ∧ a.access.getLsbD 1 = true

/-- An access of `n` bytes at offset `off` through segment register `k` passes its checks: no null selector marked the
register (R56, U21), the last byte lies within the limit, computed without wrap-around (R48, R52), and in protected mode
the segment does not grow down and its type allows the access (R56). Model's choices in it: in real mode too the limit is
the hidden part's, not FFFFh (log 12); the null mark counts in real mode too (log 16), and it, not
the visible selector, says that a register holds a null selector (log 38); the type is checked in protected
mode alone, with S = 1 (log 25); a segment that grows down is refused in protected mode (log 17). -/
structure State.reaches (s : State) (k : SReg) (off : Word) (n : Nat) (write : Bool) : Prop where
  valid : (s.seg k).valid = true
  up : s.pe = true → ¬ (s.seg k).attr.growsDown
  kind : s.pe = true → if write then (s.seg k).attr.writable else (s.seg k).attr.readable
  limit : off.toNat + n ≤ (s.seg k).limit.toNat + 1

/-- An access through `k` is refused: in protected mode, a segment that grows down (the model's choice, log 17). -/
def State.refusesDown (s : State) (k : SReg) : Prop :=
  s.pe = true ∧ (s.seg k).valid = true ∧ (s.seg k).attr.growsDown

/-- An access that fails its checks (`State.reaches`, with its logs 12, 16, 25, 38), through a register whose segment is not
one the model refuses (log 17). -/
def State.misses (s : State) (k : SReg) (off : Word) (n : Nat) (write : Bool) : Prop :=
  ¬ s.reaches k off n write ∧ ¬ s.refusesDown k

/-- The fault of a failed access: StackFault(0) through SS, GeneralProtection(0) through any other (R48, R151). Through an
SS that a null selector marked, where U21 names GeneralProtection(0), it is StackFault(0) as well: the model's choice
(log 16), which no load can bring about. -/
def State.accessRaised (s : State) (k : SReg) : Host.Outcome State Fault Refusal :=
  match k with
  | .ss => s.Raised .stackFault (some 0)
  | _ => s.Raised .generalProtection (some 0)

/-- `v` is the value of the `n` bytes at linear address `a`, all of them backed by MEM_MAP (R40, R47). -/
def State.holds (s : State) (a : Word) (n : Nat) (v : BitVec (8 * n)) : Prop :=
  s.backed a n ∧ v = BitVec.ofNat (8 * n) (s.mem.readLe a n)

/-- The 16-bit operand of mod and r/m is `v`: a register, or two bytes of memory that can be read (R86, R121). That they can
is `State.reaches`, with its model's choices: in real mode the hidden part's limit (log 12) and the null mark (logs 16,
38), in protected mode logs 16, 17, 25 and 38. -/
def State.sourceIs (s : State) (p : Prefixes) (x : RM) (v : BitVec 16) : Prop :=
  match x with
  | .reg r => v = (s.x r).setWidth 16
  | .mem m => s.reaches (memSeg p m) (s.ea m) 2 false ∧ s.holds (s.linear p m) 2 v

/-- The state in which a privileged instruction may run: real mode, or protected mode at CPL 0 (R163). -/
def State.mayRunPrivileged (s : State) : Prop := s.pe = false ∨ (s.vm = false ∧ s.cpl = 0)

/-- Nothing keeps the machine from beginning a step: no fault state (R156), not at HALT_ADDR (R187), not VM-86 mode
(R164), paging off (R57). -/
structure State.running (s : State) : Prop where
  exn : s.exn = none
  halt : s.params.haltAddr ≠ some s.eip
  vm : s.vm = false
  pg : s.pg = false

/-- The bytes `bs` stand at EIP and can be fetched: each within the code segment's limit and backed by MEM_MAP (R41, R95,
D8). -/
def State.codeIs (s : State) (bs : List Byte) : Prop :=
  ∀ k : Nat, ∀ b : Byte, bs[k]? = some b →
    s.eip.toNat + k ≤ s.segs.cs.limit.toNat ∧
      s.populated (s.segs.cs.base + s.eip + BitVec.ofNat 32 k).toNat = true ∧
      s.mem.read (s.segs.cs.base + s.eip + BitVec.ofNat 32 k).toNat = b

/-- The general registers an instruction run in state `s` writes: its destination, and ESP for a push (R12, R124). -/
def State.writtenBy (s : State) : Instr → List Reg
  | .add p (.reg r) src => [regHome r (addSize (s.opsize p) src)]
  | .or _ _ => [.eax]
  | .movRegImm p r src => [regHome r (immSize (s.opsize p) src)]
  | .pushFs _ => [.esp]
  | .setcc _ _ (.reg r) => [regHome r .b8]
  | .movR32Cr0 _ _ r => [r]
  | _ => []

/-- The bytes of memory an instruction run in state `s` may store to, as a linear address and a number of bytes: a memory
destination, the stack slot of a push, the access byte of the descriptor a segment load reads (R111, R123, R124, R133). -/
def State.storedBy (s : State) : Instr → List (Word × Nat)
  | .add p (.mem m) src => [(s.linear p m, (addSize (s.opsize p) src).bytes)]
  | .setcc p _ (.mem m) => [(s.linear p m, 1)]
  | .pushFs p =>
    let n := (s.opsize p).bytes
    [(s.segs.ss.base + (s.pushPtr s.stackSize n).setWidth 32, n)]
  | .movSregRm16 p _ src =>
    match s.pe, s.readRM p src .b16 with
    | true, .ok v => [(s.descAddr (selIndex v) + 5, 1)]
    | _, _ => []
  | _ => []

/-- The prefix bytes of R72, one list for each kind. -/
def prefixKinds : List (List Byte) :=
  [[0x66], [0x67], [0xF0], [0xF3, 0xF2], [0x26, 0x2E, 0x36, 0x3E, 0x64, 0x65]]

/-- The prefix bytes of R72. -/
def prefixBytes : List Byte := prefixKinds.flatten

/-- Bytes that are all prefixes, no two of them of one kind (R72, D9). -/
structure PrefixesOnce (pre : List Byte) : Prop where
  all : ∀ b ∈ pre, b ∈ prefixBytes
  once : ∀ kind ∈ prefixKinds, pre.countP (fun b => decide (b ∈ kind)) ≤ 1

end Sys2Proof.Machine
end

