-- ==== Sys2Proof/Certificates/Slice0/Obligations.lean ====
section
/-! DEFINITION. The statements for the provers, in the order of OBLIGATIONS.json. Each docstring names the rule of spec/ it
formalises, or the log entry where it is the model's choice. The words `reaches`, `misses` and `accessRaised`, in which
statements say that a memory operand passes or fails its checks, carry the model's choices of logs 12, 16, 17, 25 and 38; their
docstrings in Sys2Proof/Safety.lean say which. -/

open Sys2Proof Sys2Proof.Machine

/-! ## Encoding -/

/-- R70 to R95: no bit of an encoding is dropped. For every well-formed instruction, with every operand at every value, in
16- and in 32-bit code, decoding what the encoder writes gives the instruction back and leaves the bytes after it. -/
def Obligations.DecodeInvertsEncode : Prop :=
  ∀ (d : Bool) (i : Instr) (rest : List Byte), i.wfIn d = true → decode d (encode i ++ rest) = .ok i rest

/-- R95, D18: what is decoded is well-formed, has read exactly as many bytes as its length says, and these are at
most 15. -/
def Obligations.DecodedInstructionIsWellFormed : Prop :=
  ∀ (d : Bool) (bs : List Byte) (i : Instr) (rest : List Byte), decode d bs = .ok i rest →
    i.wfIn d = true ∧ (∃ pre, bs = pre ++ rest ∧ pre.length = i.length) ∧ i.length ≤ 15

/-- R72, D9: the prefixes of one instruction may stand in any order. -/
def Obligations.PrefixOrderHasNoMeaning : Prop :=
  ∀ (d : Bool) (pre pre' rest : List Byte), (∀ b ∈ pre, b ∈ prefixBytes) → pre.Perm pre' →
    decode d (pre ++ rest) = decode d (pre' ++ rest)

/-- R72, D9, U17: two prefixes of the same kind on one instruction are refused. That they are refused at the second one,
whatever bytes follow it and where none do, is the model's choice (log 33), and so is that no
exception of the instruction's own (a lock prefix it does not take, or any other) is raised instead (log 37). -/
def Obligations.DoubledPrefixRefused : Prop :=
  ∀ (d : Bool) (before between rest : List Byte) (kind : List Byte) (x y : Byte), kind ∈ prefixKinds → x ∈ kind →
    y ∈ kind → (∀ b ∈ before ++ between, b ∈ prefixBytes) →
    decode d (before ++ x :: between ++ y :: rest) = .reject .doubledMark

/-- R73, U16: a repeat prefix before any instruction of the model, whatever its other prefixes, is refused. That it is
where the instruction would raise an exception of its own (a lock prefix it does not take, an unused segment code, or any
other) is the model's choice (log 37). -/
def Obligations.RepeatPrefixRefused : Prop :=
  ∀ (d : Bool) (b : Byte) (bs : List Byte) (i : Instr) (rest : List Byte), b = 0xF3 ∨ b = 0xF2 →
    decode d bs = .ok i rest → decode d (b :: bs) = .reject .repeatMark

/-- R6, R95, R111 (U13, U14, U15): bytes of no row of the opcode table are refused by name, after any prefixes of which no
two are of one kind: a one-byte opcode, the second byte after 0Fh, opcode 82h, and the reg fields that select no row
beside 80h, 81h, 83h and 0F 01. Which name wins where a repeat prefix (U16) stands among the prefixes, and that it wins
before a byte more is read, is the model's choice (logs 24, 33). -/
def Obligations.BytesWithoutRowRefused : Prop :=
  ∀ (d : Bool) (pre : List Byte) (b : Byte) (rest : List Byte), PrefixesOnce pre →
    let orRepeat (r : Reject) : Reject := if 0xF3 ∈ pre ∨ 0xF2 ∈ pre then .repeatMark else r
    (b ∉ prefixBytes → b ≠ 0x0F → b &&& 0xFC ≠ 0x80 → b &&& 0xFE ≠ 0x0C → b &&& 0xF0 ≠ 0xB0 → b &&& 0xF0 ≠ 0x70 →
      b ∉ [0xF5, 0x8E, 0xEB, 0x90] → decode d (pre ++ b :: rest) = .reject .noRow) ∧
    (b &&& 0xF0 ≠ 0x80 → b &&& 0xF0 ≠ 0x90 → b ∉ [0xA0, 0x01, 0x20, 0x22] →
      decode d (pre ++ 0x0F :: b :: rest) = .reject .noRow) ∧
    decode d (pre ++ 0x82 :: rest) = .reject (orRepeat .opcode82) ∧
    (∀ (hi : BitVec 2) (reg lo : BitVec 3), b = 0x80 ∨ b = 0x81 ∨ b = 0x83 → reg ≠ 0 →
      decode d (pre ++ b :: packFields hi reg lo :: rest) = .reject (orRepeat .noRow)) ∧
    ∀ (hi : BitVec 2) (reg lo : BitVec 3), reg ≠ 2 → reg ≠ 3 →
      decode d (pre ++ 0x0F :: 0x01 :: packFields hi reg lo :: rest) = .reject (orRepeat .noRow)

/-- Words written out from the spec's encodings (spec/95_test_vectors.md Parts 1 and 2; R111, R112, R120 to R122, R130,
R131, R133, R141, R143), at least one of each family, decode to the instructions they stand for. -/
def Obligations.SpecWordsDecode : Prop :=
  decode true [0xF0, 0x64, 0x81, 0x44, 0xB3, 0x08, 0x00, 0x00, 0x03, 0x00] =
      .ok (.add { lock := true, seg := some .fs } (.mem (.sib .x4 .esi .ebx (.d8 8))) (.same (.i32 0x30000))) [] ∧
    decode false [0x0C, 0x01] = .ok (.or {} (.i8 1)) [] ∧
    decode false [0x66, 0xBC, 0xFF, 0xFF, 0xFF, 0xFF] =
      .ok (.movRegImm { opsize := true } .esp (.i32 0xFFFFFFFF)) [] ∧
    decode false [0x8E, 0xD8] = .ok (.movSregRm16 {} 3 (.reg .eax)) [] ∧
    decode false [0x0F, 0xA0] = .ok (.pushFs {}) [] ∧
    decode false [0xEB, 0x01, 0x90] = .ok (.jmpRel8 {} 1) [0x90] ∧
    decode false [0x0F, 0x85, 0x03, 0x00] = .ok (.jccRel1632 {} .ne (.r16 3)) [] ∧
    decode false [0x0F, 0x92, 0xC0] = .ok (.setcc {} .b (.reg .eax)) [] ∧
    decode false [0x67, 0x0F, 0x01, 0x1D, 0x18, 0x01, 0x00, 0x00] =
      .ok (.lidt { adsize := true } (.mem (.abs32 0x118))) [] ∧
    decode false [0x0F, 0x22, 0xC0] = .ok (.movCr0R32 {} 0 .eax) []

/-- R78, R25, R53: the operand size and the address size are 32 bits exactly when D and the presence of the prefix differ,
where D is the D bit (X) of the code segment; no instruction changes D (R144, D23); and what is decoded under D carries
immediates and displacements of those sizes. R78's D = 0 in real mode is where that bit is 0 there, as it is after reset:
that a return to real mode with the bit set leaves D at 1 is the model's choice between R78 and D23 (log 13). -/
def Obligations.SizesFollowDefaultAndPrefix : Prop :=
  (∀ (s : State) (p : Prefixes),
    let D : Bool := s.segs.cs.attr.x
    s.opsize p = (if (D ^^ p.opsize) = true then .b32 else .b16) ∧
      addressSize s.defaultSize p.adsize = (if (D ^^ p.adsize) = true then .a32 else .a16)) ∧
    (∀ (i : Instr) (s t : State), exec i s = .next t → t.defaultSize = s.defaultSize) ∧
    ∀ (D : Bool) (bs : List Byte) (i : Instr) (rest : List Byte), decode D bs = .ok i rest →
      i.wf (if (D ^^ i.prefixes.opsize) = true then .b32 else .b16)
        (if (D ^^ i.prefixes.adsize) = true then .a32 else .a16) = true

/-- R88, with R76 and R91: the 16-bit addressing table. For every mod and r/m, the bytes of the operand give the offset
the table gives, modulo 2^16, and the segment: the override, else the table's default. -/
def Obligations.EffectiveAddress16 : Prop :=
  ∀ (s : State) (p : Prefixes) (reg rm : BitVec 3) (d8 : BitVec 8) (d16 : BitVec 16) (rest : List Byte),
    let bx := (s.x .ebx).setWidth 16
    let bp := (s.x .ebp).setWidth 16
    let si := (s.x .esi).setWidth 16
    let di := (s.x .edi).setWidth 16
    let sum : BitVec 16 := match rm.toNat with
      | 0 => bx + si
      | 1 => bx + di
      | 2 => bp + si
      | 3 => bp + di
      | 4 => si
      | 5 => di
      | 6 => bp
      | _ => bx
    let seg : SReg := p.seg.getD (if rm = 2 ∨ rm = 3 ∨ rm = 6 then .ss else .ds)
    (rm ≠ 6 → ∃ m, takeRM .a16 anyReg (packFields 0 reg rm :: rest) = .ok (reg, .mem m) rest ∧
      s.ea m = sum.setWidth 32 ∧ memSeg p m = seg) ∧
    (∃ m, takeRM .a16 anyReg (packFields 0 reg 6 :: le16 d16 ++ rest) = .ok (reg, .mem m) rest ∧
      s.ea m = d16.setWidth 32 ∧ memSeg p m = p.seg.getD .ds) ∧
    (∃ m, takeRM .a16 anyReg (packFields 1 reg rm :: d8 :: rest) = .ok (reg, .mem m) rest ∧
      s.ea m = (sum + d8.signExtend 16).setWidth 32 ∧ memSeg p m = seg) ∧
    ∃ m, takeRM .a16 anyReg (packFields 2 reg rm :: le16 d16 ++ rest) = .ok (reg, .mem m) rest ∧
      s.ea m = (sum + d16).setWidth 32 ∧ memSeg p m = seg

/-- R89, with R76 and R91: the 32-bit addressing table without a sib byte. -/
def Obligations.EffectiveAddress32 : Prop :=
  ∀ (s : State) (p : Prefixes) (reg : BitVec 3) (r : Reg) (d8 : BitVec 8) (d32 : BitVec 32) (rest : List Byte),
    let seg : SReg := p.seg.getD (if r = .ebp then .ss else .ds)
    (r ≠ .esp → r ≠ .ebp → ∃ m, takeRM .a32 anyReg (packFields 0 reg r.code :: rest) = .ok (reg, .mem m) rest ∧
      s.ea m = s.x r ∧ memSeg p m = seg) ∧
    (∃ m, takeRM .a32 anyReg (packFields 0 reg 5 :: le32 d32 ++ rest) = .ok (reg, .mem m) rest ∧
      s.ea m = d32 ∧ memSeg p m = p.seg.getD .ds) ∧
    (r ≠ .esp → ∃ m, takeRM .a32 anyReg (packFields 1 reg r.code :: d8 :: rest) = .ok (reg, .mem m) rest ∧
      s.ea m = s.x r + d8.signExtend 32 ∧ memSeg p m = seg) ∧
    (r ≠ .esp → ∃ m, takeRM .a32 anyReg (packFields 2 reg r.code :: le32 d32 ++ rest) = .ok (reg, .mem m) rest ∧
      s.ea m = s.x r + d32 ∧ memSeg p m = seg)

/-- R90 and R87, with R76 and R91: the addressing table with a sib byte. The index code 100b stands for no index, and with
a scale other than x1 it is refused (U7); the base code 101b under mod 00b stands for no base and a disp32. That the
refusal comes at the sib byte, whatever bytes follow it and where none do, is the model's choice (log 33), and so is that
it comes before any exception of the instruction's own (log 37). -/
def Obligations.EffectiveAddressSib : Prop :=
  ∀ (s : State) (p : Prefixes) (reg : BitVec 3) (ss : BitVec 2) (index base : Reg) (d8 : BitVec 8) (d32 : BitVec 32)
    (rest : List Byte),
    let sib := packFields ss index.code base.code
    let idx : Word := if index = .esp then 0 else s.x index * 2 ^ ss.toNat
    let seg : SReg := p.seg.getD (if base = .esp ∨ base = .ebp then .ss else .ds)
    (index = .esp → ss ≠ 0 → ∀ mod : BitVec 2, mod ≠ 3 →
      takeRM .a32 anyReg (packFields mod reg 4 :: sib :: rest) = .reject .scaledNoIndex) ∧
    (¬ (index = .esp ∧ ss ≠ 0) →
      (base ≠ .ebp → ∃ m, takeRM .a32 anyReg (packFields 0 reg 4 :: sib :: rest) = .ok (reg, .mem m) rest ∧
        s.ea m = s.x base + idx ∧ memSeg p m = seg) ∧
      (base = .ebp → ∃ m, takeRM .a32 anyReg (packFields 0 reg 4 :: sib :: le32 d32 ++ rest) = .ok (reg, .mem m) rest ∧
        s.ea m = idx + d32 ∧ memSeg p m = p.seg.getD .ds) ∧
      (∃ m, takeRM .a32 anyReg (packFields 1 reg 4 :: sib :: d8 :: rest) = .ok (reg, .mem m) rest ∧
        s.ea m = s.x base + idx + d8.signExtend 32 ∧ memSeg p m = seg) ∧
      ∃ m, takeRM .a32 anyReg (packFields 2 reg 4 :: sib :: le32 d32 ++ rest) = .ok (reg, .mem m) rest ∧
        s.ea m = s.x base + idx + d32 ∧ memSeg p m = seg)

/-! ## Registers and memory -/

/-- R12: the sub-registers. A 16-bit write replaces bits 15:0 of the 32-bit register and keeps bits 31:16; AL, CL, DL, BL
are bits 7:0 and AH, CH, DH, BH bits 15:8 of EAX, ECX, EDX, EBX, and a write to one keeps every other bit; no other
register and no other state changes; and a read gives the same bits. -/
def Obligations.SubRegistersAlias : Prop :=
  ∀ (s : State) (r q : Reg) (v8 : BitVec 8) (v16 : BitVec 16) (v32 : BitVec 32),
    (s.reg r .b32 = s.x r ∧ (s.setReg r .b32 v32).x r = v32 ∧ (q ≠ r → (s.setReg r .b32 v32).x q = s.x q)) ∧
    (s.reg r .b16 = (s.x r).extractLsb' 0 16 ∧ (s.setReg r .b16 v16).x r = (s.x r).extractLsb' 16 16 ++ v16 ∧
      (q ≠ r → (s.setReg r .b16 v16).x q = s.x q)) ∧
    (r ∈ [Reg.eax, .ecx, .edx, .ebx] →
      s.reg r .b8 = (s.x r).extractLsb' 0 8 ∧ (s.setReg r .b8 v8).x r = (s.x r).extractLsb' 8 24 ++ v8 ∧
        (q ≠ r → (s.setReg r .b8 v8).x q = s.x q)) ∧
    (∀ c : Reg, (c, r) ∈ [(Reg.esp, Reg.eax), (.ebp, .ecx), (.esi, .edx), (.edi, .ebx)] →
      s.reg c .b8 = (s.x r).extractLsb' 8 8 ∧
        (s.setReg c .b8 v8).x r = (s.x r).extractLsb' 16 16 ++ v8 ++ (s.x r).extractLsb' 0 8 ∧
        (q ≠ r → (s.setReg c .b8 v8).x q = s.x q)) ∧
    ∀ (z : Size) (v : BitVec z.bits), (s.setReg r z v) = { s with regs := (s.setReg r z v).regs }

/-- R42 (an inference of the spec), R40, R47: after a 32-bit write of `v` at `a`, reading four bytes gives `v`, reading
two gives its low half, the byte at `a + k` is bits 8k+7:8k, and every byte outside the four is as before. -/
def Obligations.MixedWidthAccess : Prop :=
  ∀ (s t : State) (a : Word) (v : BitVec 32), s.mem.wf = true → s.memWrite a 4 v = .ok t →
    t.memRead a 4 = .ok v ∧ t.memRead a 2 = .ok (v.extractLsb' 0 16 : BitVec 16) ∧
      (∀ k : Nat, k < 4 → t.memRead (a + BitVec.ofNat 32 k) 1 = .ok (v.extractLsb' (8 * k) 8 : BitVec 8)) ∧
      memSameOutside s t a 4

/-- The canonical form of memory is unique (the model's representation, log 4): two memories in canonical form that read
alike at every address are equal data. -/
def Obligations.EqualMemoriesAreEqualData : Prop :=
  ∀ m m' : Memory, m.wf = true → m'.wf = true → (∀ a : Nat, m.read a = m'.read a) → m = m'

/-- R47, R48, R49, R52, R56: a segmented access that passes its checks is the memory access at base plus offset; one that
fails raises StackFault(0) through SS, else GeneralProtection(0), and gives no state in which memory was touched. The
model's choices in what passes and what fails: in real mode too the limit is the hidden part's, where R48 says FFFFh
(log 12); the mark of a null selector counts in both modes and gives StackFault(0) through SS, where U21 names
GeneralProtection(0) (log 16); it, not the visible selector, says that a register holds a null selector (log 38); the type
is checked in protected mode alone, with S = 1 (log 25); a protected-mode access
through a segment that grows down is refused (log 17). -/
def Obligations.AccessesAreChecked : Prop :=
  ∀ (s : State) (k : SReg) (off : Word) (n : Nat) (v : BitVec (8 * n)),
    (s.reaches k off n false → s.segRead k off n = s.memRead ((s.seg k).base + off) n) ∧
    (s.reaches k off n true → s.segWrite k off n v = s.memWrite ((s.seg k).base + off) n v) ∧
    (s.misses k off n false →
      s.segRead k off n = .error (.exn (if k = .ss then .stackFault else .generalProtection) (some 0))) ∧
    (s.misses k off n true →
      s.segWrite k off n v = .error (.exn (if k = .ss then .stackFault else .generalProtection) (some 0))) ∧
    (s.refusesDown k →
      s.segRead k off n = .error (.refuse .expandDown) ∧ s.segWrite k off n v = .error (.refuse .expandDown))

/-! ## Flag and arithmetic instructions -/

/-- R110: CMC is the byte F5h; it inverts CF and changes no other flag, register or byte of memory, with any of the other
prefixes; with a lock prefix it raises InvalidOpcode. -/
def Obligations.CmcInvertsCarry : Prop :=
  ∀ (p : Prefixes) (s : State),
    (∀ (d : Bool) (rest : List Byte), decode d (p.encode ++ 0xF5 :: rest) = .ok (.cmc p) rest) ∧
    (p.lock = true → exec (.cmc p) s = s.Raised .invalidOpcode none) ∧
    (p.lock = false → s.room (.cmc p) → ∃ b,
      exec (.cmc p) s = .next { s with eip := s.nextPc (.cmc p), eflags := s.eflags ^^^ 1, busLock := b })

/-- R111, the register form: the sum, modulo 2^sz, in the register named; the six flags of the sum; nothing else changes.
The operand is one byte for opcode 80h, of the operand size for 81h, and the sign-extended byte for 83h. -/
def Obligations.AddToRegister : Prop :=
  ∀ (p : Prefixes) (r : Reg) (src : AddImm) (s : State), p.lock = false → s.room (.add p (.reg r) src) →
    ∀ (z : Size) (v : BitVec z.bits),
      (match src with
        | .same (.i8 x) => z = .b8 ∧ v = x.setWidth z.bits
        | .same (.i16 x) => z = s.opsize p ∧ v = x.setWidth z.bits
        | .same (.i32 x) => z = s.opsize p ∧ v = x.setWidth z.bits
        | .sext x => z = s.opsize p ∧ v = x.signExtend z.bits) →
      ∃ f b, exec (.add p (.reg r) src) s =
          .next { s.setReg r z (s.reg r z + v) with
            eip := s.nextPc (.add p (.reg r) src), eflags := f, busLock := b } ∧
        sumFlagsAre (s.reg r z) v f ∧ otherFlagsSame s.eflags f

/-- R111, the memory form, locked or not (R77: the lock prefix changes nothing that is computed): the sum replaces the
operand at SEG:EA, every other byte of memory is as before, the six flags are those of the sum, and nothing else changes.
That LOCK# is recorded in `busLock` is the model's choice (log 23). When the operand can be written, in the word
`reaches`, holds the model's choices of logs 12 (hidden limit in real mode), 16 and 38 (null mark), 17 (a segment that
grows down) and 25 (type check). -/
def Obligations.AddToMemory : Prop :=
  ∀ (p : Prefixes) (m : Mem) (src : AddImm) (s : State), s.mem.wf = true → s.room (.add p (.mem m) src) →
    ∀ (z : Size) (v a : BitVec z.bits),
      (match src with
        | .same (.i8 x) => z = .b8 ∧ v = x.setWidth z.bits
        | .same (.i16 x) => z = s.opsize p ∧ v = x.setWidth z.bits
        | .same (.i32 x) => z = s.opsize p ∧ v = x.setWidth z.bits
        | .sext x => z = s.opsize p ∧ v = x.signExtend z.bits) →
      s.reaches (memSeg p m) (s.ea m) z.bytes true → s.storable (s.linear p m) z.bytes →
      s.holds (s.linear p m) z.bytes a →
      ∃ t, exec (.add p (.mem m) src) s = .next t ∧
        t = { s with
          mem := t.mem, eip := s.nextPc (.add p (.mem m) src), eflags := t.eflags, busLock := p.lock } ∧
        t.holds (s.linear p m) z.bytes (a + v) ∧ memSameOutside s t (s.linear p m) z.bytes ∧
        sumFlagsAre a v t.eflags ∧ otherFlagsSame s.eflags t.eflags

/-- R111, the exceptions: a lock prefix with a register destination raises InvalidOpcode; a memory destination that cannot
be written raises StackFault(0) through SS and GeneralProtection(0) through any other segment. When it cannot, and what
raises then, in the words `misses` and `accessRaised`, holds the model's choices of logs 12 (hidden limit in real mode),
16 and 38 (null mark, StackFault(0) for it through SS), 17 (a segment that grows down) and 25 (type check). -/
def Obligations.AddRaises : Prop :=
  ∀ (p : Prefixes) (src : AddImm) (s : State),
    (∀ r : Reg, p.lock = true → exec (.add p (.reg r) src) s = s.Raised .invalidOpcode none) ∧
    ∀ m : Mem, s.misses (memSeg p m) (s.ea m) (addSize (s.opsize p) src).bytes true →
      exec (.add p (.mem m) src) s = s.accessRaised (memSeg p m)

/-- R114: after an ADD that raises nothing, in a register or in memory, of 8, 16 or 32 bits, CF reports unsigned overflow
of the sum and OF signed overflow. -/
def Obligations.AddFlagsReportOverflow : Prop :=
  ∀ (p : Prefixes) (x : RM) (src : AddImm) (s t : State) (z : Size) (v a : BitVec z.bits),
    (match src with
      | .same (.i8 x) => z = .b8 ∧ v = x.setWidth z.bits
      | .same (.i16 x) => z = s.opsize p ∧ v = x.setWidth z.bits
      | .same (.i32 x) => z = s.opsize p ∧ v = x.setWidth z.bits
      | .sext x => z = s.opsize p ∧ v = x.signExtend z.bits) →
    (match x with
      | .reg r => a = s.reg r z
      | .mem m => s.holds (s.linear p m) z.bytes a) →
    exec (.add p x src) s = .next t → t.exn = none →
    (t.eflags.getLsbD 0 = true ↔ (a + v).toNat ≠ a.toNat + v.toNat) ∧
      (t.eflags.getLsbD 11 = true ↔ (a + v).toInt ≠ a.toInt + v.toInt)

/-- R112: OR of an immediate into AL, AX or EAX: the bytes 0Ch and 0Dh; CF and OF cleared, SF, ZF, PF from the result
(R113), AF any value, no other flag, register or byte of memory changed; with a lock prefix InvalidOpcode. -/
def Obligations.OrIntoAccumulator : Prop :=
  ∀ (p : Prefixes) (s : State),
    (∀ (d : Bool) (x : BitVec 8) (rest : List Byte),
      decode d (p.encode ++ 0x0C :: x :: rest) = .ok (.or p (.i8 x)) rest) ∧
    (∀ (d : Bool) (x : BitVec 16) (rest : List Byte), operandSize d p.opsize = .b16 →
      decode d (p.encode ++ 0x0D :: le16 x ++ rest) = .ok (.or p (.i16 x)) rest) ∧
    (∀ (d : Bool) (x : BitVec 32) (rest : List Byte), operandSize d p.opsize = .b32 →
      decode d (p.encode ++ 0x0D :: le32 x ++ rest) = .ok (.or p (.i32 x)) rest) ∧
    (∀ src : Imm, p.lock = true → exec (.or p src) s = s.Raised .invalidOpcode none) ∧
    ∀ (src : Imm) (z : Size) (v : BitVec z.bits), p.lock = false → s.room (.or p src) →
      (match src with
        | .i8 x => z = .b8 ∧ v = x.setWidth z.bits
        | .i16 x => z = s.opsize p ∧ v = x.setWidth z.bits
        | .i32 x => z = s.opsize p ∧ v = x.setWidth z.bits) →
      ∃ f d b, exec (.or p src) s =
          .next { s.setReg .eax z (s.reg .eax z ||| v) with
            eip := s.nextPc (.or p src), eflags := f, draws := d, busLock := b } ∧
        f.getLsbD 0 = false ∧ f.getLsbD 11 = false ∧ resultFlagsAre (s.reg .eax z ||| v) f ∧
        otherFlagsSame s.eflags f

/-! ## Data transfer instructions -/

/-- R120: MOV reg, imm: the opcode 1011 w reg and the immediate; the register of 8, 16 or 32 bits named is loaded, no flag
and nothing else changes; with a lock prefix InvalidOpcode. -/
def Obligations.MovImmediateLoadsRegister : Prop :=
  ∀ (p : Prefixes) (r : Reg) (s : State),
    (∀ (d : Bool) (x : BitVec 8) (rest : List Byte),
      decode d (p.encode ++ (0xB0 ||| r.code.setWidth 8) :: x :: rest) = .ok (.movRegImm p r (.i8 x)) rest) ∧
    (∀ (d : Bool) (x : BitVec 16) (rest : List Byte), operandSize d p.opsize = .b16 →
      decode d (p.encode ++ (0xB8 ||| r.code.setWidth 8) :: le16 x ++ rest) = .ok (.movRegImm p r (.i16 x)) rest) ∧
    (∀ (d : Bool) (x : BitVec 32) (rest : List Byte), operandSize d p.opsize = .b32 →
      decode d (p.encode ++ (0xB8 ||| r.code.setWidth 8) :: le32 x ++ rest) = .ok (.movRegImm p r (.i32 x)) rest) ∧
    (∀ src : Imm, p.lock = true → exec (.movRegImm p r src) s = s.Raised .invalidOpcode none) ∧
    ∀ (src : Imm) (z : Size) (v : BitVec z.bits), p.lock = false → s.room (.movRegImm p r src) →
      (match src with
        | .i8 x => z = .b8 ∧ v = x.setWidth z.bits
        | .i16 x => z = s.opsize p ∧ v = x.setWidth z.bits
        | .i32 x => z = s.opsize p ∧ v = x.setWidth z.bits) →
      ∃ b, exec (.movRegImm p r src) s =
        .next { s.setReg r z v with eip := s.nextPc (.movRegImm p r src), busLock := b }

/-- R121 and R123 in real mode: ES, SS, DS, FS, GS take any 16-bit value as selector and 16 times it as base; limit and
attributes keep their values (U22), and nothing else changes. When a source in memory can be read, in the word `sourceIs`,
holds the model's choices of logs 12 (the hidden part's limit, where R48 says FFFFh) and 16 and 38 (the null mark counts
in real mode). -/
def Obligations.SegmentLoadInRealMode : Prop :=
  ∀ (p : Prefixes) (k : SReg) (src : RM) (s : State) (v : BitVec 16), p.lock = false →
    s.room (.movSregRm16 p k.code src) → s.pe = false → k ≠ .cs → s.sourceIs p src v →
    ∃ g b, exec (.movSregRm16 p k.code src) s =
        .next { s with
          segs := s.segs.set k g, eip := s.nextPc (.movSregRm16 p k.code src), busLock := b } ∧
      g.sel = v ∧ g.base = v.setWidth 32 * 16 ∧ g.limit = (s.seg k).limit ∧ g.attr = (s.seg k).attr

/-- R121 and R123 in protected mode, where every check passes: the register holds the selector and the base, limit and
attributes of the descriptor `d`, its accessed bit set; the accessed bit is set in memory, every other byte of memory is
as before, and nothing else changes. When a source in memory can be read, in the word `sourceIs`, holds the model's
choices of logs 16, 17, 25 and 38. -/
def Obligations.SegmentLoadFromDescriptor : Prop :=
  ∀ (p : Prefixes) (k : SReg) (src : RM) (s : State) (v : BitVec 16) (d : BitVec 64),
    let at_ : Word := s.gdtr.base + BitVec.ofNat 32 (8 * (v.extractLsb' 3 13).toNat)
    let acc : BitVec 8 := d.extractLsb' 40 8
    let rpl : BitVec 2 := v.extractLsb' 0 2
    let dpl : BitVec 2 := acc.extractLsb' 5 2
    let lim20 : BitVec 20 := d.extractLsb' 48 4 ++ d.extractLsb' 0 16
    p.lock = false → s.room (.movSregRm16 p k.code src) → s.pe = true → s.mem.wf = true → k ≠ .cs →
    s.sourceIs p src v → v.extractLsb' 3 13 ≠ 0 → v.getLsbD 2 = false →
    8 * (v.extractLsb' 3 13).toNat + 7 ≤ s.gdtr.limit.toNat → s.holds at_ 8 d →
    acc.getLsbD 7 = true → acc.getLsbD 4 = true → (acc.getLsbD 3 = true ∨ acc.getLsbD 2 = false) →
    (if k = .ss then rpl = s.cpl ∧ acc.getLsbD 3 = false ∧ acc.getLsbD 1 = true ∧ dpl = s.cpl
      else (acc.getLsbD 3 = false ∨ acc.getLsbD 1 = true) ∧
        ((acc.getLsbD 3 = true ∧ acc.getLsbD 2 = true) ∨ (s.cpl ≤ dpl ∧ rpl ≤ dpl))) →
    (acc.getLsbD 0 = true ∨ s.storable (at_ + 5) 1) →
    ∃ t, exec (.movSregRm16 p k.code src) s = .next t ∧
      t = { s with
        segs := s.segs.set k
          { sel := v, base := d.extractLsb' 56 8 ++ d.extractLsb' 16 24,
            limit := if d.getLsbD 55 = true then lim20 ++ (0xFFF : BitVec 12) else lim20.setWidth 32,
            attr := { access := acc ||| 1, g := d.getLsbD 55, x := d.getLsbD 54, avl := d.getLsbD 52 },
            valid := true },
        mem := t.mem, eip := s.nextPc (.movSregRm16 p k.code src), busLock := t.busLock } ∧
      t.mem.read (at_ + 5).toNat = acc ||| 1 ∧ memSameOutside s t (at_ + 5) 1

/-- R121 and R123 for a null selector in protected mode: SS raises GeneralProtection(0); any other register takes the
selector, nothing else changes, and every access through it then raises GeneralProtection(0) (U21). When a source in
memory can be read, in the word `sourceIs`, holds the model's choices of logs 16, 17, 25 and 38. -/
def Obligations.NullSelectorLoad : Prop :=
  ∀ (p : Prefixes) (k : SReg) (src : RM) (s : State) (v : BitVec 16), p.lock = false → s.pe = true → k ≠ .cs →
    s.sourceIs p src v → v.extractLsb' 3 13 = 0 → v.getLsbD 2 = false →
    (k = .ss → exec (.movSregRm16 p k.code src) s = s.Raised .generalProtection (some 0)) ∧
    (k ≠ .ss → s.room (.movSregRm16 p k.code src) →
      ∃ g b t, exec (.movSregRm16 p k.code src) s = .next t ∧
        t = { s with
          segs := s.segs.set k g, eip := s.nextPc (.movSregRm16 p k.code src), busLock := b } ∧
        g.sel = v ∧ ∀ (off : Word) (n : Nat) (w : BitVec (8 * n)),
          t.segRead k off n = .error (.exn .generalProtection (some 0)) ∧
            t.segWrite k off n w = .error (.exn .generalProtection (some 0)))

/-- R121 and R123, the faults of a segment load, in the order of the rules. In either mode, a source in memory that cannot
be read raises the fault of that read. In protected mode, each with the selector with its RPL cleared as error code
(R152): a selector outside the table; then for SS a descriptor that is not a writable data segment at the current level,
or not present (StackFault); for any other register a system descriptor or unreadable code, a privilege level that does
not allow it, or not present (SegmentNotPresent). Nothing is written. When the source cannot be read, and what raises
then, in the words `misses` and `accessRaised` (and `sourceIs`, when it can), holds the model's choices of logs 12 (hidden
limit in real mode), 16 and 38 (null mark in both modes, StackFault(0) for it through SS where U21 names
GeneralProtection), 17 (a segment that grows down) and 25 (type check). -/
def Obligations.SegmentLoadRaises : Prop :=
  ∀ (p : Prefixes) (k : SReg) (src : RM) (s : State), p.lock = false → k ≠ .cs →
    let run := exec (.movSregRm16 p k.code src) s
    (∀ m : Mem, src = .mem m → s.misses (memSeg p m) (s.ea m) 2 false → run = s.accessRaised (memSeg p m)) ∧
    ∀ v : BitVec 16, s.pe = true → s.sourceIs p src v → ¬ (v.extractLsb' 3 13 = 0) → v.getLsbD 2 = false →
    let e : Option (BitVec 16) := some (v &&& 0xFFFC)
    let idx := (v.extractLsb' 3 13).toNat
    (s.gdtr.limit.toNat < 8 * idx + 7 → run = s.Raised .generalProtection e) ∧
    ∀ d : BitVec 64,
      let acc : BitVec 8 := d.extractLsb' 40 8
      let rpl : BitVec 2 := v.extractLsb' 0 2
      let dpl : BitVec 2 := acc.extractLsb' 5 2
      8 * idx + 7 ≤ s.gdtr.limit.toNat → s.holds (s.gdtr.base + BitVec.ofNat 32 (8 * idx)) 8 d →
      (k = .ss →
        let ok : Prop := rpl = s.cpl ∧ acc.getLsbD 4 = true ∧ acc.getLsbD 3 = false ∧ acc.getLsbD 1 = true ∧ dpl = s.cpl
        (¬ ok → run = s.Raised .generalProtection e) ∧
        (ok → acc.getLsbD 7 = false → run = s.Raised .stackFault e)) ∧
      (k ≠ .ss →
        let ok : Prop := acc.getLsbD 4 = true ∧ (acc.getLsbD 3 = false ∨ acc.getLsbD 1 = true)
        let level : Prop := (acc.getLsbD 3 = true ∧ acc.getLsbD 2 = true) ∨ (s.cpl ≤ dpl ∧ rpl ≤ dpl)
        (¬ ok → run = s.Raised .generalProtection e) ∧
        (ok → ¬ level → run = s.Raised .generalProtection e) ∧
        (ok → level → acc.getLsbD 7 = false → run = s.Raised .segmentNotPresent e))

/-- R123, D19 (U19, U20): a protected-mode load of a selector that names the LDT is refused, and so is one of an
expand-down data segment that passes every check before. When a source in memory can be read, in the word `sourceIs`,
holds the model's choices of logs 16, 17, 25 and 38. -/
def Obligations.SegmentLoadRefuses : Prop :=
  ∀ (p : Prefixes) (k : SReg) (src : RM) (s : State) (v : BitVec 16), p.lock = false → s.pe = true → k ≠ .cs →
    s.sourceIs p src v →
    let run := exec (.movSregRm16 p k.code src) s
    (v.getLsbD 2 = true → run = .refused .ldtSelector) ∧
    ∀ d : BitVec 64,
      let acc : BitVec 8 := d.extractLsb' 40 8
      let rpl : BitVec 2 := v.extractLsb' 0 2
      let dpl : BitVec 2 := acc.extractLsb' 5 2
      v.extractLsb' 3 13 ≠ 0 → v.getLsbD 2 = false → 8 * (v.extractLsb' 3 13).toNat + 7 ≤ s.gdtr.limit.toNat →
      s.holds (s.gdtr.base + BitVec.ofNat 32 (8 * (v.extractLsb' 3 13).toNat)) 8 d →
      acc.getLsbD 7 = true → acc.getLsbD 4 = true → acc.getLsbD 3 = false → acc.getLsbD 2 = true →
      (if k = .ss then rpl = s.cpl ∧ acc.getLsbD 1 = true ∧ dpl = s.cpl else s.cpl ≤ dpl ∧ rpl ≤ dpl) →
      run = .refused .expandDown

/-- R121, R84 (U1): MOV to CS and to the unused sreg3 codes 110b and 111b raises InvalidOpcode, whatever the source. -/
def Obligations.UnusedSegmentCodeRaises : Prop :=
  ∀ (p : Prefixes) (code : BitVec 3) (src : RM) (s : State), code = 1 ∨ code = 6 ∨ code = 7 →
    exec (.movSregRm16 p code src) s = s.Raised .invalidOpcode none

/-- R122, R124: PUSH FS is the bytes 0F A0; it stores FS below the stack pointer, SP or ESP, in 2 bytes, or with a 32-bit
operand size in 4 of which the upper two are any value, and moves the stack pointer, which wraps modulo its size; bits
31:16 of ESP stay where it is SP; every other byte of memory and all else is as before. Where the slot cannot be written
it raises StackFault(0); with a lock prefix InvalidOpcode. The push itself is the same of any value of 2 or of 4 bytes.
When the slot can be written, in the words `reaches` and `misses`, holds the model's choices: the limit is the hidden
part's in real mode too (log 12), a null mark counts and gives StackFault(0) (logs 16, 38), the type is checked in
protected mode alone (log 25), and a segment that grows down is refused there (log 17). That the lock prefix is checked
before the rest is the model's choice (log 15). -/
def Obligations.PushFsStoresBelowStackPointer : Prop :=
  ∀ (p : Prefixes) (s : State),
    let n : Nat := if s.opsize p = .b32 then 4 else 2
    let big : Bool := s.pe && s.segs.ss.attr.x
    let new : Word :=
      if big = true then s.x .esp - BitVec.ofNat 32 n else ((s.x .esp).setWidth 16 - BitVec.ofNat 16 n).setWidth 32
    let esp : Word := if big = true then new else (s.x .esp).extractLsb' 16 16 ++ new.setWidth 16
    let slot : Word := s.segs.ss.base + new
    (∀ (d : Bool) (rest : List Byte), decode d (p.encode ++ 0x0F :: 0xA0 :: rest) = .ok (.pushFs p) rest) ∧
    (p.lock = true → exec (.pushFs p) s = s.Raised .invalidOpcode none) ∧
    (p.lock = false → s.misses .ss new n true → exec (.pushFs p) s = s.Raised .stackFault (some 0)) ∧
    (p.lock = false → s.mem.wf = true → s.room (.pushFs p) → s.reaches .ss new n true → s.storable slot n →
      ∃ t, exec (.pushFs p) s = .next t ∧
        t = { s with
          regs := s.regs.set .esp esp, mem := t.mem, eip := s.nextPc (.pushFs p), draws := t.draws,
          busLock := t.busLock } ∧
        t.holds slot 2 s.segs.fs.sel ∧ memSameOutside s t slot n) ∧
    ∀ v : BitVec (8 * n),
      (s.misses .ss new n true → s.push n v = .error (.exn .stackFault (some 0))) ∧
      (s.mem.wf = true → s.reaches .ss new n true → s.storable slot n →
        ∃ t, s.push n v = .ok t ∧ t = { s with regs := s.regs.set .esp esp, mem := t.mem } ∧ t.holds slot n v ∧
          memSameOutside s t slot n)

/-! ## Control transfer and condition instructions -/

/-- R130: JMP rel8 is the byte EBh and a displacement; the target is the next instruction's offset plus the sign-extended
displacement, truncated to the operand size; beyond the code-segment limit it raises GeneralProtection(0), else EIP takes
it and nothing else changes; with a lock prefix InvalidOpcode. The limit is the hidden part's (`sreg[1].limit`) in every
mode, where R130 also says 64 KB in real mode: the model's choice (log 12); that the lock prefix is checked before the
target is its choice too (log 15). -/
def Obligations.JmpIsRelative : Prop :=
  ∀ (p : Prefixes) (rel : BitVec 8) (s : State),
    let sum : Word := s.nextPc (.jmpRel8 p rel) + rel.signExtend 32
    let target : Word := if s.opsize p = .b32 then sum else (sum.setWidth 16).setWidth 32
    (∀ (d : Bool) (rest : List Byte), decode d (p.encode ++ 0xEB :: rel :: rest) = .ok (.jmpRel8 p rel) rest) ∧
    (p.lock = true → exec (.jmpRel8 p rel) s = s.Raised .invalidOpcode none) ∧
    (p.lock = false → s.segs.cs.limit.toNat < target.toNat →
      exec (.jmpRel8 p rel) s = s.Raised .generalProtection (some 0)) ∧
    (p.lock = false → target.toNat ≤ s.segs.cs.limit.toNat →
      ∃ b, exec (.jmpRel8 p rel) s = .next { s with eip := target, busLock := b })

/-- R131, R132: the conditional jumps: their bytes; where the condition holds, the target as R130's, checked against the
code-segment limit; where it does not, the next instruction, whatever the target; nothing else changes; with a lock prefix
InvalidOpcode. The limit is the hidden part's in every mode (log 12) and the lock prefix is checked before the target
(log 15): the model's choices. -/
def Obligations.ConditionalJumps : Prop :=
  ∀ (p : Prefixes) (c : Cond) (s : State),
    (∀ (d : Bool) (x : BitVec 16) (rest : List Byte), operandSize d p.opsize = .b16 →
      decode d (p.encode ++ 0x0F :: (0x80 ||| c.code.setWidth 8) :: le16 x ++ rest) =
        .ok (.jccRel1632 p c (.r16 x)) rest) ∧
    (∀ (d : Bool) (x : BitVec 32) (rest : List Byte), operandSize d p.opsize = .b32 →
      decode d (p.encode ++ 0x0F :: (0x80 ||| c.code.setWidth 8) :: le32 x ++ rest) =
        .ok (.jccRel1632 p c (.r32 x)) rest) ∧
    (∀ (d : Bool) (x : BitVec 8) (rest : List Byte),
      decode d (p.encode ++ (0x70 ||| c.code.setWidth 8) :: x :: rest) = .ok (.jccRel8 p c x) rest) ∧
    ∀ (i : Instr) (rel : Word),
      ((∃ x : BitVec 16, i = .jccRel1632 p c (.r16 x) ∧ rel = x.signExtend 32) ∨
        (∃ x : BitVec 32, i = .jccRel1632 p c (.r32 x) ∧ rel = x) ∨
        ∃ x : BitVec 8, i = .jccRel8 p c x ∧ rel = x.signExtend 32) →
      let target : Word :=
        if s.opsize p = .b32 then s.nextPc i + rel else ((s.nextPc i + rel).setWidth 16).setWidth 32
      (p.lock = true → exec i s = s.Raised .invalidOpcode none) ∧
      (p.lock = false → Cond.holds c s.status = true → s.segs.cs.limit.toNat < target.toNat →
        exec i s = s.Raised .generalProtection (some 0)) ∧
      (p.lock = false → Cond.holds c s.status = true → target.toNat ≤ s.segs.cs.limit.toNat →
        ∃ b, exec i s = .next { s with eip := target, busLock := b }) ∧
      (p.lock = false → Cond.holds c s.status = false → s.room i →
        ∃ b, exec i s = .next { s with eip := s.nextPc i, busLock := b })

/-- R85: the sixteen conditions, by their codes tttn, over the flags' places in EFLAGS (R17); bit 0 of the code negates;
the code is bits 3:0 of the last opcode byte. -/
def Obligations.ConditionTable : Prop :=
  ∀ s : State,
    let cond (tttn : BitVec 4) : Bool := Cond.holds (Cond.ofCode tttn) s.status
    let CF := s.eflags.getLsbD 0
    let PF := s.eflags.getLsbD 2
    let ZF := s.eflags.getLsbD 6
    let SF := s.eflags.getLsbD 7
    let OF := s.eflags.getLsbD 11
    (cond 0 = true ↔ OF = true) ∧ (cond 1 = true ↔ OF = false) ∧ (cond 2 = true ↔ CF = true) ∧
    (cond 3 = true ↔ CF = false) ∧ (cond 4 = true ↔ ZF = true) ∧ (cond 5 = true ↔ ZF = false) ∧
    (cond 6 = true ↔ CF = true ∨ ZF = true) ∧ (cond 7 = true ↔ CF = false ∧ ZF = false) ∧
    (cond 8 = true ↔ SF = true) ∧ (cond 9 = true ↔ SF = false) ∧ (cond 10 = true ↔ PF = true) ∧
    (cond 11 = true ↔ PF = false) ∧ (cond 12 = true ↔ SF ≠ OF) ∧ (cond 13 = true ↔ SF = OF) ∧
    (cond 14 = true ↔ ZF = true ∨ SF ≠ OF) ∧ (cond 15 = true ↔ ZF = false ∧ SF = OF) ∧
    (∀ c : Cond, Cond.ofCode c.code = c ∧ cond (c.code ^^^ 1) = !cond c.code) ∧
    ∀ tttn : BitVec 4, Opcode.ofByte (0x70 ||| tttn.setWidth 8) = some (.jccRel8 (Cond.ofCode tttn)) ∧
      Opcode.ofByte0F (0x80 ||| tttn.setWidth 8) = some (.jccRel1632 (Cond.ofCode tttn)) ∧
      Opcode.ofByte0F (0x90 ||| tttn.setWidth 8) = some (.setcc (Cond.ofCode tttn))

/-- R133: SETcc: its bytes, the reg field ignored; one byte, 1 where the condition holds and 0 where it does not, in the
8-bit register or the byte of memory named; no flag, no other register or byte changes; a byte that cannot be written
raises; with a lock prefix InvalidOpcode. When the byte can be written, and what raises where it cannot, in the words
`reaches`, `misses` and `accessRaised`, holds the model's choices of logs 12 (hidden limit in real mode), 16 and 38 (null
mark), 17 (a segment that grows down) and 25 (type check). That the lock prefix is checked before the rest is the model's
choice (log 15). -/
def Obligations.SetccStoresCondition : Prop :=
  ∀ (p : Prefixes) (c : Cond) (s : State),
    let v : BitVec 8 := if Cond.holds c s.status = true then 1 else 0
    (∀ (d : Bool) (reg : BitVec 3) (x : RM) (rest : List Byte), x.wf (addressSize d p.adsize) = true →
      decode d (p.encode ++ 0x0F :: (0x90 ||| c.code.setWidth 8) :: x.encode reg ++ rest) = .ok (.setcc p c x) rest) ∧
    (∀ x : RM, p.lock = true → exec (.setcc p c x) s = s.Raised .invalidOpcode none) ∧
    (∀ r : Reg, p.lock = false → s.room (.setcc p c (.reg r)) → ∃ b,
      exec (.setcc p c (.reg r)) s =
        .next { s.setReg r .b8 v with eip := s.nextPc (.setcc p c (.reg r)), busLock := b }) ∧
    (∀ m : Mem, p.lock = false → s.misses (memSeg p m) (s.ea m) 1 true →
      exec (.setcc p c (.mem m)) s = s.accessRaised (memSeg p m)) ∧
    ∀ m : Mem, p.lock = false → s.mem.wf = true → s.room (.setcc p c (.mem m)) →
      s.reaches (memSeg p m) (s.ea m) 1 true → s.storable (s.linear p m) 1 →
      ∃ t, exec (.setcc p c (.mem m)) s = .next t ∧
        t = { s with mem := t.mem, eip := s.nextPc (.setcc p c (.mem m)), busLock := t.busLock } ∧
        t.mem.read (s.linear p m).toNat = v ∧ memSameOutside s t (s.linear p m) 1

/-- R134: NOP is the byte 90h and only moves to the next instruction; with a lock prefix InvalidOpcode. -/
def Obligations.NopOnlyAdvances : Prop :=
  ∀ (p : Prefixes) (s : State),
    (∀ (d : Bool) (rest : List Byte), decode d (p.encode ++ 0x90 :: rest) = .ok (.nop p) rest) ∧
    (p.lock = true → exec (.nop p) s = s.Raised .invalidOpcode none) ∧
    (p.lock = false → s.room (.nop p) →
      ∃ b, exec (.nop p) s = .next { s with eip := s.nextPc (.nop p), busLock := b })

/-! ## System instructions -/

/-- R140, R141: LGDT and LIDT: their bytes; a register operand raises InvalidOpcode, and so does a lock prefix; outside
real mode and CPL 0 they raise GeneralProtection(0); the operand is a limit of 2 bytes at EA and a base of 4 bytes at
trunc_adsize(EA + 2), of which 24 bits are kept with a 16-bit operand size; a part that cannot be read raises; the table
register takes both and nothing else changes. When a part can be read, and what raises where it cannot, in the words
`reaches`, `misses` and `accessRaised`, holds the model's choices of logs 12 (hidden limit in real mode), 16 and 38 (null
mark), 17 (a segment that grows down) and 25 (type check). That the lock prefix is checked before the rest is the model's
choice (log 15). -/
def Obligations.TableRegisterLoads : Prop :=
  ∀ (p : Prefixes) (s : State),
    (∀ (d : Bool) (x : RM) (rest : List Byte), x.wf (addressSize d p.adsize) = true →
      decode d (p.encode ++ 0x0F :: 0x01 :: x.encode 2 ++ rest) = .ok (.lgdt p x) rest ∧
        decode d (p.encode ++ 0x0F :: 0x01 :: x.encode 3 ++ rest) = .ok (.lidt p x) rest) ∧
    (∀ x : RM, p.lock = true ∨ (∃ r, x = .reg r) →
      exec (.lgdt p x) s = s.Raised .invalidOpcode none ∧ exec (.lidt p x) s = s.Raised .invalidOpcode none) ∧
    ∀ m : Mem, p.lock = false →
      let seg := memSeg p m
      let ea2 : Word := match m.adsize with
        | .a16 => ((s.ea m + 2).setWidth 16).setWidth 32
        | .a32 => s.ea m + 2
      (¬ s.mayRunPrivileged →
        exec (.lgdt p (.mem m)) s = s.Raised .generalProtection (some 0) ∧
          exec (.lidt p (.mem m)) s = s.Raised .generalProtection (some 0)) ∧
      (s.mayRunPrivileged →
        (s.misses seg (s.ea m) 2 false →
          exec (.lgdt p (.mem m)) s = s.accessRaised seg ∧ exec (.lidt p (.mem m)) s = s.accessRaised seg) ∧
        (s.reaches seg (s.ea m) 2 false → s.backed (s.linear p m) 2 →
          (s.misses seg ea2 4 false →
            exec (.lgdt p (.mem m)) s = s.accessRaised seg ∧ exec (.lidt p (.mem m)) s = s.accessRaised seg) ∧
          ∀ (limit : BitVec 16) (base : BitVec 32), s.holds (s.linear p m) 2 limit → s.reaches seg ea2 4 false →
            s.holds ((s.seg seg).base + ea2) 4 base →
            let v : TableReg :=
              { limit, base := if s.opsize p = .b32 then base else base &&& 0x00FFFFFF }
            (s.room (.lgdt p (.mem m)) → ∃ b, exec (.lgdt p (.mem m)) s =
              .next { s with gdtr := v, eip := s.nextPc (.lgdt p (.mem m)), busLock := b }) ∧
            (s.room (.lidt p (.mem m)) → ∃ b, exec (.lidt p (.mem m)) s =
              .next { s with idtr := v, eip := s.nextPc (.lidt p (.mem m)), busLock := b })))

/-- R142: MOV r32, CR0: its bytes, the mod field ignored; outside real mode and CPL 0 GeneralProtection(0); any control
register but 0 is refused; the register named takes all 32 bits of CR0 whatever the operand size, the six status flags are
any value, nothing else changes; with a lock prefix InvalidOpcode. That the lock prefix is checked first, before the
privilege check and before another control register is refused, is the model's choice (log 15). -/
def Obligations.MovFromCr0 : Prop :=
  ∀ (p : Prefixes) (cr : BitVec 3) (r : Reg) (s : State),
    (∀ (d : Bool) (mod : BitVec 2) (rest : List Byte),
      decode d (p.encode ++ 0x0F :: 0x20 :: packFields mod cr r.code :: rest) = .ok (.movR32Cr0 p cr r) rest) ∧
    (p.lock = true → exec (.movR32Cr0 p cr r) s = s.Raised .invalidOpcode none) ∧
    (p.lock = false → ¬ s.mayRunPrivileged →
      exec (.movR32Cr0 p cr r) s = s.Raised .generalProtection (some 0)) ∧
    (p.lock = false → s.mayRunPrivileged → cr ≠ 0 →
      exec (.movR32Cr0 p cr r) s = .refused (.controlRegister cr)) ∧
    (p.lock = false → s.mayRunPrivileged → cr = 0 → s.room (.movR32Cr0 p cr r) →
      ∃ f d b, exec (.movR32Cr0 p cr r) s =
          .next { s with
            regs := s.regs.set r s.cr0, eip := s.nextPc (.movR32Cr0 p cr r), eflags := f, draws := d, busLock := b } ∧
        otherFlagsSame s.eflags f)

/-- R143: MOV CR0, r32: its bytes; outside real mode and CPL 0 GeneralProtection(0); any control register but 0 is
refused, and so is a value with bit 31 set (D17); CR0 takes all 32 bits of the register, the six status flags are any
value, nothing else changes; with a lock prefix InvalidOpcode. That the lock prefix is checked first, before the privilege
check and before another control register or a value with bit 31 is refused (log 15), and that the reserved bits 30:5 are
stored as written, where U8 allows a refusal too (log 32), are the model's choices. -/
def Obligations.MovToCr0 : Prop :=
  ∀ (p : Prefixes) (cr : BitVec 3) (r : Reg) (s : State),
    (∀ (d : Bool) (mod : BitVec 2) (rest : List Byte),
      decode d (p.encode ++ 0x0F :: 0x22 :: packFields mod cr r.code :: rest) = .ok (.movCr0R32 p cr r) rest) ∧
    (p.lock = true → exec (.movCr0R32 p cr r) s = s.Raised .invalidOpcode none) ∧
    (p.lock = false → ¬ s.mayRunPrivileged →
      exec (.movCr0R32 p cr r) s = s.Raised .generalProtection (some 0)) ∧
    (p.lock = false → s.mayRunPrivileged → cr ≠ 0 →
      exec (.movCr0R32 p cr r) s = .refused (.controlRegister cr)) ∧
    (p.lock = false → s.mayRunPrivileged → cr = 0 → (s.x r).getLsbD 31 = true →
      exec (.movCr0R32 p cr r) s = .refused .paging) ∧
    (p.lock = false → s.mayRunPrivileged → cr = 0 → (s.x r).getLsbD 31 = false → s.room (.movCr0R32 p cr r) →
      ∃ f d b, exec (.movCr0R32 p cr r) s =
          .next { s with
            cr0 := s.x r, eip := s.nextPc (.movCr0R32 p cr r), eflags := f, draws := d, busLock := b } ∧
        otherFlagsSame s.eflags f)

/-- R144 (in part an inference of the spec), D23: a write of CR0 that changes PE changes the mode and nothing else: every
segment register keeps its selector and hidden part, so the next fetch goes on from the same linear address; D stays as it
was in both directions (log 13); CPL is unchanged. -/
def Obligations.PeTransitionKeepsSegments : Prop :=
  ∀ (p : Prefixes) (r : Reg) (s t : State), s.exn = none → s.vm = false → exec (.movCr0R32 p 0 r) s = .next t →
    t.exn = none → t.pe ≠ s.pe →
    (s.mode = .real ↔ t.mode = .prot) ∧ (s.mode = .prot ↔ t.mode = .real) ∧ t.segs = s.segs ∧ t.cpl = s.cpl ∧
      t.gdtr = s.gdtr ∧ t.idtr = s.idtr ∧ t.mem = s.mem ∧ t.regs = s.regs ∧
      t.fetchAddr 0 = s.segs.cs.base + s.nextPc (.movCr0R32 p 0 r) ∧
      t.defaultSize = s.defaultSize

/-! ## Rules over every instruction -/

/-- R77, D10: the lock prefix is accepted by ADD with a memory destination alone; every other instruction and form that
carries it raises InvalidOpcode before any other check or refusal of its own (the order: log 15; the decoder's refusals
come before: log 37). -/
def Obligations.LockOnlyOnAddToMemory : Prop :=
  ∀ (i : Instr) (s : State), i.prefixes.lock = true → (∀ p m src, i ≠ .add p (.mem m) src) →
    exec i s = s.Raised .invalidOpcode none

/-- R163: LGDT, LIDT and MOV to and from CR0 raise GeneralProtection(0) in protected mode at a CPL other than 0 and in
VM-86 mode at any. -/
def Obligations.PrivilegedInstructionsRaise : Prop :=
  ∀ (p : Prefixes) (m : Mem) (cr : BitVec 3) (r : Reg) (s : State) (i : Instr), p.lock = false → s.pe = true →
    s.cpl ≠ 0 ∨ s.vm = true → i ∈ [Instr.lgdt p (.mem m), .lidt p (.mem m), .movR32Cr0 p cr r, .movCr0R32 p cr r] →
    exec i s = s.Raised .generalProtection (some 0)

/-- R163, R162, from every state: no step in protected mode at a CPL other than 0 changes CR0, GDTR, IDTR, the mode or
the CPL. -/
def Obligations.UserModeKeepsSystemState : Prop :=
  ∀ s t : State, step s = .next t → s.pe = true → s.cpl ≠ 0 →
    t.cr0 = s.cr0 ∧ t.gdtr = s.gdtr ∧ t.idtr = s.idtr ∧ t.mode = s.mode ∧ t.cpl = s.cpl

/-- R162, R24, R4: no instruction changes CPL, CS, the system registers that no rule writes, or the open parameters; only
LGDT changes GDTR, only LIDT changes IDTR, only MOV CR0, r32 changes CR0. -/
def Obligations.SystemStateFrame : Prop :=
  ∀ (i : Instr) (s t : State), exec i s = .next t →
    t.cpl = s.cpl ∧ t.segs.cs = s.segs.cs ∧ t.sys = s.sys ∧ t.params = s.params ∧
      ((∀ p x, i ≠ .lgdt p x) → t.gdtr = s.gdtr) ∧ ((∀ p x, i ≠ .lidt p x) → t.idtr = s.idtr) ∧
      ((∀ p cr r, i ≠ .movCr0R32 p cr r) → t.cr0 = s.cr0)

/-- R18, R20, R121: a segment register, visible or hidden part, changes only through a MOV to it. -/
def Obligations.SegmentRegisterFrame : Prop :=
  ∀ (i : Instr) (s t : State) (k : SReg), exec i s = .next t → t.seg k ≠ s.seg k →
    k ≠ .cs ∧ ∃ p src, i = .movSregRm16 p k.code src

/-- R110 to R143: every general register but the destination, and ESP for a push, is unchanged by every instruction and
form. -/
def Obligations.GeneralRegisterFrame : Prop :=
  ∀ (i : Instr) (s t : State) (q : Reg), exec i s = .next t → q ∉ s.writtenBy i → t.x q = s.x q

/-- R17, R110 to R143: only ADD, OR, CMC and MOV to and from CR0 write flags; CMC writes CF alone, the others the six
status flags alone; no instruction writes any other bit of EFLAGS. -/
def Obligations.FlagFrame : Prop :=
  ∀ (i : Instr) (s t : State), exec i s = .next t →
    otherFlagsSame s.eflags t.eflags ∧
      (∀ p, i = .cmc p → ∀ k : Nat, k ≠ 0 → t.eflags.getLsbD k = s.eflags.getLsbD k) ∧
      ((∀ p, i ≠ .cmc p) → (∀ p x v, i ≠ .add p x v) → (∀ p v, i ≠ .or p v) → (∀ p cr r, i ≠ .movR32Cr0 p cr r) →
        (∀ p cr r, i ≠ .movCr0R32 p cr r) → t.eflags = s.eflags)

/-- R110 to R143: every byte of memory is unchanged but the bytes the instruction stores to: the memory destination of ADD
and SETcc, the stack slot of PUSH FS, and the access byte of the descriptor that a segment load in protected mode reads
(R46); every other form stores nothing. -/
def Obligations.MemoryFrame : Prop :=
  ∀ (i : Instr) (s t : State) (b : Nat), s.mem.wf = true → exec i s = .next t →
    (∀ an ∈ s.storedBy i, b ∉ accessAddrs an.1 an.2) → t.mem.read b = s.mem.read b

/-- R15: an instruction that is not a jump and raises nothing moves EIP to the instruction after it, which stands below
2^32; there is no wrap (D8, log 14). -/
def Obligations.ProgramCounterAdvances : Prop :=
  ∀ (i : Instr) (s t : State), s.exn = none → exec i s = .next t → t.exn = none → (∀ p v, i ≠ .jmpRel8 p v) →
    (∀ p c v, i ≠ .jccRel1632 p c v) → (∀ p c v, i ≠ .jccRel8 p c v) → t.eip.toNat = s.eip.toNat + i.length

/-- R150, R152, R157: exceptions are precise. An instruction that raises one changes nothing but the fault state, which
records one of four exceptions, InvalidOpcode without an error code and the others with one, and the offset of the
instruction's first byte. That raising is a next state is the model's choice (log 8). -/
def Obligations.ExceptionsArePrecise : Prop :=
  ∀ (i : Instr) (s t : State), s.exn = none → exec i s = .next t → t.exn ≠ none →
    ∃ (e : Exception) (c : Option (BitVec 16)), exec i s = s.Raised e c ∧
      ((e = .invalidOpcode ∧ c = none) ∨
        ((e = .generalProtection ∨ e = .stackFault ∨ e = .segmentNotPresent) ∧ c ≠ none))

/-! ## The step -/

/-- R156, D5: in a fault state the machine has no further step, whatever stands at EIP. The name of the stop is the
model's (log 8). -/
def Obligations.FaultStateHasNoStep : Prop :=
  ∀ (s : State) (r : FaultRecord), s.exn = some r → step s = .fault (.inFaultState r)

/-- R14, R41, R95, R6: a step runs the decoded instruction. Where the bytes that stand at EIP and can be fetched decode to
`i`, the step is what `i` does in that state; nothing is added around it. Where the decoder refuses those bytes, the step
is that refusal, and no instruction runs; that it is, whether or not a later byte could be fetched (log 33) and whether or
not the instruction would raise an exception of its own (log 37), is the model's choice. -/
def Obligations.StepRunsDecodedInstruction : Prop :=
  ∀ (s : State) (bs : List Byte), s.running → bs.length ≤ 15 → s.codeIs bs →
    (∀ (i : Instr) (rest : List Byte), decode s.defaultSize bs = .ok i rest → step s = exec i s) ∧
    ∀ r : Reject, decode s.defaultSize bs = .reject r → step s = .refused (.rejected r)

/-- R95, D8, R47, D26: where an instruction needs a byte that cannot be fetched, the step stops before any check of the
instruction's own (R155): beyond the code-segment limit it raises GeneralProtection(0); within the limit but outside
MEM_MAP it has no step. That the first byte that cannot be fetched decides, and the name of that stop, are the model's
(logs 5, 26). -/
def Obligations.FetchBeyondLimitRaises : Prop :=
  ∀ (s : State) (bs : List Byte), s.running → bs.length < 15 → s.codeIs bs → decode s.defaultSize bs = .short →
    let a : Nat := (s.segs.cs.base + s.eip + BitVec.ofNat 32 bs.length).toNat
    (s.segs.cs.limit.toNat < s.eip.toNat + bs.length → step s = s.Raised .generalProtection (some 0)) ∧
    (s.eip.toNat + bs.length ≤ s.segs.cs.limit.toNat → s.populated a = false → step s = .fault (.unpopulated a))

/-- Where the run or the model stops before a fetch: at HALT_ADDR (R187), in VM-86 mode (R164, D24), with paging on (R57,
D17). The names of the stops are the model's (logs 7, 20, 21), and so is which one wins where two hold (log 34). -/
def Obligations.StepStopsBeforeFetch : Prop :=
  ∀ s : State, s.exn = none →
    (s.params.haltAddr = some s.eip → step s = .fault .runEnded) ∧
    (s.params.haltAddr ≠ some s.eip → s.vm = true → step s = .refused .vm86) ∧
    (s.params.haltAddr ≠ some s.eip → s.vm = false → s.pg = true → step s = .refused .paging)

/-- R47, D26 and R64, D13: a read or write of which a byte lies outside MEM_MAP has no step, and a store of which a byte
overlaps the program text is refused. The names of the stops are the model's (logs 5, 6), and so is that a store with one
byte outside MEM_MAP and another in the program text stops as the first (log 36). -/
def Obligations.MemoryAccessStops : Prop :=
  ∀ (s : State) (a : Word) (n : Nat) (v : BitVec (8 * n)),
    (¬ s.backed a n → (∃ b ∈ accessAddrs a n, s.memRead a n = .error (.fault (.unpopulated b))) ∧
      ∃ b ∈ accessAddrs a n, s.memWrite a n v = .error (.fault (.unpopulated b))) ∧
    (s.backed a n → (∃ b ∈ accessAddrs a n, s.isText b = true) →
      ∃ b ∈ accessAddrs a n, s.memWrite a n v = .error (.refuse (.storeToText b)))

/-- The legal states (`State.Legal`: R17, R28, R162, D17, D24, and the canonical form of memory, log 4) are closed under
the step, from every legal state. -/
def Obligations.StepKeepsLegal : Prop := ∀ s t : State, s.Legal → step s = .next t → t.Legal

/-- The state after reset is legal. The reset values are the model's choice (logs 1, 2, 4). -/
def Obligations.ResetIsLegal : Prop := State.reset.Legal

/-- The values R181 lists for the i80386 after reset, which the model takes (PRESUMED, log 1): the spec itself states none
(R30, R180). CR0 is 0 whole, its ET bit by log 1. The first instruction byte is fetched at physical FFFFFFF0h, in real
mode, with D = 0. -/
def Obligations.ResetValues : Prop :=
  let s := State.reset
  s.eflags = 2 ∧ s.eip = 0xFFF0 ∧ s.segs.cs.sel = 0xF000 ∧ s.segs.cs.base = 0xFFFF0000 ∧ s.segs.cs.limit = 0xFFFF ∧
    (∀ k : SReg, k ≠ .cs → (s.seg k).sel = 0 ∧ (s.seg k).base = 0 ∧ (s.seg k).limit = 0xFFFF) ∧ s.cr0 = 0 ∧
    s.pe = false ∧ s.pg = false ∧ s.mode = .real ∧ s.idtr = { base := 0, limit := 0x3FF } ∧ s.defaultSize = false ∧
    s.cpl = 0 ∧ s.sys.tlb = [] ∧ s.x .eax = 0 ∧ s.fetchAddr 0 = 0xFFFFFFF0 ∧ s.exn = none
end

