-- ==== Sys2Proof/Laws/State.lean ====
section
/-! SUPPORT. One lemma per field per update of the state, so that no later proof unfolds a record update. -/

namespace Sys2Proof.Machine

variable (s : State)

/-! ## `setRegs` -/

@[simp] theorem State.setRegs_regs (v : Regs) : (s.setRegs v).regs = v := rfl
@[simp] theorem State.setRegs_eip (v : Regs) : (s.setRegs v).eip = s.eip := rfl
@[simp] theorem State.setRegs_eflags (v : Regs) : (s.setRegs v).eflags = s.eflags := rfl
@[simp] theorem State.setRegs_segs (v : Regs) : (s.setRegs v).segs = s.segs := rfl
@[simp] theorem State.setRegs_cr0 (v : Regs) : (s.setRegs v).cr0 = s.cr0 := rfl
@[simp] theorem State.setRegs_gdtr (v : Regs) : (s.setRegs v).gdtr = s.gdtr := rfl
@[simp] theorem State.setRegs_idtr (v : Regs) : (s.setRegs v).idtr = s.idtr := rfl
@[simp] theorem State.setRegs_cpl (v : Regs) : (s.setRegs v).cpl = s.cpl := rfl
@[simp] theorem State.setRegs_sys (v : Regs) : (s.setRegs v).sys = s.sys := rfl
@[simp] theorem State.setRegs_busLock (v : Regs) : (s.setRegs v).busLock = s.busLock := rfl
@[simp] theorem State.setRegs_mem (v : Regs) : (s.setRegs v).mem = s.mem := rfl
@[simp] theorem State.setRegs_exn (v : Regs) : (s.setRegs v).exn = s.exn := rfl
@[simp] theorem State.setRegs_draws (v : Regs) : (s.setRegs v).draws = s.draws := rfl
@[simp] theorem State.setRegs_params (v : Regs) : (s.setRegs v).params = s.params := rfl

/-! ## `setEip` -/

@[simp] theorem State.setEip_regs (v : Word) : (s.setEip v).regs = s.regs := rfl
@[simp] theorem State.setEip_eip (v : Word) : (s.setEip v).eip = v := rfl
@[simp] theorem State.setEip_eflags (v : Word) : (s.setEip v).eflags = s.eflags := rfl
@[simp] theorem State.setEip_segs (v : Word) : (s.setEip v).segs = s.segs := rfl
@[simp] theorem State.setEip_cr0 (v : Word) : (s.setEip v).cr0 = s.cr0 := rfl
@[simp] theorem State.setEip_gdtr (v : Word) : (s.setEip v).gdtr = s.gdtr := rfl
@[simp] theorem State.setEip_idtr (v : Word) : (s.setEip v).idtr = s.idtr := rfl
@[simp] theorem State.setEip_cpl (v : Word) : (s.setEip v).cpl = s.cpl := rfl
@[simp] theorem State.setEip_sys (v : Word) : (s.setEip v).sys = s.sys := rfl
@[simp] theorem State.setEip_busLock (v : Word) : (s.setEip v).busLock = s.busLock := rfl
@[simp] theorem State.setEip_mem (v : Word) : (s.setEip v).mem = s.mem := rfl
@[simp] theorem State.setEip_exn (v : Word) : (s.setEip v).exn = s.exn := rfl
@[simp] theorem State.setEip_draws (v : Word) : (s.setEip v).draws = s.draws := rfl
@[simp] theorem State.setEip_params (v : Word) : (s.setEip v).params = s.params := rfl

/-! ## `setEflags` -/

@[simp] theorem State.setEflags_regs (v : Word) : (s.setEflags v).regs = s.regs := rfl
@[simp] theorem State.setEflags_eip (v : Word) : (s.setEflags v).eip = s.eip := rfl
@[simp] theorem State.setEflags_eflags (v : Word) : (s.setEflags v).eflags = v := rfl
@[simp] theorem State.setEflags_segs (v : Word) : (s.setEflags v).segs = s.segs := rfl
@[simp] theorem State.setEflags_cr0 (v : Word) : (s.setEflags v).cr0 = s.cr0 := rfl
@[simp] theorem State.setEflags_gdtr (v : Word) : (s.setEflags v).gdtr = s.gdtr := rfl
@[simp] theorem State.setEflags_idtr (v : Word) : (s.setEflags v).idtr = s.idtr := rfl
@[simp] theorem State.setEflags_cpl (v : Word) : (s.setEflags v).cpl = s.cpl := rfl
@[simp] theorem State.setEflags_sys (v : Word) : (s.setEflags v).sys = s.sys := rfl
@[simp] theorem State.setEflags_busLock (v : Word) : (s.setEflags v).busLock = s.busLock := rfl
@[simp] theorem State.setEflags_mem (v : Word) : (s.setEflags v).mem = s.mem := rfl
@[simp] theorem State.setEflags_exn (v : Word) : (s.setEflags v).exn = s.exn := rfl
@[simp] theorem State.setEflags_draws (v : Word) : (s.setEflags v).draws = s.draws := rfl
@[simp] theorem State.setEflags_params (v : Word) : (s.setEflags v).params = s.params := rfl

/-! ## `setSegs` -/

@[simp] theorem State.setSegs_regs (v : SegRegs) : (s.setSegs v).regs = s.regs := rfl
@[simp] theorem State.setSegs_eip (v : SegRegs) : (s.setSegs v).eip = s.eip := rfl
@[simp] theorem State.setSegs_eflags (v : SegRegs) : (s.setSegs v).eflags = s.eflags := rfl
@[simp] theorem State.setSegs_segs (v : SegRegs) : (s.setSegs v).segs = v := rfl
@[simp] theorem State.setSegs_cr0 (v : SegRegs) : (s.setSegs v).cr0 = s.cr0 := rfl
@[simp] theorem State.setSegs_gdtr (v : SegRegs) : (s.setSegs v).gdtr = s.gdtr := rfl
@[simp] theorem State.setSegs_idtr (v : SegRegs) : (s.setSegs v).idtr = s.idtr := rfl
@[simp] theorem State.setSegs_cpl (v : SegRegs) : (s.setSegs v).cpl = s.cpl := rfl
@[simp] theorem State.setSegs_sys (v : SegRegs) : (s.setSegs v).sys = s.sys := rfl
@[simp] theorem State.setSegs_busLock (v : SegRegs) : (s.setSegs v).busLock = s.busLock := rfl
@[simp] theorem State.setSegs_mem (v : SegRegs) : (s.setSegs v).mem = s.mem := rfl
@[simp] theorem State.setSegs_exn (v : SegRegs) : (s.setSegs v).exn = s.exn := rfl
@[simp] theorem State.setSegs_draws (v : SegRegs) : (s.setSegs v).draws = s.draws := rfl
@[simp] theorem State.setSegs_params (v : SegRegs) : (s.setSegs v).params = s.params := rfl

/-! ## `setCr0` -/

@[simp] theorem State.setCr0_regs (v : Word) : (s.setCr0 v).regs = s.regs := rfl
@[simp] theorem State.setCr0_eip (v : Word) : (s.setCr0 v).eip = s.eip := rfl
@[simp] theorem State.setCr0_eflags (v : Word) : (s.setCr0 v).eflags = s.eflags := rfl
@[simp] theorem State.setCr0_segs (v : Word) : (s.setCr0 v).segs = s.segs := rfl
@[simp] theorem State.setCr0_cr0 (v : Word) : (s.setCr0 v).cr0 = v := rfl
@[simp] theorem State.setCr0_gdtr (v : Word) : (s.setCr0 v).gdtr = s.gdtr := rfl
@[simp] theorem State.setCr0_idtr (v : Word) : (s.setCr0 v).idtr = s.idtr := rfl
@[simp] theorem State.setCr0_cpl (v : Word) : (s.setCr0 v).cpl = s.cpl := rfl
@[simp] theorem State.setCr0_sys (v : Word) : (s.setCr0 v).sys = s.sys := rfl
@[simp] theorem State.setCr0_busLock (v : Word) : (s.setCr0 v).busLock = s.busLock := rfl
@[simp] theorem State.setCr0_mem (v : Word) : (s.setCr0 v).mem = s.mem := rfl
@[simp] theorem State.setCr0_exn (v : Word) : (s.setCr0 v).exn = s.exn := rfl
@[simp] theorem State.setCr0_draws (v : Word) : (s.setCr0 v).draws = s.draws := rfl
@[simp] theorem State.setCr0_params (v : Word) : (s.setCr0 v).params = s.params := rfl

/-! ## `setGdtr` -/

@[simp] theorem State.setGdtr_regs (v : TableReg) : (s.setGdtr v).regs = s.regs := rfl
@[simp] theorem State.setGdtr_eip (v : TableReg) : (s.setGdtr v).eip = s.eip := rfl
@[simp] theorem State.setGdtr_eflags (v : TableReg) : (s.setGdtr v).eflags = s.eflags := rfl
@[simp] theorem State.setGdtr_segs (v : TableReg) : (s.setGdtr v).segs = s.segs := rfl
@[simp] theorem State.setGdtr_cr0 (v : TableReg) : (s.setGdtr v).cr0 = s.cr0 := rfl
@[simp] theorem State.setGdtr_gdtr (v : TableReg) : (s.setGdtr v).gdtr = v := rfl
@[simp] theorem State.setGdtr_idtr (v : TableReg) : (s.setGdtr v).idtr = s.idtr := rfl
@[simp] theorem State.setGdtr_cpl (v : TableReg) : (s.setGdtr v).cpl = s.cpl := rfl
@[simp] theorem State.setGdtr_sys (v : TableReg) : (s.setGdtr v).sys = s.sys := rfl
@[simp] theorem State.setGdtr_busLock (v : TableReg) : (s.setGdtr v).busLock = s.busLock := rfl
@[simp] theorem State.setGdtr_mem (v : TableReg) : (s.setGdtr v).mem = s.mem := rfl
@[simp] theorem State.setGdtr_exn (v : TableReg) : (s.setGdtr v).exn = s.exn := rfl
@[simp] theorem State.setGdtr_draws (v : TableReg) : (s.setGdtr v).draws = s.draws := rfl
@[simp] theorem State.setGdtr_params (v : TableReg) : (s.setGdtr v).params = s.params := rfl

/-! ## `setIdtr` -/

@[simp] theorem State.setIdtr_regs (v : TableReg) : (s.setIdtr v).regs = s.regs := rfl
@[simp] theorem State.setIdtr_eip (v : TableReg) : (s.setIdtr v).eip = s.eip := rfl
@[simp] theorem State.setIdtr_eflags (v : TableReg) : (s.setIdtr v).eflags = s.eflags := rfl
@[simp] theorem State.setIdtr_segs (v : TableReg) : (s.setIdtr v).segs = s.segs := rfl
@[simp] theorem State.setIdtr_cr0 (v : TableReg) : (s.setIdtr v).cr0 = s.cr0 := rfl
@[simp] theorem State.setIdtr_gdtr (v : TableReg) : (s.setIdtr v).gdtr = s.gdtr := rfl
@[simp] theorem State.setIdtr_idtr (v : TableReg) : (s.setIdtr v).idtr = v := rfl
@[simp] theorem State.setIdtr_cpl (v : TableReg) : (s.setIdtr v).cpl = s.cpl := rfl
@[simp] theorem State.setIdtr_sys (v : TableReg) : (s.setIdtr v).sys = s.sys := rfl
@[simp] theorem State.setIdtr_busLock (v : TableReg) : (s.setIdtr v).busLock = s.busLock := rfl
@[simp] theorem State.setIdtr_mem (v : TableReg) : (s.setIdtr v).mem = s.mem := rfl
@[simp] theorem State.setIdtr_exn (v : TableReg) : (s.setIdtr v).exn = s.exn := rfl
@[simp] theorem State.setIdtr_draws (v : TableReg) : (s.setIdtr v).draws = s.draws := rfl
@[simp] theorem State.setIdtr_params (v : TableReg) : (s.setIdtr v).params = s.params := rfl

/-! ## `setBusLock` -/

@[simp] theorem State.setBusLock_regs (v : Bool) : (s.setBusLock v).regs = s.regs := rfl
@[simp] theorem State.setBusLock_eip (v : Bool) : (s.setBusLock v).eip = s.eip := rfl
@[simp] theorem State.setBusLock_eflags (v : Bool) : (s.setBusLock v).eflags = s.eflags := rfl
@[simp] theorem State.setBusLock_segs (v : Bool) : (s.setBusLock v).segs = s.segs := rfl
@[simp] theorem State.setBusLock_cr0 (v : Bool) : (s.setBusLock v).cr0 = s.cr0 := rfl
@[simp] theorem State.setBusLock_gdtr (v : Bool) : (s.setBusLock v).gdtr = s.gdtr := rfl
@[simp] theorem State.setBusLock_idtr (v : Bool) : (s.setBusLock v).idtr = s.idtr := rfl
@[simp] theorem State.setBusLock_cpl (v : Bool) : (s.setBusLock v).cpl = s.cpl := rfl
@[simp] theorem State.setBusLock_sys (v : Bool) : (s.setBusLock v).sys = s.sys := rfl
@[simp] theorem State.setBusLock_busLock (v : Bool) : (s.setBusLock v).busLock = v := rfl
@[simp] theorem State.setBusLock_mem (v : Bool) : (s.setBusLock v).mem = s.mem := rfl
@[simp] theorem State.setBusLock_exn (v : Bool) : (s.setBusLock v).exn = s.exn := rfl
@[simp] theorem State.setBusLock_draws (v : Bool) : (s.setBusLock v).draws = s.draws := rfl
@[simp] theorem State.setBusLock_params (v : Bool) : (s.setBusLock v).params = s.params := rfl

/-! ## `setMem` -/

@[simp] theorem State.setMem_regs (v : Memory) : (s.setMem v).regs = s.regs := rfl
@[simp] theorem State.setMem_eip (v : Memory) : (s.setMem v).eip = s.eip := rfl
@[simp] theorem State.setMem_eflags (v : Memory) : (s.setMem v).eflags = s.eflags := rfl
@[simp] theorem State.setMem_segs (v : Memory) : (s.setMem v).segs = s.segs := rfl
@[simp] theorem State.setMem_cr0 (v : Memory) : (s.setMem v).cr0 = s.cr0 := rfl
@[simp] theorem State.setMem_gdtr (v : Memory) : (s.setMem v).gdtr = s.gdtr := rfl
@[simp] theorem State.setMem_idtr (v : Memory) : (s.setMem v).idtr = s.idtr := rfl
@[simp] theorem State.setMem_cpl (v : Memory) : (s.setMem v).cpl = s.cpl := rfl
@[simp] theorem State.setMem_sys (v : Memory) : (s.setMem v).sys = s.sys := rfl
@[simp] theorem State.setMem_busLock (v : Memory) : (s.setMem v).busLock = s.busLock := rfl
@[simp] theorem State.setMem_mem (v : Memory) : (s.setMem v).mem = v := rfl
@[simp] theorem State.setMem_exn (v : Memory) : (s.setMem v).exn = s.exn := rfl
@[simp] theorem State.setMem_draws (v : Memory) : (s.setMem v).draws = s.draws := rfl
@[simp] theorem State.setMem_params (v : Memory) : (s.setMem v).params = s.params := rfl

/-! ## `setExn` -/

@[simp] theorem State.setExn_regs (v : Option FaultRecord) : (s.setExn v).regs = s.regs := rfl
@[simp] theorem State.setExn_eip (v : Option FaultRecord) : (s.setExn v).eip = s.eip := rfl
@[simp] theorem State.setExn_eflags (v : Option FaultRecord) : (s.setExn v).eflags = s.eflags := rfl
@[simp] theorem State.setExn_segs (v : Option FaultRecord) : (s.setExn v).segs = s.segs := rfl
@[simp] theorem State.setExn_cr0 (v : Option FaultRecord) : (s.setExn v).cr0 = s.cr0 := rfl
@[simp] theorem State.setExn_gdtr (v : Option FaultRecord) : (s.setExn v).gdtr = s.gdtr := rfl
@[simp] theorem State.setExn_idtr (v : Option FaultRecord) : (s.setExn v).idtr = s.idtr := rfl
@[simp] theorem State.setExn_cpl (v : Option FaultRecord) : (s.setExn v).cpl = s.cpl := rfl
@[simp] theorem State.setExn_sys (v : Option FaultRecord) : (s.setExn v).sys = s.sys := rfl
@[simp] theorem State.setExn_busLock (v : Option FaultRecord) : (s.setExn v).busLock = s.busLock := rfl
@[simp] theorem State.setExn_mem (v : Option FaultRecord) : (s.setExn v).mem = s.mem := rfl
@[simp] theorem State.setExn_exn (v : Option FaultRecord) : (s.setExn v).exn = v := rfl
@[simp] theorem State.setExn_draws (v : Option FaultRecord) : (s.setExn v).draws = s.draws := rfl
@[simp] theorem State.setExn_params (v : Option FaultRecord) : (s.setExn v).params = s.params := rfl

/-! ## `setDraws` -/

@[simp] theorem State.setDraws_regs (v : Nat) : (s.setDraws v).regs = s.regs := rfl
@[simp] theorem State.setDraws_eip (v : Nat) : (s.setDraws v).eip = s.eip := rfl
@[simp] theorem State.setDraws_eflags (v : Nat) : (s.setDraws v).eflags = s.eflags := rfl
@[simp] theorem State.setDraws_segs (v : Nat) : (s.setDraws v).segs = s.segs := rfl
@[simp] theorem State.setDraws_cr0 (v : Nat) : (s.setDraws v).cr0 = s.cr0 := rfl
@[simp] theorem State.setDraws_gdtr (v : Nat) : (s.setDraws v).gdtr = s.gdtr := rfl
@[simp] theorem State.setDraws_idtr (v : Nat) : (s.setDraws v).idtr = s.idtr := rfl
@[simp] theorem State.setDraws_cpl (v : Nat) : (s.setDraws v).cpl = s.cpl := rfl
@[simp] theorem State.setDraws_sys (v : Nat) : (s.setDraws v).sys = s.sys := rfl
@[simp] theorem State.setDraws_busLock (v : Nat) : (s.setDraws v).busLock = s.busLock := rfl
@[simp] theorem State.setDraws_mem (v : Nat) : (s.setDraws v).mem = s.mem := rfl
@[simp] theorem State.setDraws_exn (v : Nat) : (s.setDraws v).exn = s.exn := rfl
@[simp] theorem State.setDraws_draws (v : Nat) : (s.setDraws v).draws = v := rfl
@[simp] theorem State.setDraws_params (v : Nat) : (s.setDraws v).params = s.params := rfl

/-! ## `setX` -/

@[simp] theorem State.setX_regs (r : Reg) (v : Word) : (s.setX r v).regs = s.regs.set r v := rfl
@[simp] theorem State.setX_eip (r : Reg) (v : Word) : (s.setX r v).eip = s.eip := rfl
@[simp] theorem State.setX_eflags (r : Reg) (v : Word) : (s.setX r v).eflags = s.eflags := rfl
@[simp] theorem State.setX_segs (r : Reg) (v : Word) : (s.setX r v).segs = s.segs := rfl
@[simp] theorem State.setX_cr0 (r : Reg) (v : Word) : (s.setX r v).cr0 = s.cr0 := rfl
@[simp] theorem State.setX_gdtr (r : Reg) (v : Word) : (s.setX r v).gdtr = s.gdtr := rfl
@[simp] theorem State.setX_idtr (r : Reg) (v : Word) : (s.setX r v).idtr = s.idtr := rfl
@[simp] theorem State.setX_cpl (r : Reg) (v : Word) : (s.setX r v).cpl = s.cpl := rfl
@[simp] theorem State.setX_sys (r : Reg) (v : Word) : (s.setX r v).sys = s.sys := rfl
@[simp] theorem State.setX_busLock (r : Reg) (v : Word) : (s.setX r v).busLock = s.busLock := rfl
@[simp] theorem State.setX_mem (r : Reg) (v : Word) : (s.setX r v).mem = s.mem := rfl
@[simp] theorem State.setX_exn (r : Reg) (v : Word) : (s.setX r v).exn = s.exn := rfl
@[simp] theorem State.setX_draws (r : Reg) (v : Word) : (s.setX r v).draws = s.draws := rfl
@[simp] theorem State.setX_params (r : Reg) (v : Word) : (s.setX r v).params = s.params := rfl

/-! ## `setReg` -/

@[simp] theorem State.setReg_eip (c : Reg) (z : Size) (v : BitVec z.bits) : (s.setReg c z v).eip = s.eip := rfl
@[simp] theorem State.setReg_eflags (c : Reg) (z : Size) (v : BitVec z.bits) : (s.setReg c z v).eflags = s.eflags := rfl
@[simp] theorem State.setReg_segs (c : Reg) (z : Size) (v : BitVec z.bits) : (s.setReg c z v).segs = s.segs := rfl
@[simp] theorem State.setReg_cr0 (c : Reg) (z : Size) (v : BitVec z.bits) : (s.setReg c z v).cr0 = s.cr0 := rfl
@[simp] theorem State.setReg_gdtr (c : Reg) (z : Size) (v : BitVec z.bits) : (s.setReg c z v).gdtr = s.gdtr := rfl
@[simp] theorem State.setReg_idtr (c : Reg) (z : Size) (v : BitVec z.bits) : (s.setReg c z v).idtr = s.idtr := rfl
@[simp] theorem State.setReg_cpl (c : Reg) (z : Size) (v : BitVec z.bits) : (s.setReg c z v).cpl = s.cpl := rfl
@[simp] theorem State.setReg_sys (c : Reg) (z : Size) (v : BitVec z.bits) : (s.setReg c z v).sys = s.sys := rfl
@[simp] theorem State.setReg_busLock (c : Reg) (z : Size) (v : BitVec z.bits) : (s.setReg c z v).busLock = s.busLock := rfl
@[simp] theorem State.setReg_mem (c : Reg) (z : Size) (v : BitVec z.bits) : (s.setReg c z v).mem = s.mem := rfl
@[simp] theorem State.setReg_exn (c : Reg) (z : Size) (v : BitVec z.bits) : (s.setReg c z v).exn = s.exn := rfl
@[simp] theorem State.setReg_draws (c : Reg) (z : Size) (v : BitVec z.bits) : (s.setReg c z v).draws = s.draws := rfl
@[simp] theorem State.setReg_params (c : Reg) (z : Size) (v : BitVec z.bits) : (s.setReg c z v).params = s.params := rfl

/-! ## `setSeg` -/

@[simp] theorem State.setSeg_regs (k : SReg) (v : SegReg) : (s.setSeg k v).regs = s.regs := rfl
@[simp] theorem State.setSeg_eip (k : SReg) (v : SegReg) : (s.setSeg k v).eip = s.eip := rfl
@[simp] theorem State.setSeg_eflags (k : SReg) (v : SegReg) : (s.setSeg k v).eflags = s.eflags := rfl
@[simp] theorem State.setSeg_segs (k : SReg) (v : SegReg) : (s.setSeg k v).segs = s.segs.set k v := rfl
@[simp] theorem State.setSeg_cr0 (k : SReg) (v : SegReg) : (s.setSeg k v).cr0 = s.cr0 := rfl
@[simp] theorem State.setSeg_gdtr (k : SReg) (v : SegReg) : (s.setSeg k v).gdtr = s.gdtr := rfl
@[simp] theorem State.setSeg_idtr (k : SReg) (v : SegReg) : (s.setSeg k v).idtr = s.idtr := rfl
@[simp] theorem State.setSeg_cpl (k : SReg) (v : SegReg) : (s.setSeg k v).cpl = s.cpl := rfl
@[simp] theorem State.setSeg_sys (k : SReg) (v : SegReg) : (s.setSeg k v).sys = s.sys := rfl
@[simp] theorem State.setSeg_busLock (k : SReg) (v : SegReg) : (s.setSeg k v).busLock = s.busLock := rfl
@[simp] theorem State.setSeg_mem (k : SReg) (v : SegReg) : (s.setSeg k v).mem = s.mem := rfl
@[simp] theorem State.setSeg_exn (k : SReg) (v : SegReg) : (s.setSeg k v).exn = s.exn := rfl
@[simp] theorem State.setSeg_draws (k : SReg) (v : SegReg) : (s.setSeg k v).draws = s.draws := rfl
@[simp] theorem State.setSeg_params (k : SReg) (v : SegReg) : (s.setSeg k v).params = s.params := rfl

/-! ## `setStatus` -/

@[simp] theorem State.setStatus_regs (f : StatusFlags) : (s.setStatus f).regs = s.regs := rfl
@[simp] theorem State.setStatus_eip (f : StatusFlags) : (s.setStatus f).eip = s.eip := rfl
@[simp] theorem State.setStatus_eflags (f : StatusFlags) : (s.setStatus f).eflags = f.putInto s.eflags := rfl
@[simp] theorem State.setStatus_segs (f : StatusFlags) : (s.setStatus f).segs = s.segs := rfl
@[simp] theorem State.setStatus_cr0 (f : StatusFlags) : (s.setStatus f).cr0 = s.cr0 := rfl
@[simp] theorem State.setStatus_gdtr (f : StatusFlags) : (s.setStatus f).gdtr = s.gdtr := rfl
@[simp] theorem State.setStatus_idtr (f : StatusFlags) : (s.setStatus f).idtr = s.idtr := rfl
@[simp] theorem State.setStatus_cpl (f : StatusFlags) : (s.setStatus f).cpl = s.cpl := rfl
@[simp] theorem State.setStatus_sys (f : StatusFlags) : (s.setStatus f).sys = s.sys := rfl
@[simp] theorem State.setStatus_busLock (f : StatusFlags) : (s.setStatus f).busLock = s.busLock := rfl
@[simp] theorem State.setStatus_mem (f : StatusFlags) : (s.setStatus f).mem = s.mem := rfl
@[simp] theorem State.setStatus_exn (f : StatusFlags) : (s.setStatus f).exn = s.exn := rfl
@[simp] theorem State.setStatus_draws (f : StatusFlags) : (s.setStatus f).draws = s.draws := rfl
@[simp] theorem State.setStatus_params (f : StatusFlags) : (s.setStatus f).params = s.params := rfl

/-! ## `drawn` -/

@[simp] theorem State.drawn_regs (n : Nat) : (s.drawn n).regs = s.regs := rfl
@[simp] theorem State.drawn_eip (n : Nat) : (s.drawn n).eip = s.eip := rfl
@[simp] theorem State.drawn_eflags (n : Nat) : (s.drawn n).eflags = s.eflags := rfl
@[simp] theorem State.drawn_segs (n : Nat) : (s.drawn n).segs = s.segs := rfl
@[simp] theorem State.drawn_cr0 (n : Nat) : (s.drawn n).cr0 = s.cr0 := rfl
@[simp] theorem State.drawn_gdtr (n : Nat) : (s.drawn n).gdtr = s.gdtr := rfl
@[simp] theorem State.drawn_idtr (n : Nat) : (s.drawn n).idtr = s.idtr := rfl
@[simp] theorem State.drawn_cpl (n : Nat) : (s.drawn n).cpl = s.cpl := rfl
@[simp] theorem State.drawn_sys (n : Nat) : (s.drawn n).sys = s.sys := rfl
@[simp] theorem State.drawn_busLock (n : Nat) : (s.drawn n).busLock = s.busLock := rfl
@[simp] theorem State.drawn_mem (n : Nat) : (s.drawn n).mem = s.mem := rfl
@[simp] theorem State.drawn_exn (n : Nat) : (s.drawn n).exn = s.exn := rfl
@[simp] theorem State.drawn_draws (n : Nat) : (s.drawn n).draws = s.draws + n := rfl
@[simp] theorem State.drawn_params (n : Nat) : (s.drawn n).params = s.params := rfl

/-! ## `undefineStatus` -/

@[simp] theorem State.undefineStatus_regs  : (s.undefineStatus).regs = s.regs := rfl
@[simp] theorem State.undefineStatus_eip  : (s.undefineStatus).eip = s.eip := rfl
@[simp] theorem State.undefineStatus_eflags  : (s.undefineStatus).eflags = (drawFlags s.draws).putInto s.eflags := rfl
@[simp] theorem State.undefineStatus_segs  : (s.undefineStatus).segs = s.segs := rfl
@[simp] theorem State.undefineStatus_cr0  : (s.undefineStatus).cr0 = s.cr0 := rfl
@[simp] theorem State.undefineStatus_gdtr  : (s.undefineStatus).gdtr = s.gdtr := rfl
@[simp] theorem State.undefineStatus_idtr  : (s.undefineStatus).idtr = s.idtr := rfl
@[simp] theorem State.undefineStatus_cpl  : (s.undefineStatus).cpl = s.cpl := rfl
@[simp] theorem State.undefineStatus_sys  : (s.undefineStatus).sys = s.sys := rfl
@[simp] theorem State.undefineStatus_busLock  : (s.undefineStatus).busLock = s.busLock := rfl
@[simp] theorem State.undefineStatus_mem  : (s.undefineStatus).mem = s.mem := rfl
@[simp] theorem State.undefineStatus_exn  : (s.undefineStatus).exn = s.exn := rfl
@[simp] theorem State.undefineStatus_draws  : (s.undefineStatus).draws = s.draws + 6 := rfl
@[simp] theorem State.undefineStatus_params  : (s.undefineStatus).params = s.params := rfl

/-! ## `takeException` -/

@[simp] theorem State.takeException_regs (e : Exception) (c : Option (BitVec 16)) : (s.takeException e c).regs = s.regs := rfl
@[simp] theorem State.takeException_eip (e : Exception) (c : Option (BitVec 16)) : (s.takeException e c).eip = s.eip := rfl
@[simp] theorem State.takeException_eflags (e : Exception) (c : Option (BitVec 16)) : (s.takeException e c).eflags = s.eflags := rfl
@[simp] theorem State.takeException_segs (e : Exception) (c : Option (BitVec 16)) : (s.takeException e c).segs = s.segs := rfl
@[simp] theorem State.takeException_cr0 (e : Exception) (c : Option (BitVec 16)) : (s.takeException e c).cr0 = s.cr0 := rfl
@[simp] theorem State.takeException_gdtr (e : Exception) (c : Option (BitVec 16)) : (s.takeException e c).gdtr = s.gdtr := rfl
@[simp] theorem State.takeException_idtr (e : Exception) (c : Option (BitVec 16)) : (s.takeException e c).idtr = s.idtr := rfl
@[simp] theorem State.takeException_cpl (e : Exception) (c : Option (BitVec 16)) : (s.takeException e c).cpl = s.cpl := rfl
@[simp] theorem State.takeException_sys (e : Exception) (c : Option (BitVec 16)) : (s.takeException e c).sys = s.sys := rfl
@[simp] theorem State.takeException_busLock (e : Exception) (c : Option (BitVec 16)) : (s.takeException e c).busLock = s.busLock := rfl
@[simp] theorem State.takeException_mem (e : Exception) (c : Option (BitVec 16)) : (s.takeException e c).mem = s.mem := rfl
@[simp] theorem State.takeException_exn (e : Exception) (c : Option (BitVec 16)) : (s.takeException e c).exn = some { exn := e, code := c, pc := s.eip } := rfl
@[simp] theorem State.takeException_draws (e : Exception) (c : Option (BitVec 16)) : (s.takeException e c).draws = s.draws := rfl
@[simp] theorem State.takeException_params (e : Exception) (c : Option (BitVec 16)) : (s.takeException e c).params = s.params := rfl

/-! ## `loadSegReal` -/

@[simp] theorem State.loadSegReal_regs (k : SReg) (v : Selector) : (s.loadSegReal k v).regs = s.regs := rfl
@[simp] theorem State.loadSegReal_eip (k : SReg) (v : Selector) : (s.loadSegReal k v).eip = s.eip := rfl
@[simp] theorem State.loadSegReal_eflags (k : SReg) (v : Selector) : (s.loadSegReal k v).eflags = s.eflags := rfl
@[simp] theorem State.loadSegReal_segs (k : SReg) (v : Selector) : (s.loadSegReal k v).segs = s.segs.set k { s.segs.get k with sel := v, base := v.setWidth 32 * 16, valid := true } := rfl
@[simp] theorem State.loadSegReal_cr0 (k : SReg) (v : Selector) : (s.loadSegReal k v).cr0 = s.cr0 := rfl
@[simp] theorem State.loadSegReal_gdtr (k : SReg) (v : Selector) : (s.loadSegReal k v).gdtr = s.gdtr := rfl
@[simp] theorem State.loadSegReal_idtr (k : SReg) (v : Selector) : (s.loadSegReal k v).idtr = s.idtr := rfl
@[simp] theorem State.loadSegReal_cpl (k : SReg) (v : Selector) : (s.loadSegReal k v).cpl = s.cpl := rfl
@[simp] theorem State.loadSegReal_sys (k : SReg) (v : Selector) : (s.loadSegReal k v).sys = s.sys := rfl
@[simp] theorem State.loadSegReal_busLock (k : SReg) (v : Selector) : (s.loadSegReal k v).busLock = s.busLock := rfl
@[simp] theorem State.loadSegReal_mem (k : SReg) (v : Selector) : (s.loadSegReal k v).mem = s.mem := rfl
@[simp] theorem State.loadSegReal_exn (k : SReg) (v : Selector) : (s.loadSegReal k v).exn = s.exn := rfl
@[simp] theorem State.loadSegReal_draws (k : SReg) (v : Selector) : (s.loadSegReal k v).draws = s.draws := rfl
@[simp] theorem State.loadSegReal_params (k : SReg) (v : Selector) : (s.loadSegReal k v).params = s.params := rfl

/-! ## `loadSegNull` -/

@[simp] theorem State.loadSegNull_regs (k : SReg) (v : Selector) : (s.loadSegNull k v).regs = s.regs := rfl
@[simp] theorem State.loadSegNull_eip (k : SReg) (v : Selector) : (s.loadSegNull k v).eip = s.eip := rfl
@[simp] theorem State.loadSegNull_eflags (k : SReg) (v : Selector) : (s.loadSegNull k v).eflags = s.eflags := rfl
@[simp] theorem State.loadSegNull_segs (k : SReg) (v : Selector) : (s.loadSegNull k v).segs = s.segs.set k { s.segs.get k with sel := v, valid := false } := rfl
@[simp] theorem State.loadSegNull_cr0 (k : SReg) (v : Selector) : (s.loadSegNull k v).cr0 = s.cr0 := rfl
@[simp] theorem State.loadSegNull_gdtr (k : SReg) (v : Selector) : (s.loadSegNull k v).gdtr = s.gdtr := rfl
@[simp] theorem State.loadSegNull_idtr (k : SReg) (v : Selector) : (s.loadSegNull k v).idtr = s.idtr := rfl
@[simp] theorem State.loadSegNull_cpl (k : SReg) (v : Selector) : (s.loadSegNull k v).cpl = s.cpl := rfl
@[simp] theorem State.loadSegNull_sys (k : SReg) (v : Selector) : (s.loadSegNull k v).sys = s.sys := rfl
@[simp] theorem State.loadSegNull_busLock (k : SReg) (v : Selector) : (s.loadSegNull k v).busLock = s.busLock := rfl
@[simp] theorem State.loadSegNull_mem (k : SReg) (v : Selector) : (s.loadSegNull k v).mem = s.mem := rfl
@[simp] theorem State.loadSegNull_exn (k : SReg) (v : Selector) : (s.loadSegNull k v).exn = s.exn := rfl
@[simp] theorem State.loadSegNull_draws (k : SReg) (v : Selector) : (s.loadSegNull k v).draws = s.draws := rfl
@[simp] theorem State.loadSegNull_params (k : SReg) (v : Selector) : (s.loadSegNull k v).params = s.params := rfl

end Sys2Proof.Machine
end

