-- ==== Sys2Proof/Laws/Bits.lean ====
section
/-! SUPPORT. Bits of words: partial writes, the status flags inside EFLAGS, little-endian bytes. -/

namespace Sys2Proof

/-- A partial write replaces exactly the bits it names. -/
theorem Word.getLsbD_insert {n : Nat} (w : Word) (lo : Nat) (v : BitVec n) (k : Nat) :
    (w.insert lo v).getLsbD k = if k < 32 ∧ lo ≤ k ∧ k < lo + n then v.getLsbD (k - lo) else w.getLsbD k := by
  unfold Word.insert
  by_cases hk : k < 32 <;> by_cases hlo : lo ≤ k
  · by_cases hn : k < lo + n
    · have h1 : k - lo < n := by omega
      have h3 : ¬ k < lo := by omega
      simp [hk, hlo, hn, h1, h3]
    · have h1 : ¬ k - lo < n := by omega
      have h2 : v.getLsbD (k - lo) = false := BitVec.getLsbD_of_ge _ _ (by omega)
      simp [hk, hn, h1, h2]
  · have : k < lo := by omega
    simp [hk, hlo, this]
  · simp [hk, BitVec.getLsbD_of_ge _ k (Nat.le_of_not_lt hk)]
  · simp [hk, BitVec.getLsbD_of_ge _ k (Nat.le_of_not_lt hk)]

/-- Setting a bit changes that bit alone. -/
theorem Word.getLsbD_setBit (w : Word) (j : Nat) (b : Bool) (k : Nat) :
    (w.setBit j b).getLsbD k = if k < 32 ∧ k = j then b else w.getLsbD k := by
  unfold Word.setBit
  rw [Word.getLsbD_insert]
  by_cases h : k = j
  · subst h; by_cases hk : k < 32 <;> simp [hk]
  · rw [if_neg (by omega), if_neg (by omega)]

/-- Reading back the bits a partial write wrote. -/
theorem Word.extract_insert {n : Nat} (w : Word) (lo : Nat) (v : BitVec n) (h : lo + n ≤ 32) :
    (w.insert lo v).extractLsb' lo n = v := by
  ext k hk
  rw [BitVec.getElem_extractLsb', Word.getLsbD_insert, if_pos (by omega), Nat.add_sub_cancel_left,
    BitVec.getLsbD_eq_getElem hk]

/-- A 32-bit write replaces the whole word. -/
theorem Word.insert_zero_32 (w v : Word) : w.insert 0 v = v := by
  apply BitVec.eq_of_getLsbD_eq; intro k hk
  rw [Word.getLsbD_insert]; simp [hk]

/-- A 16-bit register write keeps the upper half. -/
theorem Word.insert_zero_16 (w : Word) (v : BitVec 16) : w.insert 0 v = w.extractLsb' 16 16 ++ v := by
  apply BitVec.eq_of_getLsbD_eq; intro k hk
  rw [Word.getLsbD_insert, BitVec.getLsbD_append]
  by_cases h : k < 16
  · simp [h, hk]
  · have : 16 + (k - 16) = k := by omega
    have : k - 16 < 16 := by omega
    simp [*]

/-- A write of the low byte keeps the upper three. -/
theorem Word.insert_zero_8 (w : Word) (v : BitVec 8) : w.insert 0 v = w.extractLsb' 8 24 ++ v := by
  apply BitVec.eq_of_getLsbD_eq; intro k hk
  rw [Word.getLsbD_insert, BitVec.getLsbD_append]
  by_cases h : k < 8
  · simp [h, hk]
  · have : 8 + (k - 8) = k := by omega
    have : k - 8 < 24 := by omega
    simp [*]

/-- A write of the second byte keeps the other three. -/
theorem Word.insert_8_8 (w : Word) (v : BitVec 8) :
    w.insert 8 v = w.extractLsb' 16 16 ++ v ++ w.extractLsb' 0 8 := by
  apply BitVec.eq_of_getLsbD_eq; intro k hk
  rw [Word.getLsbD_insert, BitVec.getLsbD_append, BitVec.getLsbD_append]
  by_cases h : k < 8
  · have : ¬ 8 ≤ k := by omega
    simp [h, this]
  · by_cases h2 : k < 16
    · have : k - 8 < 8 := by omega
      have : 8 ≤ k := by omega
      simp [*]
    · have : ¬ k - 8 < 8 := by omega
      have : 16 + (k - 8 - 8) = k := by omega
      have : k - 8 - 8 < 16 := by omega
      simp [*]

namespace Machine

/-- Each status flag written is the one read back (R17). -/
@[simp] theorem StatusFlags.ofWord_putInto (f : StatusFlags) (w : Word) : .ofWord (f.putInto w) = f := by
  simp only [StatusFlags.ofWord, StatusFlags.putInto, Word.getLsbD_setBit]
  simp

/-- Writing the status flags keeps every other bit of EFLAGS (R17). -/
theorem StatusFlags.getLsbD_putInto (f : StatusFlags) (w : Word) (k : Nat)
    (h : k ≠ 0 ∧ k ≠ 2 ∧ k ≠ 4 ∧ k ≠ 6 ∧ k ≠ 7 ∧ k ≠ 11) : (f.putInto w).getLsbD k = w.getLsbD k := by
  simp [StatusFlags.putInto, Word.getLsbD_setBit, h]

/-- Writing the status flags keeps the reserved bits (R17). -/
@[simp] theorem flagsReservedOk_putInto (f : StatusFlags) (w : Word) :
    flagsReservedOk (f.putInto w) = flagsReservedOk w := by
  simp only [flagsReservedOk]
  have away : ∀ kb ∈ reservedFlags, kb.1 ≠ 0 ∧ kb.1 ≠ 2 ∧ kb.1 ≠ 4 ∧ kb.1 ≠ 6 ∧ kb.1 ≠ 7 ∧ kb.1 ≠ 11 := by decide
  rw [Bool.eq_iff_iff, List.all_eq_true, List.all_eq_true]
  exact forall₂_congr fun kb hkb => by rw [StatusFlags.getLsbD_putInto _ _ _ (away kb hkb)]

@[simp] theorem State.status_setStatus (s : State) (f : StatusFlags) : (s.setStatus f).status = f := by
  simp [State.status]

end Machine

end Sys2Proof
end

