-- ==== Sys2Proof/Laws/Decode.lean ====
section
/-! SUPPORT. The parts of the decoder against the parts of the encoder: fields and codes, little-endian values, prefixes,
operands, immediates, opcodes; the lengths of what is encoded; and that neither what is decoded nor what is rejected
depends on the bytes after it. -/

namespace Sys2Proof

/-! ## Codes and fields -/

@[simp] theorem Reg.ofCode_code (r : Reg) : Reg.ofCode r.code = r := by cases r <;> rfl

@[simp] theorem Reg.code_ofCode (c : BitVec 3) : (Reg.ofCode c).code = c := by
  revert c; decide

@[simp] theorem Base16.code_ofCode (c : BitVec 3) : (Base16.ofCode c).code = c := by
  revert c; decide

@[simp] theorem SReg.ofCode_code (k : SReg) : SReg.ofCode k.code = some k := by cases k <;> rfl

@[simp] theorem Cond.ofCode_code (c : Cond) : Cond.ofCode c.code = c := by cases c <;> rfl

@[simp] theorem Scale.ofCode_code (s : Scale) : Scale.ofCode s.code = s := by cases s <;> rfl

@[simp] theorem Base16.ofCode_code (b : Base16) : Base16.ofCode b.code = b := by cases b <;> rfl

@[simp] theorem fieldHi_packFields (h : BitVec 2) (m l : BitVec 3) : fieldHi (packFields h m l) = h := by
  revert h m l; decide

@[simp] theorem fieldMid_packFields (h : BitVec 2) (m l : BitVec 3) : fieldMid (packFields h m l) = m := by
  revert h m l; decide

@[simp] theorem fieldLo_packFields (h : BitVec 2) (m l : BitVec 3) : fieldLo (packFields h m l) = l := by
  revert h m l; decide

/-- Only EBP has code 101b. -/
theorem Reg.code_eq_five {r : Reg} : r.code = 5#3 ↔ r = .ebp := by cases r <;> decide

/-- Only ESP has code 100b. -/
theorem Reg.code_eq_four {r : Reg} : r.code = 4#3 ↔ r = .esp := by cases r <;> decide

/-- Only BP has the r/m code 110b. -/
theorem Base16.code_eq_six {b : Base16} : b.code = 6#3 ↔ b = .bp := by cases b <;> decide

/-! ## Parsing -/

@[simp] theorem Parse.bind_ok {α β : Type} (a : α) (rest : List Byte) (f : α → List Byte → Parse β) :
    (Parse.ok a rest).bind f = f a rest := rfl

@[simp] theorem Parse.bind_short {α β : Type} (f : α → List Byte → Parse β) : (Parse.short).bind f = .short := rfl

@[simp] theorem Parse.bind_reject {α β : Type} (r : Reject) (f : α → List Byte → Parse β) :
    (Parse.reject r).bind f = .reject r := rfl

@[simp] theorem Parse.map_ok {α β : Type} (f : α → β) (a : α) (rest : List Byte) :
    (Parse.ok a rest).map f = .ok (f a) rest := rfl

/-- A parse goes on exactly where its first part reads a value and its second part goes on after it. -/
theorem Parse.bind_eq_ok {α β : Type} {x : Parse α} {f : α → List Byte → Parse β} {b : β} {rest : List Byte} :
    x.bind f = .ok b rest ↔ ∃ a r, x = .ok a r ∧ f a r = .ok b rest := by
  cases x <;> simp [Parse.bind]

theorem Parse.map_eq_ok {α β : Type} {x : Parse α} {f : α → β} {b : β} {rest : List Byte} :
    x.map f = .ok b rest ↔ ∃ a, x = .ok a rest ∧ f a = b := by
  cases x <;> simp [Parse.map, Parse.bind]
  constructor <;> rintro ⟨h, h'⟩ <;> exact ⟨h', h⟩

/-! ## Little-endian values -/

theorem le16_join (v : BitVec 16) : (v.extractLsb' 8 8 ++ v.extractLsb' 0 8 : BitVec 16) = v := by
  apply BitVec.eq_of_getLsbD_eq; intro k hk
  rw [BitVec.getLsbD_append]
  by_cases h : k < 8
  · simp [h]
  · have : 8 + (k - 8) = k := by omega
    have : k - 8 < 8 := by omega
    simp [*]

theorem le32_join (v : BitVec 32) :
    (v.extractLsb' 24 8 ++ v.extractLsb' 16 8 ++ v.extractLsb' 8 8 ++ v.extractLsb' 0 8 : BitVec 32) = v := by
  apply BitVec.eq_of_getLsbD_eq; intro k hk
  simp only [BitVec.getLsbD_append, BitVec.getLsbD_extractLsb']
  by_cases h : k < 8
  · simp [h]
  · by_cases h2 : k - 8 < 8
    · have : 8 + (k - 8) = k := by omega
      simp [*]
    · by_cases h3 : k - 8 - 8 < 8
      · have : 16 + (k - 8 - 8) = k := by omega
        simp [*]
      · have : 24 + (k - 8 - 8 - 8) = k := by omega
        have : k - 8 - 8 - 8 < 8 := by omega
        simp [*]

@[simp] theorem take8_cons (b : Byte) (bs : List Byte) : take8 (b :: bs) = .ok b bs := rfl

@[simp] theorem take16_le16 (v : BitVec 16) (bs : List Byte) : take16 (le16 v ++ bs) = .ok v bs := by
  simp [le16, take16, le16_join]

@[simp] theorem take32_le32 (v : BitVec 32) (bs : List Byte) : take32 (le32 v ++ bs) = .ok v bs := by
  simp [le32, take32, le32_join]

@[simp] theorem le16_length (v : BitVec 16) : (le16 v).length = 2 := rfl

@[simp] theorem le32_length (v : BitVec 32) : (le32 v).length = 4 := rfl

/-! ## Prefixes -/

/-- A prefix that is no repeat prefix or override in the table of R72, and its byte. -/
@[simp] theorem Mark.ofByte_override (k : SReg) : Mark.ofByte k.overrideByte = some (.seg k) := by
  cases k <;> rfl

@[simp] theorem Mark.ofByte_lock : Mark.ofByte 0xF0#8 = some .lock := rfl

@[simp] theorem Mark.ofByte_opsize : Mark.ofByte 0x66#8 = some .opsize := rfl

@[simp] theorem Mark.ofByte_adsize : Mark.ofByte 0x67#8 = some .adsize := rfl

/-- Prefixes end before a byte that is none. -/
theorem scanMarks_stop (m : Marks) {b : Byte} (bs : List Byte) (h : Mark.ofByte b = none) :
    scanMarks m (b :: bs) = .ok m (b :: bs) := by
  rw [scanMarks, h]

/-- One prefix byte of a kind that was not there yet. -/
theorem scanMarks_cons {m m' : Marks} {b : Byte} {k : Mark} (bs : List Byte) (h : Mark.ofByte b = some k)
    (hm : m.add k = some m') : scanMarks m (b :: bs) = scanMarks m' bs := by
  rw [scanMarks, h]
  simp only [hm]

/-- One prefix byte of a kind that was there already (D9). -/
theorem scanMarks_doubled {m : Marks} {b : Byte} {k : Mark} (bs : List Byte) (h : Mark.ofByte b = some k)
    (hm : m.add k = none) : scanMarks m (b :: bs) = .reject .doubledMark := by
  rw [scanMarks, h]
  simp only [hm]

/-- The decoder reads back the prefixes the encoder wrote, up to a byte that is none. -/
theorem scanMarks_encode (p : Prefixes) {b : Byte} (bs : List Byte) (h : Mark.ofByte b = none) :
    scanMarks {} (p.encode ++ b :: bs) = .ok { p := p } (b :: bs) := by
  obtain ⟨o, a, l, s⟩ := p
  have h66 (m : Marks) (bs : List Byte) (hm : m.p.opsize = false) :
      scanMarks m (0x66#8 :: bs) = scanMarks { m with p := { m.p with opsize := true } } bs :=
    scanMarks_cons _ Mark.ofByte_opsize (by simp [Marks.add, hm])
  have h67 (m : Marks) (bs : List Byte) (hm : m.p.adsize = false) :
      scanMarks m (0x67#8 :: bs) = scanMarks { m with p := { m.p with adsize := true } } bs :=
    scanMarks_cons _ Mark.ofByte_adsize (by simp [Marks.add, hm])
  have hF0 (m : Marks) (bs : List Byte) (hm : m.p.lock = false) :
      scanMarks m (0xF0#8 :: bs) = scanMarks { m with p := { m.p with lock := true } } bs :=
    scanMarks_cons _ Mark.ofByte_lock (by simp [Marks.add, hm])
  have hseg (m : Marks) (k : SReg) (bs : List Byte) (hm : m.p.seg = .none) :
      scanMarks m (k.overrideByte :: bs) = scanMarks { m with p := { m.p with seg := some k } } bs :=
    scanMarks_cons _ (Mark.ofByte_override k) (by simp [Marks.add, hm])
  cases o <;> cases a <;> cases l <;> cases s <;>
    simp [Prefixes.encode, h66, h67, hF0, hseg, scanMarks_stop _ bs h]

/-- How many prefix bytes the encoder writes. -/
@[simp] theorem Prefixes.encode_length (p : Prefixes) : p.encode.length = p.length := by
  obtain ⟨o, a, l, s⟩ := p
  cases o <;> cases a <;> cases l <;> cases s <;> rfl

/-! ## Operands -/

theorem takeDisp16_encode (d : Disp16) (bs : List Byte) : takeDisp16 d.mod (d.encode ++ bs) = .ok d bs := by
  cases d <;> simp [takeDisp16, Disp16.mod, Disp16.encode]

theorem takeDisp32_encode (d : Disp32) (bs : List Byte) : takeDisp32 d.mod (d.encode ++ bs) = .ok d bs := by
  cases d <;> simp [takeDisp32, Disp32.mod, Disp32.encode]

theorem Disp16.mod_ne_three (d : Disp16) : d.mod ≠ 3#2 := by cases d <;> simp [Disp16.mod]

theorem Disp32.mod_ne_three (d : Disp32) : d.mod ≠ 3#2 := by cases d <;> simp [Disp32.mod]

theorem Disp16.mod_eq_zero {d : Disp16} : d.mod = 0#2 ↔ d = .none := by cases d <;> simp [Disp16.mod]

theorem Disp32.mod_eq_zero {d : Disp32} : d.mod = 0#2 ↔ d = .none := by cases d <;> simp [Disp32.mod]

/-- The decoder reads back an operand and the reg field beside it (R86 to R90). -/
theorem takeRM_encode {a : AddrSize} {x : RM} {sel : BitVec 3 → Bool} {reg : BitVec 3} (bs : List Byte)
    (hsel : sel reg = true) (h : x.wf a = true) : takeRM a sel (x.encode reg ++ bs) = .ok (reg, x) bs := by
  obtain r | m := x
  · simp [takeRM, hsel, RM.encode, takeOperand]
  · simp only [RM.wf, Bool.and_eq_true, beq_iff_eq] at h
    obtain ⟨h, rfl⟩ := h
    cases m with
    | abs16 v => simp [takeRM, hsel, RM.encode, takeOperand, takeMem16, Mem.adsize]
    | base16 b d =>
      have hb : ¬ (d.mod = 0#2 ∧ b.code = 6#3) := by
        rw [Disp16.mod_eq_zero, Base16.code_eq_six]; rintro ⟨rfl, rfl⟩; simp [Mem.wf] at h
      simp [takeRM, hsel, RM.encode, takeOperand, takeMem16, Mem.adsize, d.mod_ne_three, hb, takeDisp16_encode]
    | abs32 v => simp [takeRM, hsel, RM.encode, takeOperand, takeMem32, Mem.adsize]
    | base32 r d =>
      simp only [Mem.wf, Bool.and_eq_true, bne_iff_ne, Bool.or_eq_true] at h
      have hb : ¬ (d.mod = 0#2 ∧ r.code = 5#3) := by
        rw [Disp32.mod_eq_zero, Reg.code_eq_five]; rintro ⟨rfl, rfl⟩; simp at h
      have h4 : r.code ≠ 4#3 := by rw [Ne, Reg.code_eq_four]; exact h.1
      simp [takeRM, hsel, RM.encode, takeOperand, takeMem32, Mem.adsize, d.mod_ne_three, hb, h4, takeDisp32_encode]
    | sib sc ix b d =>
      simp only [Mem.wf, Bool.and_eq_true, bne_iff_ne, Bool.or_eq_true, beq_iff_eq] at h
      have hb : ¬ (d.mod = 0#2 ∧ b = .ebp) := by
        rw [Disp32.mod_eq_zero]; rintro ⟨rfl, rfl⟩; simp at h
      have h4 : ¬ (ix = .esp ∧ sc ≠ .x1) := by rintro ⟨h1, h2⟩; exact h.1.elim (· h1) h2
      simp [takeRM, hsel, RM.encode, takeOperand, takeMem32, takeSib, Mem.adsize, d.mod_ne_three, hb, h4, takeDisp32_encode]
    | sibNoBase sc ix v =>
      simp only [Mem.wf, bne_iff_ne, Bool.or_eq_true, beq_iff_eq] at h
      have h4 : ¬ (ix = .esp ∧ sc ≠ .x1) := by rintro ⟨h1, h2⟩; exact h.elim (· h1) h2
      have h5 : Reg.ofCode 5#3 = .ebp := rfl
      simp [takeRM, hsel, RM.encode, takeOperand, takeMem32, takeSib, Mem.adsize, h4, h5]

@[simp] theorem Disp16.encode_length (d : Disp16) : d.encode.length = d.length := by cases d <;> rfl

@[simp] theorem Disp32.encode_length (d : Disp32) : d.encode.length = d.length := by cases d <;> rfl

@[simp] theorem RM.encode_length (reg : BitVec 3) (x : RM) : (x.encode reg).length = x.length := by
  obtain r | (v | ⟨b, d⟩ | v | ⟨r, d⟩ | ⟨sc, ix, b, d⟩ | ⟨sc, ix, v⟩) := x <;>
    simp [RM.encode, RM.length] <;> omega

/-! ## Immediates and displacements -/

theorem takeImm_encode {o : Size} {v : Imm} (bs : List Byte) (h : v.wf o = true) :
    takeImm o v.w (v.encode ++ bs) = .ok v bs := by
  cases v <;> simp [Imm.wf] at h <;> simp [takeImm, Imm.w, Imm.encode, h]

theorem takeRel_encode {o : Size} {v : Rel} (bs : List Byte) (h : v.wf o = true) :
    takeRel o (v.encode ++ bs) = .ok v bs := by
  cases v <;> simp [Rel.wf] at h <;> simp [takeRel, Rel.encode, h]

@[simp] theorem Imm.encode_length (v : Imm) : v.encode.length = v.length := by cases v <;> rfl

@[simp] theorem AddImm.encode_length (v : AddImm) : v.encode.length = v.length := by
  obtain v | v := v
  · exact v.encode_length
  · rfl

@[simp] theorem Rel.encode_length (v : Rel) : v.encode.length = v.length := by cases v <;> rfl

/-! ## What each parser reads -/

/-- What a parser reads: where it reads a value, it reads exactly some first bytes of its input, whatever follows them,
and the value and their number are related by `P`. -/
def Parse.Reads {α : Type} (f : List Byte → Parse α) (P : α → Nat → Prop) : Prop :=
  ∀ bs a rest, f bs = .ok a rest → ∃ pre, bs = pre ++ rest ∧ P a pre.length ∧ ∀ more, f (pre ++ more) = .ok a more

/-- A weaker relation. -/
theorem Parse.Reads.mono {α : Type} {f : List Byte → Parse α} {P Q : α → Nat → Prop} (h : Parse.Reads f P)
    (hq : ∀ a n, P a n → Q a n) : Parse.Reads f Q := fun bs a rest e =>
  let ⟨pre, h1, h2, h3⟩ := h bs a rest e
  ⟨pre, h1, hq _ _ h2, h3⟩

/-- Reading nothing. -/
theorem Parse.reads_ok {α : Type} (a : α) : Parse.Reads (fun bs => .ok a bs) (fun b n => b = a ∧ n = 0) := by
  intro bs b rest e
  cases e
  exact ⟨[], rfl, ⟨rfl, rfl⟩, fun _ => rfl⟩

/-- A rejection reads nothing. -/
theorem Parse.reads_reject {α : Type} (r : Reject) (P : α → Nat → Prop) : Parse.Reads (fun _ => .reject r) P :=
  fun _ _ _ e => by cases e

/-- One parser after another. -/
theorem Parse.Reads.bind {α β : Type} {f : List Byte → Parse α} {g : α → List Byte → Parse β} {P : α → Nat → Prop}
    {Q : α → β → Nat → Prop} (hf : Parse.Reads f P) (hg : ∀ a, Parse.Reads (g a) (Q a)) :
    Parse.Reads (fun bs => (f bs).bind g) (fun b n => ∃ a k l, P a k ∧ Q a b l ∧ n = k + l) := by
  intro bs b rest e
  obtain ⟨a, r, h1, h2⟩ := Parse.bind_eq_ok.1 e
  obtain ⟨p1, rfl, hp, m1⟩ := hf _ _ _ h1
  obtain ⟨p2, rfl, hq, m2⟩ := hg _ _ _ _ h2
  exact ⟨p1 ++ p2, by simp, ⟨a, _, _, hp, hq, by simp⟩, fun more => by simp [m1, m2]⟩

/-- A parser with its value changed. -/
theorem Parse.Reads.map {α β : Type} {f : List Byte → Parse α} {P : α → Nat → Prop} (hf : Parse.Reads f P) (g : α → β) :
    Parse.Reads (fun bs => (f bs).map g) (fun b n => ∃ a, P a n ∧ b = g a) := by
  intro bs b rest e
  obtain ⟨a, h1, rfl⟩ := Parse.map_eq_ok.1 e
  obtain ⟨p1, rfl, hp, m1⟩ := hf _ _ _ h1
  exact ⟨p1, rfl, ⟨a, hp, rfl⟩, fun more => by simp [m1]⟩

theorem take8_reads : Parse.Reads take8 (fun _ n => n = 1) := by
  intro bs a rest e
  obtain _ | ⟨b, bs⟩ := bs <;> cases e
  exact ⟨[a], rfl, rfl, fun _ => rfl⟩

theorem take16_reads : Parse.Reads take16 (fun _ n => n = 2) := by
  intro bs a rest e
  obtain _ | ⟨b, _ | ⟨b', bs⟩⟩ := bs <;> cases e
  exact ⟨[b, b'], rfl, rfl, fun _ => rfl⟩

theorem take32_reads : Parse.Reads take32 (fun _ n => n = 4) := by
  intro bs a rest e
  obtain _ | ⟨b0, _ | ⟨b1, _ | ⟨b2, _ | ⟨b3, bs⟩⟩⟩⟩ := bs <;> cases e
  exact ⟨[b0, b1, b2, b3], rfl, rfl, fun _ => rfl⟩

theorem takeDisp16_reads (mod : BitVec 2) (h : mod ≠ 3#2) :
    Parse.Reads (takeDisp16 mod) (fun d n => d.mod = mod ∧ n = d.length) := by
  unfold takeDisp16
  split
  · exact (Parse.reads_ok _).mono (by rintro _ _ ⟨rfl, rfl⟩; simp_all [Disp16.mod, Disp16.length])
  · split
    · exact (take8_reads.map _).mono (by rintro _ _ ⟨a, rfl, rfl⟩; simp_all [Disp16.mod, Disp16.length])
    · refine (take16_reads.map _).mono ?_
      rintro _ _ ⟨a, rfl, rfl⟩
      exact ⟨by simp only [Disp16.mod]; revert mod; decide, rfl⟩

theorem takeDisp32_reads (mod : BitVec 2) (h : mod ≠ 3#2) :
    Parse.Reads (takeDisp32 mod) (fun d n => d.mod = mod ∧ n = d.length) := by
  unfold takeDisp32
  split
  · exact (Parse.reads_ok _).mono (by rintro _ _ ⟨rfl, rfl⟩; simp_all [Disp32.mod, Disp32.length])
  · split
    · exact (take8_reads.map _).mono (by rintro _ _ ⟨a, rfl, rfl⟩; simp_all [Disp32.mod, Disp32.length])
    · refine (take32_reads.map _).mono ?_
      rintro _ _ ⟨a, rfl, rfl⟩
      exact ⟨by simp only [Disp32.mod]; revert mod; decide, rfl⟩

theorem takeMem16_reads (mod : BitVec 2) (rm : BitVec 3) (h : mod ≠ 3#2) :
    Parse.Reads (takeMem16 mod rm) (fun m n => m.wf = true ∧ m.adsize = .a16 ∧ 1 + n = (RM.mem m).length) := by
  unfold takeMem16
  split
  · exact (take16_reads.map _).mono (by rintro _ _ ⟨a, rfl, rfl⟩; exact ⟨rfl, rfl, rfl⟩)
  · rename_i hn
    refine ((takeDisp16_reads mod h).map _).mono ?_
    rintro _ _ ⟨d, ⟨rfl, rfl⟩, rfl⟩
    refine ⟨?_, rfl, rfl⟩
    simp only [Mem.wf, Bool.or_eq_true, bne_iff_ne]
    by_contra hc
    simp only [not_or, not_not] at hc
    exact hn ⟨Disp16.mod_eq_zero.2 hc.2, by rw [← Base16.code_ofCode rm, hc.1]; rfl⟩

theorem takeSib_reads (mod : BitVec 2) (h : mod ≠ 3#2) :
    Parse.Reads (takeSib mod) (fun m n => m.wf = true ∧ m.adsize = .a32 ∧ 1 + n = (RM.mem m).length) := by
  unfold takeSib
  refine (Parse.Reads.bind (Q := fun _ m n => m.wf = true ∧ m.adsize = .a32 ∧ 2 + n = (RM.mem m).length) take8_reads
    fun b => ?_).mono ?_
  · dsimp only
    split
    · exact Parse.reads_reject _ _
    · rename_i h4
      rw [not_and_or, not_not] at h4
      split
      · refine (take32_reads.map _).mono ?_
        rintro _ _ ⟨v, rfl, rfl⟩
        exact ⟨by simpa [Mem.wf] using h4, rfl, rfl⟩
      · rename_i h5
        refine ((takeDisp32_reads mod h).map _).mono ?_
        rintro _ _ ⟨d, ⟨rfl, rfl⟩, rfl⟩
        replace h5 := (not_and_or.1 h5).symm.imp_right fun h e => h (Disp32.mod_eq_zero.2 e)
        exact ⟨by simpa [Mem.wf] using ⟨h4, h5⟩, rfl, rfl⟩
  · rintro m _ ⟨b, _, _, rfl, ⟨h1, h2, h3⟩, rfl⟩
    exact ⟨h1, h2, by omega⟩

theorem takeMem32_reads (mod : BitVec 2) (rm : BitVec 3) (h : mod ≠ 3#2) :
    Parse.Reads (takeMem32 mod rm) (fun m n => m.wf = true ∧ m.adsize = .a32 ∧ 1 + n = (RM.mem m).length) := by
  unfold takeMem32
  split
  · exact takeSib_reads mod h
  · rename_i h4
    split
    · exact (take32_reads.map _).mono (by rintro _ _ ⟨a, rfl, rfl⟩; exact ⟨rfl, rfl, rfl⟩)
    · rename_i h5
      refine ((takeDisp32_reads mod h).map _).mono ?_
      rintro _ _ ⟨d, ⟨rfl, rfl⟩, rfl⟩
      refine ⟨?_, rfl, rfl⟩
      replace h5 := (not_and_or.1 h5).symm.imp_right fun h e => h (Disp32.mod_eq_zero.2 e)
      simp only [Mem.wf, Bool.and_eq_true, Bool.or_eq_true, bne_iff_ne]
      refine ⟨fun e => h4 ?_, h5.imp_left fun h e => h ?_⟩ <;> rw [← Reg.code_ofCode rm, e] <;> rfl

/-- A mod r/m byte with what follows it reads as many bytes as the operand's length says. -/
theorem takeRM_reads (a : AddrSize) (sel : BitVec 3 → Bool) :
    Parse.Reads (takeRM a sel) (fun x n => sel x.1 = true ∧ x.2.wf a = true ∧ n = x.2.length) := by
  unfold takeRM
  refine (Parse.Reads.bind (Q := fun _ x n => sel x.1 = true ∧ x.2.wf a = true ∧ 1 + n = x.2.length) take8_reads
    fun b => ?_).mono ?_
  · split <;> rename_i hs
    · refine (Parse.Reads.map (P := fun (x : RM) n => x.wf a = true ∧ 1 + n = x.length) ?_ _).mono ?_
      · unfold takeOperand
        split <;> rename_i hm
        · exact (Parse.reads_ok _).mono (by rintro _ _ ⟨rfl, rfl⟩; exact ⟨rfl, rfl⟩)
        · cases a <;> dsimp only
          · refine ((takeMem16_reads _ _ hm).map _).mono ?_
            rintro _ _ ⟨m, ⟨h1, h2, h3⟩, rfl⟩
            exact ⟨by simp [RM.wf, h1, h2], h3⟩
          · refine ((takeMem32_reads _ _ hm).map _).mono ?_
            rintro _ _ ⟨m, ⟨h1, h2, h3⟩, rfl⟩
            exact ⟨by simp [RM.wf, h1, h2], h3⟩
      · rintro _ _ ⟨x, ⟨h1, h2⟩, rfl⟩
        exact ⟨hs, h1, h2⟩
    · exact Parse.reads_reject _ _
  · rintro m _ ⟨b, _, _, rfl, ⟨h1, h2, h3⟩, rfl⟩
    exact ⟨h1, h2, by omega⟩

/-- An operand size is 16 or 32 bits (R78). -/
theorem operandSize_ne (d p : Bool) : operandSize d p ≠ .b8 := by cases d <;> cases p <;> decide

theorem takeImm_reads {o : Size} (ho : o ≠ .b8) (w : Bool) :
    Parse.Reads (takeImm o w) (fun v n => v.wf o = true ∧ v.w = w ∧ n = v.length) := by
  unfold takeImm
  cases w
  · exact (take8_reads.map _).mono (by rintro _ _ ⟨v, rfl, rfl⟩; exact ⟨rfl, rfl, rfl⟩)
  · cases o
    · exact absurd rfl ho
    · exact (take16_reads.map _).mono (by rintro _ _ ⟨v, rfl, rfl⟩; exact ⟨rfl, rfl, rfl⟩)
    · exact (take32_reads.map _).mono (by rintro _ _ ⟨v, rfl, rfl⟩; exact ⟨rfl, rfl, rfl⟩)

theorem takeRel_reads {o : Size} (ho : o ≠ .b8) :
    Parse.Reads (takeRel o) (fun v n => v.wf o = true ∧ n = v.length) := by
  unfold takeRel
  cases o
  · exact absurd rfl ho
  · exact (take16_reads.map _).mono (by rintro _ _ ⟨v, rfl, rfl⟩; exact ⟨rfl, rfl⟩)
  · exact (take32_reads.map _).mono (by rintro _ _ ⟨v, rfl, rfl⟩; exact ⟨rfl, rfl⟩)

/-- One more prefix is one more byte. -/
theorem Marks.add_length {m m' : Marks} {k : Mark} (h : m.add k = some m') :
    m'.p.length + m'.rep.toNat = m.p.length + m.rep.toNat + 1 := by
  obtain ⟨⟨o, a, l, s⟩, r⟩ := m
  cases k <;> simp only [Marks.add] at h <;> split at h <;> cases h <;> simp_all [Prefixes.length] <;> omega

/-- What the prefix scan reads: as many bytes as prefixes it records, up to a byte that is none; what follows that byte has
no part in it. -/
theorem scanMarks_reads {m m' : Marks} {bs rest : List Byte} (e : scanMarks m bs = .ok m' rest) :
    ∃ pre b r, bs = pre ++ b :: r ∧ rest = b :: r ∧ Mark.ofByte b = none ∧
      m'.p.length + m'.rep.toNat = m.p.length + m.rep.toNat + pre.length ∧
      ∀ more, scanMarks m (pre ++ b :: more) = .ok m' (b :: more) := by
  induction bs generalizing m with
  | nil => cases e
  | cons b bs ih =>
    rw [scanMarks] at e
    split at e
    · rename_i hb
      cases e
      exact ⟨[], b, bs, rfl, rfl, hb, rfl, fun more => scanMarks_stop _ more hb⟩
    · rename_i k hk
      split at e
      · cases e
      · rename_i m1 hm
        obtain ⟨pre, b', r, rfl, rfl, h1, h2, h3⟩ := ih e
        refine ⟨b :: pre, b', r, rfl, rfl, h1, ?_, fun more => ?_⟩
        · rw [h2, Marks.add_length hm, List.length_cons]; omega
        · rw [List.cons_append, scanMarks_cons _ hk hm, h3]

/-- The opcode is one byte, or two of which the first is 0Fh. -/
def Opcode.size : Opcode → Nat
  | .pushFs | .jccRel1632 _ | .setcc _ | .group0F01 | .movFromCr | .movToCr => 2
  | _ => 1

theorem Opcode.ofByte_size {b : Byte} {op : Opcode} (h : Opcode.ofByte b = some op) : op.size = 1 := by
  unfold Opcode.ofByte at h
  repeat' split at h
  all_goals first | (cases h; rfl) | cases h

theorem Opcode.ofByte0F_size {b : Byte} {op : Opcode} (h : Opcode.ofByte0F b = some op) : op.size = 2 := by
  unfold Opcode.ofByte0F at h
  repeat' split at h
  all_goals first | (cases h; rfl) | cases h

theorem takeOpcode_reads : Parse.Reads takeOpcode (fun op n => n = op.size) := by
  unfold takeOpcode
  refine (Parse.Reads.bind (Q := fun _ op n => 1 + n = op.size) take8_reads fun b => ?_).mono ?_
  · split
    · refine (Parse.Reads.bind (Q := fun _ op n => 2 + n = op.size) take8_reads fun b2 => ?_).mono ?_
      · split <;> rename_i h
        · exact (Parse.reads_ok _).mono (by rintro _ _ ⟨rfl, rfl⟩; exact (Opcode.ofByte0F_size h).symm)
        · exact Parse.reads_reject _ _
      · rintro op _ ⟨_, _, _, rfl, h, rfl⟩; omega
    · split <;> rename_i h
      · exact (Parse.reads_ok _).mono (by rintro _ _ ⟨rfl, rfl⟩; exact (Opcode.ofByte_size h).symm)
      · exact Parse.reads_reject _ _
  · rintro op _ ⟨_, _, _, rfl, h, rfl⟩; omega

/-- What follows the opcode reads as many bytes as the instruction's length says, and the instruction is well-formed. -/
theorem takeRow_reads {o : Size} (ho : o ≠ .b8) (a : AddrSize) (p : Prefixes) (op : Opcode) :
    Parse.Reads (takeRow o a p op)
      (fun i n => i.prefixes = p ∧ i.wf o a = true ∧ op.size + n = i.bodyLength) := by
  cases op with
  | cmc => exact (Parse.reads_ok _).mono (by rintro _ _ ⟨rfl, rfl⟩; exact ⟨rfl, rfl, rfl⟩)
  | pushFs => exact (Parse.reads_ok _).mono (by rintro _ _ ⟨rfl, rfl⟩; exact ⟨rfl, rfl, rfl⟩)
  | nop => exact (Parse.reads_ok _).mono (by rintro _ _ ⟨rfl, rfl⟩; exact ⟨rfl, rfl, rfl⟩)
  | addGroup s w =>
    unfold takeRow
    dsimp only
    split
    · exact Parse.reads_reject _ _
    · refine (Parse.Reads.bind (takeRM_reads a _) (Q := fun x i n => i.prefixes = p ∧
        (x.2.wf a = true → i.wf o a = true) ∧ 1 + x.2.length + n = i.bodyLength) fun x => ?_).mono ?_
      · cases s
        · refine ((takeImm_reads ho w).map _).mono ?_
          rintro _ _ ⟨v, ⟨h1, -, rfl⟩, rfl⟩
          exact ⟨rfl, fun h => by simp [Instr.wf, AddImm.wf, h, h1], rfl⟩
        · refine (take8_reads.map _).mono ?_
          rintro _ _ ⟨v, rfl, rfl⟩
          exact ⟨rfl, fun h => by simp [Instr.wf, AddImm.wf, h], rfl⟩
      · rintro i _ ⟨x, k, l, ⟨-, h2, rfl⟩, ⟨h4, h5, h6⟩, rfl⟩
        exact ⟨h4, h5 h2, by rw [← h6]; simp only [Opcode.size]; omega⟩
  | or w =>
    refine ((takeImm_reads ho w).map _).mono ?_
    rintro _ _ ⟨v, ⟨h1, -, rfl⟩, rfl⟩; exact ⟨rfl, h1, rfl⟩
  | movRegImm w r =>
    refine ((takeImm_reads ho w).map _).mono ?_
    rintro _ _ ⟨v, ⟨h1, -, rfl⟩, rfl⟩; exact ⟨rfl, h1, rfl⟩
  | movSregRm16 =>
    refine ((takeRM_reads a _).map _).mono ?_
    rintro _ _ ⟨x, ⟨-, h1, rfl⟩, rfl⟩; exact ⟨rfl, h1, rfl⟩
  | jmpRel8 => exact (take8_reads.map _).mono (by rintro _ _ ⟨v, rfl, rfl⟩; exact ⟨rfl, rfl, rfl⟩)
  | jccRel8 c => exact (take8_reads.map _).mono (by rintro _ _ ⟨v, rfl, rfl⟩; exact ⟨rfl, rfl, rfl⟩)
  | jccRel1632 c =>
    refine ((takeRel_reads ho).map _).mono ?_
    rintro _ _ ⟨v, ⟨h1, rfl⟩, rfl⟩; exact ⟨rfl, h1, rfl⟩
  | setcc c =>
    refine ((takeRM_reads a _).map _).mono ?_
    rintro _ _ ⟨x, ⟨-, h1, rfl⟩, rfl⟩; exact ⟨rfl, h1, rfl⟩
  | group0F01 =>
    refine ((takeRM_reads a _).map _).mono ?_
    rintro _ _ ⟨x, ⟨-, h1, rfl⟩, rfl⟩
    split <;> exact ⟨rfl, h1, rfl⟩
  | movFromCr => exact (take8_reads.map _).mono (by rintro _ _ ⟨v, rfl, rfl⟩; exact ⟨rfl, rfl, rfl⟩)
  | movToCr => exact (take8_reads.map _).mono (by rintro _ _ ⟨v, rfl, rfl⟩; exact ⟨rfl, rfl, rfl⟩)

/-- What is decoded does not depend on the bytes after it. -/
theorem decode_append {d : Bool} {bs rest more : List Byte} {i : Instr} (h : decode d bs = .ok i rest) :
    decode d (bs ++ more) = .ok i (rest ++ more) := by
  obtain ⟨m, r1, h1, h⟩ := Parse.bind_eq_ok.1 h
  obtain ⟨op, r2, h2, h3⟩ := Parse.bind_eq_ok.1 h
  clear h
  obtain ⟨pre, b, r, rfl, rfl, -, -, e1⟩ := scanMarks_reads h1
  obtain ⟨p2, hp2, -, e2⟩ := takeOpcode_reads _ _ _ h2
  split at h3
  · cases h3
  · rename_i hr
    obtain ⟨p3, rfl, -, e3⟩ := takeRow_reads (operandSize_ne _ _) _ _ _ _ _ _ h3
    unfold decode
    rw [List.append_assoc, List.cons_append, e1, Parse.bind_ok, ← List.cons_append, hp2]
    simp only [List.append_assoc]
    rw [e2, Parse.bind_ok, if_neg hr, e3]

/-! ## A rejection does not depend on the bytes after it -/

/-- A parser that rejects bytes rejects them the same whatever follows. -/
def Parse.Stable {α : Type} (f : List Byte → Parse α) : Prop :=
  ∀ bs more r, f bs = .reject r → f (bs ++ more) = .reject r

theorem Parse.stable_ok {α : Type} (a : α) : Parse.Stable (fun bs => .ok a bs) := fun _ _ _ e => by cases e

theorem Parse.stable_reject {α : Type} (r : Reject) : Parse.Stable (α := α) (fun _ => .reject r) :=
  fun _ _ _ e => e

/-- One parser after another. -/
theorem Parse.Stable.bind {α β : Type} {f : List Byte → Parse α} {g : α → List Byte → Parse β} {P : α → Nat → Prop}
    (hf : Parse.Stable f) (rf : Parse.Reads f P) (hg : ∀ a, Parse.Stable (g a)) :
    Parse.Stable (fun bs => (f bs).bind g) := by
  intro bs more r e
  cases h : f bs with
  | short => simp [h] at e
  | reject r' =>
    simp only [h, Parse.bind_reject] at e
    simp only [hf bs more r' h, Parse.bind_reject, e]
  | ok a rest =>
    obtain ⟨pre, rfl, -, m⟩ := rf _ _ _ h
    simp only [h, Parse.bind_ok] at e
    simp only [List.append_assoc, m, Parse.bind_ok, hg a _ _ _ e]

/-- A parser with its value changed. -/
theorem Parse.Stable.map {α β : Type} {f : List Byte → Parse α} (hf : Parse.Stable f) (g : α → β) :
    Parse.Stable (fun bs => (f bs).map g) := by
  intro bs more r e
  cases h : f bs with
  | short => simp [h, Parse.map] at e
  | ok a rest => simp [h] at e
  | reject r' =>
    simp only [h, Parse.map, Parse.bind_reject] at e
    simp only [hf bs more r' h, Parse.map, Parse.bind_reject, e]

theorem take8_stable : Parse.Stable take8 := by
  rintro (_ | ⟨b, bs⟩) more r e <;> cases e

theorem take16_stable : Parse.Stable take16 := by
  rintro (_ | ⟨b, _ | ⟨b', bs⟩⟩) more r e <;> cases e

theorem take32_stable : Parse.Stable take32 := by
  rintro (_ | ⟨b0, _ | ⟨b1, _ | ⟨b2, _ | ⟨b3, bs⟩⟩⟩⟩) more r e <;> cases e

theorem takeDisp16_stable (mod : BitVec 2) : Parse.Stable (takeDisp16 mod) := by
  unfold takeDisp16
  split
  · exact Parse.stable_ok _
  · split
    · exact take8_stable.map _
    · exact take16_stable.map _

theorem takeDisp32_stable (mod : BitVec 2) : Parse.Stable (takeDisp32 mod) := by
  unfold takeDisp32
  split
  · exact Parse.stable_ok _
  · split
    · exact take8_stable.map _
    · exact take32_stable.map _

theorem takeMem16_stable (mod : BitVec 2) (rm : BitVec 3) : Parse.Stable (takeMem16 mod rm) := by
  unfold takeMem16
  split
  · exact take16_stable.map _
  · exact (takeDisp16_stable mod).map _

theorem takeMem32_stable (mod : BitVec 2) (rm : BitVec 3) : Parse.Stable (takeMem32 mod rm) := by
  unfold takeMem32
  split
  · refine take8_stable.bind take8_reads fun s => ?_
    dsimp only
    split
    · exact Parse.stable_reject _
    · split
      · exact take32_stable.map _
      · exact (takeDisp32_stable mod).map _
  · split
    · exact take32_stable.map _
    · exact (takeDisp32_stable mod).map _

theorem takeRM_stable (a : AddrSize) (sel : BitVec 3 → Bool) : Parse.Stable (takeRM a sel) := by
  refine take8_stable.bind take8_reads fun m => ?_
  split
  · refine Parse.Stable.map ?_ _
    unfold takeOperand
    split
    · exact Parse.stable_ok _
    · cases a
      · exact (takeMem16_stable _ _).map _
      · exact (takeMem32_stable _ _).map _
  · exact Parse.stable_reject _

theorem takeImm_stable (o : Size) (w : Bool) : Parse.Stable (takeImm o w) := by
  unfold takeImm
  cases w
  · exact take8_stable.map _
  · cases o
    · exact take16_stable.map _
    · exact take16_stable.map _
    · exact take32_stable.map _

theorem takeRel_stable (o : Size) : Parse.Stable (takeRel o) := by
  unfold takeRel
  cases o
  · exact take16_stable.map _
  · exact take16_stable.map _
  · exact take32_stable.map _

theorem takeOpcode_stable : Parse.Stable takeOpcode := by
  refine take8_stable.bind take8_reads fun b => ?_
  split
  · refine take8_stable.bind take8_reads fun b2 => ?_
    split
    · exact Parse.stable_ok _
    · exact Parse.stable_reject _
  · split
    · exact Parse.stable_ok _
    · exact Parse.stable_reject _

theorem takeRow_stable (o : Size) (a : AddrSize) (p : Prefixes) (op : Opcode) : Parse.Stable (takeRow o a p op) := by
  cases op with
  | cmc | pushFs | nop => exact Parse.stable_ok _
  | addGroup s w =>
    unfold takeRow
    dsimp only
    split
    · exact Parse.stable_reject _
    · refine (takeRM_stable a _).bind (takeRM_reads a _) fun x => ?_
      cases s
      · exact (takeImm_stable o w).map _
      · exact take8_stable.map _
  | or w => exact (takeImm_stable o w).map _
  | movRegImm w r => exact (takeImm_stable o w).map _
  | movSregRm16 | setcc | group0F01 => exact (takeRM_stable a _).map _
  | jmpRel8 | jccRel8 | movFromCr | movToCr => exact take8_stable.map _
  | jccRel1632 c => exact (takeRel_stable o).map _

theorem scanMarks_stable (m : Marks) : Parse.Stable (scanMarks m) := by
  intro bs more r e
  induction bs generalizing m with
  | nil => cases e
  | cons b bs ih =>
    cases h : Mark.ofByte b with
    | none => rw [scanMarks_stop m bs h] at e; cases e
    | some k =>
      cases hm : m.add k with
      | none => rw [scanMarks_doubled bs h hm] at e; rw [List.cons_append, scanMarks_doubled _ h hm, e]
      | some m' => rw [scanMarks_cons bs h hm] at e; rw [List.cons_append, scanMarks_cons _ h hm, ih m' e]

/-- Bytes that are rejected are rejected the same whatever follows them. -/
theorem decode_append_reject (d : Bool) : Parse.Stable (decode d) := by
  intro bs more r e
  unfold decode at e ⊢
  cases h : scanMarks {} bs with
  | short => simp [h] at e
  | reject r' =>
    simp only [h, Parse.bind_reject] at e
    simp only [scanMarks_stable _ _ more _ h, Parse.bind_reject, e]
  | ok m rest =>
    obtain ⟨pre, b, r1, rfl, rfl, -, -, e1⟩ := scanMarks_reads h
    rw [h, Parse.bind_ok] at e
    rw [List.append_assoc, List.cons_append, e1, Parse.bind_ok, ← List.cons_append]
    refine Parse.Stable.bind takeOpcode_stable takeOpcode_reads (fun op => ?_) _ more _ e
    split
    · exact Parse.stable_reject _
    · exact takeRow_stable _ _ _ _

end Sys2Proof
end

