-- ==== Sys2Proof/Laws/Memory.lean ====
section
/-! SUPPORT. Physical memory: reading after writing, the canonical form and that every operation keeps it, little-endian
accesses. -/

namespace Sys2Proof.Machine.Memory

/-! ## One byte -/

theorem wfFrom_cons {lo : Nat} {c : Host.Cell} {m : Memory} :
    wfFrom lo (c :: m) = true ↔ lo ≤ c.1 ∧ c.1 < 2 ^ 32 ∧ c.2 ≠ unlisted ∧ wfFrom (c.1 + 1) m = true := by
  simp [wfFrom, and_assoc]

/-- A canonical memory stays canonical under a lower bound. -/
theorem wfFrom_mono {lo lo' : Nat} {m : Memory} (h : wfFrom lo m = true) (hl : lo' ≤ lo) : wfFrom lo' m = true := by
  cases m with
  | nil => rfl
  | cons c m => rw [wfFrom_cons] at h ⊢; exact ⟨by omega, h.2⟩

/-- Nothing is listed below the first address of a canonical memory. -/
theorem read_below {lo a : Nat} {m : Memory} (h : wfFrom lo m = true) (ha : a < lo) : m.read a = unlisted := by
  induction m generalizing lo with
  | nil => rfl
  | cons c m ih =>
    rw [wfFrom_cons] at h
    rw [read, if_neg (by omega)]
    exact ih h.2.2.2 (by omega)

/-- Reading after writing one byte. -/
theorem read_write {lo : Nat} {m : Memory} (h : wfFrom lo m = true) (a : Nat) (b : Byte) (a' : Nat) :
    (m.write a b).read a' = if a' = a then b else m.read a' := by
  induction m generalizing lo with
  | nil =>
    unfold write
    split <;> rename_i hb
    · split <;> simp_all [read]
    · by_cases e : a' = a
      · simp [read, e]
      · simp [read, e, Ne.symm e]
  | cons c m ih =>
    rw [wfFrom_cons] at h
    have below : ∀ a, a < c.1 + 1 → read m a = unlisted := fun a ha => read_below h.2.2.2 ha
    unfold write
    split
    · rename_i hlt
      rw [read, ih h.2.2.2, read]
      by_cases e : c.1 = a'
      · simp [e]; omega
      · simp [e]
    · rename_i hge
      split
      · rename_i heq
        split <;> rename_i hb
        · by_cases e : a' = a
          · rw [if_pos e, hb, e]; exact below a (by omega)
          · rw [if_neg e, read, if_neg (by omega)]
        · by_cases e : a' = a
          · simp [read, e]
          · rw [read, if_neg (by simpa using Ne.symm e), if_neg e, read, if_neg (by omega)]
      · rename_i hne
        split <;> rename_i hb
        · by_cases e : a' = a
          · rw [if_pos e, hb, e, read, if_neg (by omega)]; exact below a (by omega)
          · rw [if_neg e]
        · by_cases e : a' = a
          · simp [read, e]
          · rw [read, if_neg (by simpa using Ne.symm e), if_neg e]

/-- Writing one byte keeps the canonical form. -/
theorem wfFrom_write {lo : Nat} {m : Memory} (h : wfFrom lo m = true) {a : Nat} (b : Byte) (hl : lo ≤ a)
    (ha : a < 2 ^ 32) : wfFrom lo (m.write a b) = true := by
  induction m generalizing lo with
  | nil =>
    unfold write
    split <;> rename_i hb
    · rfl
    · exact wfFrom_cons.2 ⟨hl, ha, hb, rfl⟩
  | cons c m ih =>
    rw [wfFrom_cons] at h
    unfold write
    split
    · exact wfFrom_cons.2 ⟨h.1, h.2.1, h.2.2.1, ih h.2.2.2 (by omega)⟩
    · split
      · rename_i heq
        split <;> rename_i hb
        · exact wfFrom_mono h.2.2.2 (by omega)
        · exact wfFrom_cons.2 ⟨hl, ha, hb, heq ▸ h.2.2.2⟩
      · split <;> rename_i hb
        · exact wfFrom_cons.2 h
        · exact wfFrom_cons.2 ⟨hl, ha, hb, wfFrom_cons.2 ⟨by omega, h.2⟩⟩

/-- The memory of the reset state is canonical. -/
theorem wf_nil : wf [] = true := rfl

/-! ## Several bytes -/

theorem wf_writeLe {m : Memory} (h : m.wf = true) (a : Word) (n v : Nat) : (m.writeLe a n v).wf = true := by
  induction n generalizing m a v with
  | zero => exact h
  | succ n ih => exact ih (wfFrom_write h _ (Nat.zero_le _) a.isLt) _ _

theorem wf_writeBytes {m : Memory} (h : m.wf = true) (a : Word) (bs : List Byte) : (m.writeBytes a bs).wf = true := by
  induction bs generalizing m a with
  | nil => exact h
  | cons b bs ih => exact ih (wfFrom_write h _ (Nat.zero_le _) a.isLt) _

/-- The addresses of an access: its first byte, then those of the rest. -/
theorem mem_accessAddrs_succ (a : Word) (n b : Nat) :
    b ∈ accessAddrs a (n + 1) ↔ b = a.toNat ∨ b ∈ accessAddrs (a + 1) n := by
  simp only [accessAddrs, List.mem_map, List.mem_range]
  constructor
  · rintro ⟨k, hk, rfl⟩
    cases k with
    | zero => left; simp
    | succ k => right; exact ⟨k, by omega, by congr 1; rw [BitVec.add_assoc]; congr 1; simp [BitVec.ofNat_add, BitVec.add_comm]⟩
  · rintro (rfl | ⟨k, hk, rfl⟩)
    · exact ⟨0, by omega, by simp⟩
    · exact ⟨k + 1, by omega, by congr 1; rw [BitVec.add_assoc]; congr 1; simp [BitVec.ofNat_add, BitVec.add_comm]⟩

/-- A write leaves every byte outside its addresses alone. -/
theorem read_writeLe_of_notMem {m : Memory} (h : m.wf = true) (a : Word) (n v : Nat) {b : Nat}
    (hb : b ∉ accessAddrs a n) : (m.writeLe a n v).read b = m.read b := by
  induction n generalizing m a v with
  | zero => rfl
  | succ n ih =>
    rw [mem_accessAddrs_succ, not_or] at hb
    rw [writeLe, ih (wfFrom_write h _ (Nat.zero_le _) a.isLt) _ _ hb.2, read_write h, if_neg hb.1]

/-- The first byte of a longer access is not among the rest, short of a full wrap. -/
theorem notMem_rest (a : Word) {n : Nat} (hn : n < 2 ^ 32) : a.toNat ∉ accessAddrs (a + 1) n := by
  simp only [accessAddrs, List.mem_map, List.mem_range, not_exists, not_and]
  intro k hk e
  have := a.isLt
  simp [BitVec.toNat_add] at e
  omega

/-- Byte `k` of a little-endian write. -/
theorem read_writeLe {m : Memory} (h : m.wf = true) (a : Word) (n v : Nat) (hn : n ≤ 2 ^ 32) {k : Nat} (hk : k < n) :
    (m.writeLe a n v).read (a + BitVec.ofNat 32 k).toNat = BitVec.ofNat 8 (v / 256 ^ k) := by
  induction n generalizing m a v k with
  | zero => omega
  | succ n ih =>
    have h' := wfFrom_write h (BitVec.ofNat 8 v) (Nat.zero_le _) a.isLt
    cases k with
    | zero =>
      rw [writeLe, show BitVec.ofNat 32 0 = 0#32 from rfl, BitVec.add_zero,
        read_writeLe_of_notMem h' (a + 1) n _ (notMem_rest a (by omega)), read_write h, if_pos rfl]
      simp
    | succ k =>
      have e : a + BitVec.ofNat 32 (k + 1) = a + 1 + BitVec.ofNat 32 k := by
        rw [BitVec.add_assoc]; congr 1; simp [BitVec.ofNat_add, BitVec.add_comm]
      rw [writeLe, e, ih h' _ _ (by omega) (by omega), Nat.div_div_eq_div_mul, Nat.pow_succ, Nat.mul_comm]

/-- A little-endian read is a function of the bytes it reads. -/
theorem readLe_congr {m m' : Memory} (a : Word) (n : Nat)
    (h : ∀ b ∈ accessAddrs a n, m'.read b = m.read b) : m'.readLe a n = m.readLe a n := by
  induction n generalizing a with
  | zero => rfl
  | succ n ih =>
    rw [readLe, readLe, h _ ((mem_accessAddrs_succ _ _ _).2 (.inl rfl)),
      ih _ fun b hb => h b ((mem_accessAddrs_succ _ _ _).2 (.inr hb))]

/-- Reading what was written. -/
theorem readLe_writeLe {m : Memory} (h : m.wf = true) (a : Word) (n v : Nat) (hn : n ≤ 2 ^ 32) :
    (m.writeLe a n v).readLe a n = v % 256 ^ n := by
  induction n generalizing m a v with
  | zero => simp [readLe, Nat.mod_one]
  | succ n ih =>
    have h' := wfFrom_write h (BitVec.ofNat 8 v) (Nat.zero_le _) a.isLt
    rw [readLe, writeLe, ih h' _ _ (by omega), read_writeLe_of_notMem h' _ _ _ (notMem_rest a (by omega)),
      read_write h, if_pos rfl, BitVec.toNat_ofNat, Nat.pow_succ 256, Nat.mul_comm (256 ^ n), Nat.mod_mul]

/-- A little-endian value has no more bytes than were read. -/
theorem readLe_lt (m : Memory) (a : Word) (n : Nat) : m.readLe a n < 256 ^ n := by
  induction n generalizing a with
  | zero => simp [readLe]
  | succ n ih =>
    have := ih (a + 1)
    have := (m.read a.toNat).isLt
    rw [readLe, Nat.pow_succ]
    omega

end Sys2Proof.Machine.Memory
end

