-- ==== Sys2Proof/Laws/Regs.lean ====
section
/-! SUPPORT. Reading and writing general and segment registers. -/

namespace Sys2Proof.Machine

@[simp] theorem Regs.get_set (g : Regs) (r : Reg) (v : Word) (q : Reg) :
    (g.set r v).get q = if q = r then v else g.get q := by
  cases r <;> cases q <;> rfl

@[simp] theorem SegRegs.get_set (g : SegRegs) (k : SReg) (v : SegReg) (j : SReg) :
    (g.set k v).get j = if j = k then v else g.get j := by
  cases k <;> cases j <;> rfl

/-- A segment register other than CS leaves CS alone. -/
theorem SegRegs.set_cs {k : SReg} (g : SegRegs) (v : SegReg) (h : k ≠ .cs) : (g.set k v).cs = g.cs := by
  cases k <;> first | rfl | exact absurd rfl h

theorem State.x_setX (s : State) (r : Reg) (v : Word) (q : Reg) :
    (s.setX r v).x q = if q = r then v else s.x q := by
  simp [State.x]

theorem State.seg_setSeg (s : State) (k : SReg) (v : SegReg) (j : SReg) :
    (s.setSeg k v).seg j = if j = k then v else s.seg j := by
  simp [State.seg]

/-- A sub-register lies inside its 32-bit register (R12). -/
theorem regLow_le (c : Reg) (z : Size) : regLow c z + z.bits ≤ 32 := by
  cases c <;> cases z <;> decide

/-- The register written is the one read back (R12). -/
theorem State.reg_setReg (s : State) (c : Reg) (z : Size) (v : BitVec z.bits) : (s.setReg c z v).reg c z = v := by
  simp only [State.reg, State.setReg, State.x_setX, if_true]
  exact Word.extract_insert _ _ _ (regLow_le c z)

/-- A 32-bit register write. -/
theorem State.setReg_32 (s : State) (c : Reg) (v : BitVec 32) : s.setReg c .b32 v = s.setX c v := by
  cases c <;> simp only [State.setReg, regHome, regLow] <;> exact congrArg _ (Word.insert_zero_32 _ _)

/-- A 16-bit register write keeps bits 31:16 (R12). -/
theorem State.setReg_16 (s : State) (c : Reg) (v : BitVec 16) :
    s.setReg c .b16 v = s.setX c ((s.x c).extractLsb' 16 16 ++ v) := by
  cases c <;> simp only [State.setReg, regHome, regLow] <;> exact congrArg _ (Word.insert_zero_16 _ _)

/-- Every other 32-bit register is unchanged. -/
theorem State.x_setReg_of_ne (s : State) (c : Reg) (z : Size) (v : BitVec z.bits) {q : Reg} (h : q ≠ regHome c z) :
    (s.setReg c z v).x q = s.x q := by
  simp [State.setReg, State.x_setX, h]

end Sys2Proof.Machine
end

