-- ==== Sys2Proof/Laws/Ops.lean ====
section
/-! SUPPORT. What each shared operation can do: when it goes on, and with what. Cite these instead of unfolding. -/

namespace Sys2Proof.Machine

/-! ## Sequencing -/

theorem exists_unit {P : Unit → Prop} : (∃ u, P u) ↔ P () := ⟨fun ⟨(), h⟩ => h, fun h => ⟨(), h⟩⟩

/-- A sequence goes on exactly where its first part goes on and its second part does after it. -/
theorem bind_ok {α β : Type} {x : Except Stop α} {f : α → Except Stop β} {b : β} :
    x >>= f = .ok b ↔ ∃ a, x = .ok a ∧ f a = .ok b := by
  cases x <;> simp [bind, Except.bind]

/-- A sequence stops exactly where its first part stops, or its second part after it. -/
theorem bind_error {α β : Type} {x : Except Stop α} {f : α → Except Stop β} {o : Stop} :
    x >>= f = .error o ↔ x = .error o ∨ ∃ a, x = .ok a ∧ f a = .error o := by
  cases x <;> simp [bind, Except.bind]

@[simp] theorem bind_ok_left {α β : Type} (a : α) (f : α → Except Stop β) : (.ok a >>= f) = f a := rfl

@[simp] theorem bind_error_left {α β : Type} (o : Stop) (f : α → Except Stop β) : (.error o >>= f) = .error o := rfl

@[simp] theorem pure_ok {α : Type} (a : α) : (pure a : Except Stop α) = .ok a := rfl

@[simp] theorem require_true (o : Stop) : require true o = .ok () := rfl

@[simp] theorem require_false (o : Stop) : require false o = .error o := rfl

theorem require_ok {c : Bool} {o : Stop} {u : Unit} : require c o = .ok u ↔ c = true := by cases c <;> simp

theorem require_error {c : Bool} {o o' : Stop} : require c o = .error o' ↔ c = false ∧ o = o' := by cases c <;> simp

/-- What an instruction's outcome can be as a next state: its effect, or an exception taken in the state it began in. -/
theorem settle_next {s t : State} {x : Except Stop State} :
    settle s x = .next t ↔ x = .ok t ∨ ∃ e c, x = .error (.exn e c) ∧ t = s.takeException e c := by
  rcases x with (⟨e, c⟩ | f | r) | t' <;> simp [settle, eq_comm]

@[simp] theorem settle_ok (s t : State) : settle s (.ok t) = .next t := rfl

@[simp] theorem settle_exn (s : State) (e : Exception) (c : Option (BitVec 16)) :
    settle s (.error (.exn e c)) = .next (s.takeException e c) := rfl

/-! ## Checks -/

theorem noLock_ok {p : Prefixes} {u : Unit} : noLock p = .ok u ↔ p.lock = false := by simp [noLock, require_ok]

theorem privileged_ok {s : State} {u : Unit} :
    s.privileged = .ok u ↔ s.pe = false ∨ (s.cpl = 0 ∧ s.vm = false) := by
  simp [State.privileged, require_ok]

theorem checkCr_ok {s : State} {p : Prefixes} {cr : BitVec 3} {u : Unit} :
    s.checkCr p cr = .ok u ↔ p.lock = false ∧ (s.pe = false ∨ (s.cpl = 0 ∧ s.vm = false)) ∧ cr = 0 := by
  simp [State.checkCr, bind_ok, noLock_ok, privileged_ok, require_ok]

/-- When an access passes its checks (R48, R52, R56). -/
theorem checkAccess_ok {s : State} {k : SReg} {off : Word} {n : Nat} {w : Bool} {u : Unit} :
    s.checkAccess k off n w = .ok u ↔
      (s.seg k).valid = true ∧ (s.pe = false ∨ (s.seg k).attr.expandDown = false) ∧
        (s.pe = false ∨ (s.seg k).attr.allows w = true) ∧ off.toNat + n ≤ (s.seg k).limit.toNat + 1 := by
  simp only [State.checkAccess, bind_ok, require_ok, exists_unit, SegReg.inLimit, Bool.not_eq_true', Bool.or_eq_true,
    decide_eq_true_eq]

/-- A check of an access can only stop with the fault of its segment register or the refusal of an expand-down segment. -/
theorem checkAccess_error {s : State} {k : SReg} {off : Word} {n : Nat} {w : Bool} {o : Stop}
    (h : s.checkAccess k off n w = .error o) : o = accessFault k ∨ o = .refuse .expandDown := by
  simp only [State.checkAccess, bind_error, require_error] at h
  obtain ⟨-, rfl⟩ | ⟨-, -, ⟨-, rfl⟩ | ⟨-, -, ⟨-, rfl⟩ | ⟨-, -, -, rfl⟩⟩⟩ := h <;> simp

theorem checkPopulated_ok {s : State} {a : Word} {n : Nat} {u : Unit} :
    s.checkPopulated a n = .ok u ↔ s.backed a n := by
  unfold State.checkPopulated State.backed
  split <;> rename_i h
  · simp only [reduceCtorEq, false_iff]
    intro hb
    have := List.find?_some h
    simp [hb _ (List.mem_of_find?_eq_some h)] at this
  · simpa using h

theorem checkText_ok {s : State} {a : Word} {n : Nat} {u : Unit} :
    s.checkText a n = .ok u ↔ ∀ b ∈ accessAddrs a n, s.isText b = false := by
  unfold State.checkText
  split <;> rename_i h
  · simp only [reduceCtorEq, false_iff]
    intro hb
    have := List.find?_some h
    simp [hb _ (List.mem_of_find?_eq_some h)] at this
  · simpa using h

/-- A check of MEM_MAP raises no exception. -/
theorem checkPopulated_error {s : State} {a : Word} {n : Nat} {o : Stop} (h : s.checkPopulated a n = .error o) :
    ∃ k, o = .fault (.unpopulated k) := by
  unfold State.checkPopulated at h
  split at h <;> simp at h
  exact ⟨_, h.symm⟩

theorem checkText_error {s : State} {a : Word} {n : Nat} {o : Stop} (h : s.checkText a n = .error o) :
    ∃ k, o = .refuse (.storeToText k) := by
  unfold State.checkText at h
  split at h <;> simp at h
  exact ⟨_, h.symm⟩

/-! ## Memory -/

/-- What a memory read gives (R47). -/
theorem memRead_ok {s : State} {a : Word} {n : Nat} {v : BitVec (8 * n)} :
    s.memRead a n = .ok v ↔ s.backed a n ∧ v = BitVec.ofNat (8 * n) (s.mem.readLe a n) := by
  simp only [State.memRead, bind_ok, checkPopulated_ok, exists_unit, pure_ok, Except.ok.injEq, eq_comm (a := v)]

/-- What a memory write does (R47). -/
theorem memWrite_ok {s t : State} {a : Word} {n : Nat} {v : BitVec (8 * n)} :
    s.memWrite a n v = .ok t ↔ s.storable a n ∧ t = s.setMem (s.mem.writeLe a n v.toNat) := by
  simp only [State.memWrite, bind_ok, checkPopulated_ok, checkText_ok, pure_ok, Except.ok.injEq, State.backed,
    State.storable]
  constructor
  · rintro ⟨-, h1, -, h2, rfl⟩; exact ⟨fun b hb => ⟨h1 b hb, h2 b hb⟩, rfl⟩
  · rintro ⟨h, rfl⟩; exact ⟨(), fun b hb => (h b hb).1, (), fun b hb => (h b hb).2, rfl⟩

theorem memRead_error {s : State} {a : Word} {n : Nat} {o : Stop} (h : s.memRead a n = .error o) :
    ∃ k, o = .fault (.unpopulated k) := by
  simp only [State.memRead, bind_error, pure_ok, reduceCtorEq, and_false, exists_false, or_false] at h
  exact checkPopulated_error h

theorem memWrite_error {s : State} {a : Word} {n : Nat} {v : BitVec (8 * n)} {o : Stop}
    (h : s.memWrite a n v = .error o) : (∃ k, o = .fault (.unpopulated k)) ∨ ∃ k, o = .refuse (.storeToText k) := by
  simp only [State.memWrite, bind_error, pure_ok, reduceCtorEq, and_false, exists_false, or_false] at h
  obtain h | ⟨-, -, h⟩ := h
  · exact .inl (checkPopulated_error h)
  · exact .inr (checkText_error h)

/-- What a segmented read gives (R47). -/
theorem segRead_ok {s : State} {k : SReg} {off : Word} {n : Nat} {v : BitVec (8 * n)} :
    s.segRead k off n = .ok v ↔
      s.checkAccess k off n false = .ok () ∧ s.memRead ((s.seg k).base + off) n = .ok v := by
  simp only [State.segRead, bind_ok, exists_unit]

/-- What a segmented write does (R47). -/
theorem segWrite_ok {s t : State} {k : SReg} {off : Word} {n : Nat} {v : BitVec (8 * n)} :
    s.segWrite k off n v = .ok t ↔
      s.checkAccess k off n true = .ok () ∧ s.memWrite ((s.seg k).base + off) n v = .ok t := by
  simp only [State.segWrite, bind_ok, exists_unit]

/-! ## Next instruction -/

/-- What moving to the next instruction does (R15). -/
theorem advance_ok {s t : State} {len : Nat} {l : Bool} :
    s.advance len l = .ok t ↔
      s.eip.toNat + len < 2 ^ 32 ∧ t = (s.setEip (s.eip + BitVec.ofNat 32 len)).setBusLock l := by
  simp only [State.advance, bind_ok, require_ok, exists_unit, pure_ok, Except.ok.injEq, decide_eq_true_eq,
    eq_comm (a := t)]

theorem advance_error {s : State} {len : Nat} {l : Bool} {o : Stop} :
    s.advance len l = .error o ↔ 2 ^ 32 ≤ s.eip.toNat + len ∧ o = .fault .eipPastTop := by
  simp [State.advance, bind_error, require_error, eq_comm (a := o)]

/-- What a taken jump does (R130). -/
theorem jump_ok {s t : State} {len n : Nat} {o : Size} {rel : BitVec n} :
    s.jump len o rel = .ok t ↔
      (s.jumpTarget len o rel).toNat ≤ s.segs.cs.limit.toNat ∧
        t = (s.setEip (s.jumpTarget len o rel)).setBusLock false := by
  simp only [State.jump, bind_ok, require_ok, exists_unit, pure_ok, Except.ok.injEq, decide_eq_true_eq,
    eq_comm (a := t)]

theorem jump_error {s : State} {len n : Nat} {z : Size} {rel : BitVec n} {o : Stop} :
    s.jump len z rel = .error o ↔
      s.segs.cs.limit.toNat < (s.jumpTarget len z rel).toNat ∧ o = .gp 0 := by
  simp [State.jump, bind_error, require_error, eq_comm (a := o)]

/-- What a conditional jump does (R131). -/
theorem jumpIf_ok {s t : State} {c : Cond} {len n : Nat} {z : Size} {rel : BitVec n}
    (h : s.jumpIf c len z rel = .ok t) : ∃ v, t = (s.setEip v).setBusLock false := by
  unfold State.jumpIf at h
  split at h
  · exact ⟨_, (jump_ok.1 h).2⟩
  · exact ⟨_, (advance_ok.1 h).2⟩

/-! ## Segment loads -/

/-- What setting the accessed bit does (R46, R123). -/
theorem markAccessed_ok {s t : State} {a : Word} {d : SegAttr} :
    s.markAccessed a d = .ok t ↔
      (d.a = true ∧ t = s) ∨
        (d.a = false ∧ s.storable (a + 5) 1 ∧ t = s.setMem (s.mem.writeLe (a + 5) 1 (d.access ||| 1).toNat)) := by
  unfold State.markAccessed
  cases d.a
  · simp only [Bool.false_eq_true, if_false, memWrite_ok, false_and, false_or, true_and]
  · simp [eq_comm (a := t)]

/-- What loading a segment register can do (R123): one segment register changes, and at most the byte of memory that
holds the accessed bit. -/
theorem loadSeg_ok {s t : State} {k : SReg} {v : Selector} (h : s.loadSeg k v = .ok t) :
    (s.pe = false ∧ t = s.loadSegReal k v) ∨
    (s.pe = true ∧ selIndex v = 0 ∧ selTable v = false ∧ k ≠ .ss ∧ t = s.loadSegNull k v) ∨
    (s.pe = true ∧ selTable v = false ∧ 8 * selIndex v + 7 ≤ s.gdtr.limit.toNat ∧
      ∃ d : BitVec 64, s.memRead (s.descAddr (selIndex v)) 8 = .ok d ∧
        checkDescriptor k v s.cpl (descAttr d) = .ok () ∧
        ∃ u, s.markAccessed (s.descAddr (selIndex v)) (descAttr d) = .ok u ∧ t = u.setSeg k (descSeg v d)) := by
  unfold State.loadSeg at h
  split at h
  · rename_i hp
    left
    simp only [pure_ok, Except.ok.injEq] at h
    exact ⟨by simpa using hp, h.symm⟩
  · rename_i hp
    have hp : s.pe = true := by simpa using hp
    split at h
    · rename_i hn
      right; left
      simp only [bind_ok, require_ok, pure_ok, Except.ok.injEq] at h
      obtain ⟨-, hk, rfl⟩ := h
      exact ⟨hp, hn.1, by simpa using hn.2, by simpa using hk, rfl⟩
    · right; right
      simp only [bind_ok, require_ok, pure_ok, Except.ok.injEq] at h
      obtain ⟨-, ht, -, hl, d, hd, ⟨⟩, hc, t', hw, rfl⟩ := h
      exact ⟨hp, by simpa using ht, by simpa using hl, d, hd, hc, t', hw, rfl⟩

/-- What pushing does (R124): the bytes below the stack pointer and the stack pointer. -/
theorem push_ok {s t : State} {n : Nat} {v : BitVec (8 * n)} :
    s.push n v = .ok t ↔
      ∃ u, s.segWrite .ss ((s.pushPtr s.stackSize n).setWidth 32) n v = .ok u ∧
        t = u.setReg .esp s.stackSize (s.pushPtr s.stackSize n) := by
  simp only [State.push, State.pushWith, bind_ok, pure_ok, Except.ok.injEq, eq_comm (a := t)]

end Sys2Proof.Machine
end

