-- ==== Sys2Proof/Laws/Exec.lean ====
section
/-! SUPPORT. What an instruction can do: which exceptions an operation raises, what every operation keeps, and one lemma
per meaning that says what its next states are. -/

namespace Sys2Proof.Machine

/-! ## Which exceptions are raised -/

/-- The exceptions the rules raise, each with its error code or without one (R151, R152). -/
def Exception.Raisable (e : Exception) (c : Option (BitVec 16)) : Prop :=
  (e = .invalidOpcode ∧ c = none) ∨
    ((e = .generalProtection ∨ e = .stackFault ∨ e = .segmentNotPresent) ∧ c.isSome = true)

/-- An operation that raises none but such exceptions. -/
structure Regular {α : Type} (x : Except Stop α) : Prop where
  raises : ∀ e c, x = .error (.exn e c) → Exception.Raisable e c

theorem Regular.bind {α β : Type} {x : Except Stop α} {f : α → Except Stop β} (hx : Regular x)
    (hf : ∀ a, x = .ok a → Regular (f a)) : Regular (x >>= f) := by
  refine ⟨fun e c h => ?_⟩
  obtain h | ⟨a, ha, h⟩ := bind_error.1 h
  · exact hx.raises e c h
  · exact (hf a ha).raises e c h

theorem regular_ok {α : Type} (a : α) : Regular (.ok a : Except Stop α) := ⟨fun _ _ h => by cases h⟩

theorem regular_invalidOpcode {α : Type} : Regular (.error .invalidOpcode : Except Stop α) := by
  exact ⟨fun e c h => by cases h; exact .inl ⟨rfl, rfl⟩⟩

theorem regular_require (b : Bool) {o : Stop} (h : Regular (.error o : Except Stop Unit)) : Regular (require b o) := by
  cases b
  · exact h
  · exact regular_ok _

theorem regular_gp {α : Type} (v : BitVec 16) : Regular (.error (.gp v) : Except Stop α) := by
  exact ⟨fun e c h => by cases h; exact .inr ⟨.inl rfl, rfl⟩⟩

theorem regular_sf {α : Type} (v : BitVec 16) : Regular (.error (.sf v) : Except Stop α) := by
  exact ⟨fun e c h => by cases h; exact .inr ⟨.inr (.inl rfl), rfl⟩⟩

theorem regular_np {α : Type} (v : BitVec 16) : Regular (.error (.np v) : Except Stop α) := by
  exact ⟨fun e c h => by cases h; exact .inr ⟨.inr (.inr rfl), rfl⟩⟩

theorem regular_fault {α : Type} (f : Fault) : Regular (.error (.fault f) : Except Stop α) := ⟨fun _ _ h => by cases h⟩

theorem regular_refuse {α : Type} (r : Refusal) : Regular (.error (.refuse r) : Except Stop α) := ⟨fun _ _ h => by cases h⟩

theorem regular_accessFault {α : Type} (k : SReg) : Regular (.error (accessFault k) : Except Stop α) := by
  unfold accessFault
  split
  · exact regular_sf _
  · exact regular_gp _

theorem regular_noLock (p : Prefixes) : Regular (noLock p) := regular_require _ regular_invalidOpcode

theorem regular_privileged (s : State) : Regular s.privileged := regular_require _ (regular_gp _)

theorem regular_checkAccess (s : State) (k : SReg) (off : Word) (n : Nat) (w : Bool) :
    Regular (s.checkAccess k off n w) := by
  refine ⟨fun e c h => ?_⟩
  obtain h | h := checkAccess_error h
  · exact (regular_accessFault (α := Unit) k).raises e c (congrArg _ h.symm)
  · cases h

theorem regular_memRead (s : State) (a : Word) (n : Nat) : Regular (s.memRead a n) := by
  refine ⟨fun e c h => ?_⟩
  obtain ⟨k, h⟩ := memRead_error h
  cases h

theorem regular_memWrite (s : State) (a : Word) (n : Nat) (v : BitVec (8 * n)) : Regular (s.memWrite a n v) := by
  refine ⟨fun e c h => ?_⟩
  obtain ⟨k, h⟩ | ⟨k, h⟩ := memWrite_error h <;> cases h

theorem regular_segRead (s : State) (k : SReg) (off : Word) (n : Nat) : Regular (s.segRead k off n) :=
  (regular_checkAccess ..).bind fun _ _ => regular_memRead ..

theorem regular_segWrite (s : State) (k : SReg) (off : Word) (n : Nat) (v : BitVec (8 * n)) :
    Regular (s.segWrite k off n v) :=
  (regular_checkAccess ..).bind fun _ _ => regular_memWrite ..

theorem regular_checkDescriptor (k : SReg) (v : Selector) (cpl : BitVec 2) (a : SegAttr) :
    Regular (checkDescriptor k v cpl a) := by
  unfold checkDescriptor
  have last : Regular (require (a.code || !a.b2) (.refuse .expandDown)) := regular_require _ (regular_refuse _)
  split
  · exact (regular_require _ (regular_gp _)).bind fun _ _ =>
      (regular_require _ (regular_sf _)).bind fun _ _ => last
  · exact (regular_require _ (regular_gp _)).bind fun _ _ =>
      (regular_require _ (regular_gp _)).bind fun _ _ => (regular_require _ (regular_np _)).bind fun _ _ => last

theorem regular_markAccessed (s : State) (a : Word) (d : SegAttr) : Regular (s.markAccessed a d) := by
  unfold State.markAccessed
  split
  · exact regular_ok _
  · exact regular_memWrite ..

theorem regular_loadSeg (s : State) (k : SReg) (v : Selector) : Regular (s.loadSeg k v) := by
  unfold State.loadSeg
  split
  · exact regular_ok _
  · split
    · exact (regular_require _ (regular_gp _)).bind fun _ _ => regular_ok _
    · exact (regular_require _ (regular_refuse _)).bind fun _ _ =>
        (regular_require _ (regular_gp _)).bind fun _ _ =>
          (regular_memRead ..).bind fun _ _ =>
            (regular_checkDescriptor ..).bind fun _ _ => (regular_markAccessed ..).bind fun _ _ => regular_ok _

theorem regular_push (s : State) (n : Nat) (v : BitVec (8 * n)) : Regular (s.push n v) :=
  (regular_segWrite ..).bind fun _ _ => regular_ok _

theorem regular_advance (s : State) (len : Nat) (l : Bool) : Regular (s.advance len l) :=
  (regular_require _ (regular_fault _)).bind fun _ _ => regular_ok _

theorem regular_jump {n : Nat} (s : State) (len : Nat) (z : Size) (rel : BitVec n) : Regular (s.jump len z rel) :=
  (regular_require _ (regular_gp _)).bind fun _ _ => regular_ok _

theorem regular_jumpIf {n : Nat} (s : State) (c : Cond) (len : Nat) (z : Size) (rel : BitVec n) :
    Regular (s.jumpIf c len z rel) := by
  unfold State.jumpIf
  split
  · exact regular_jump ..
  · exact regular_advance ..

theorem regular_pushFs (s : State) (o : Size) : Regular (s.pushFs o) := by
  cases o <;> exact regular_push ..

theorem regular_readRM (s : State) (p : Prefixes) (x : RM) (z : Size) : Regular (s.readRM p x z) := by
  cases x
  · exact regular_ok _
  · exact regular_segRead ..

theorem regular_writeRM (s : State) (p : Prefixes) (x : RM) (z : Size) (v : BitVec z.bits) :
    Regular (s.writeRM p x z v) := by
  cases x
  · exact regular_ok _
  · exact regular_segWrite ..

theorem regular_loadTable (s : State) (p : Prefixes) (x : RM) : Regular (s.loadTable p x) := by
  refine (regular_noLock p).bind fun _ _ => ?_
  cases x
  · exact regular_invalidOpcode
  · exact (regular_privileged s).bind fun _ _ => (regular_segRead ..).bind fun _ _ =>
      (regular_segRead ..).bind fun _ _ => regular_ok _

theorem regular_checkCr (s : State) (p : Prefixes) (cr : BitVec 3) : Regular (s.checkCr p cr) :=
  (regular_noLock p).bind fun _ _ => (regular_privileged s).bind fun _ _ => regular_require _ (regular_refuse _)

/-! ## What every operation keeps -/

/-- What no operation of an instruction touches: CS, CPL, the system registers no rule writes, the open parameters, the
fault state, every bit of EFLAGS but the status flags; and memory stays canonical. -/
structure Keeps (s t : State) : Prop where
  cs : t.segs.cs = s.segs.cs
  cpl : t.cpl = s.cpl
  sys : t.sys = s.sys
  params : t.params = s.params
  exn : t.exn = s.exn
  flags : flagsSameOutsideStatus s t
  mem : s.mem.wf = true → t.mem.wf = true

/-- What only the system instructions touch: CR0, GDTR, IDTR. -/
structure KeepsControl (s t : State) : Prop where
  cr0 : t.cr0 = s.cr0
  gdtr : t.gdtr = s.gdtr
  idtr : t.idtr = s.idtr

theorem Keeps.trans {s t u : State} (h : Keeps s t) (h' : Keeps t u) : Keeps s u where
  cs := h'.cs.trans h.cs
  cpl := h'.cpl.trans h.cpl
  sys := h'.sys.trans h.sys
  params := h'.params.trans h.params
  exn := h'.exn.trans h.exn
  flags k h0 h2 h4 h6 h7 h11 := (h'.flags k h0 h2 h4 h6 h7 h11).trans (h.flags k h0 h2 h4 h6 h7 h11)
  mem hm := h'.mem (h.mem hm)

theorem KeepsControl.trans {s t u : State} (h : KeepsControl s t) (h' : KeepsControl t u) : KeepsControl s u where
  cr0 := h'.cr0.trans h.cr0
  gdtr := h'.gdtr.trans h.gdtr
  idtr := h'.idtr.trans h.idtr

/-- An update that leaves EFLAGS and memory alone, and the rest as `Keeps` says. -/
theorem Keeps.of_same {s t : State} (cs : t.segs.cs = s.segs.cs) (cpl : t.cpl = s.cpl) (sys : t.sys = s.sys)
    (params : t.params = s.params) (exn : t.exn = s.exn) (flags : t.eflags = s.eflags) (mem : t.mem = s.mem) :
    Keeps s t where
  cs := cs
  cpl := cpl
  sys := sys
  params := params
  exn := exn
  flags k _ _ _ _ _ _ := by rw [flags]
  mem h := by rw [mem]; exact h

theorem keeps_refl (s : State) : Keeps s s := .of_same rfl rfl rfl rfl rfl rfl rfl

theorem keeps_setReg (s : State) (c : Reg) (z : Size) (v : BitVec z.bits) : Keeps s (s.setReg c z v) :=
  .of_same rfl rfl rfl rfl rfl rfl rfl

theorem keeps_setX (s : State) (r : Reg) (v : Word) : Keeps s (s.setX r v) := .of_same rfl rfl rfl rfl rfl rfl rfl

theorem keeps_drawn (s : State) (n : Nat) : Keeps s (s.drawn n) := .of_same rfl rfl rfl rfl rfl rfl rfl

theorem keeps_setCr0 (s : State) (v : Word) : Keeps s (s.setCr0 v) := .of_same rfl rfl rfl rfl rfl rfl rfl

theorem keeps_setGdtr (s : State) (v : TableReg) : Keeps s (s.setGdtr v) := .of_same rfl rfl rfl rfl rfl rfl rfl

theorem keeps_setIdtr (s : State) (v : TableReg) : Keeps s (s.setIdtr v) := .of_same rfl rfl rfl rfl rfl rfl rfl

theorem keeps_setSeg (s : State) {k : SReg} (v : SegReg) (h : k ≠ .cs) : Keeps s (s.setSeg k v) :=
  .of_same (SegRegs.set_cs _ _ h) rfl rfl rfl rfl rfl rfl

theorem keeps_setStatus (s : State) (f : StatusFlags) : Keeps s (s.setStatus f) where
  cs := rfl
  cpl := rfl
  sys := rfl
  params := rfl
  exn := rfl
  flags k h0 h2 h4 h6 h7 h11 := StatusFlags.getLsbD_putInto f s.eflags k ⟨h0, h2, h4, h6, h7, h11⟩
  mem h := h

theorem keeps_undefineStatus (s : State) : Keeps s s.undefineStatus :=
  (keeps_setStatus s _).trans (keeps_drawn _ 6)

theorem keeps_memWrite {s t : State} {a : Word} {n : Nat} {v : BitVec (8 * n)} (h : s.memWrite a n v = .ok t) :
    Keeps s t := by
  obtain ⟨-, rfl⟩ := memWrite_ok.1 h
  exact ⟨rfl, rfl, rfl, rfl, rfl, fun _ _ _ _ _ _ _ => rfl, fun hm => Memory.wf_writeLe hm _ _ _⟩

theorem keeps_segWrite {s t : State} {k : SReg} {off : Word} {n : Nat} {v : BitVec (8 * n)}
    (h : s.segWrite k off n v = .ok t) : Keeps s t :=
  keeps_memWrite (segWrite_ok.1 h).2

theorem keeps_advance {s t : State} {len : Nat} {l : Bool} (h : s.advance len l = .ok t) : Keeps s t := by
  obtain ⟨-, rfl⟩ := advance_ok.1 h
  exact .of_same rfl rfl rfl rfl rfl rfl rfl

theorem keeps_jump {s t : State} {len n : Nat} {z : Size} {rel : BitVec n} (h : s.jump len z rel = .ok t) :
    Keeps s t := by
  obtain ⟨-, rfl⟩ := jump_ok.1 h
  exact .of_same rfl rfl rfl rfl rfl rfl rfl

theorem keeps_jumpIf {s t : State} {c : Cond} {len n : Nat} {z : Size} {rel : BitVec n}
    (h : s.jumpIf c len z rel = .ok t) : Keeps s t := by
  obtain ⟨v, rfl⟩ := jumpIf_ok h
  exact .of_same rfl rfl rfl rfl rfl rfl rfl

theorem keeps_markAccessed {s t : State} {a : Word} {d : SegAttr} (h : s.markAccessed a d = .ok t) : Keeps s t := by
  obtain ⟨-, rfl⟩ | ⟨-, -, rfl⟩ := markAccessed_ok.1 h
  · exact keeps_refl _
  · exact ⟨rfl, rfl, rfl, rfl, rfl, fun _ _ _ _ _ _ _ => rfl, fun hm => Memory.wf_writeLe hm _ _ _⟩

theorem keeps_loadSeg {s t : State} {k : SReg} {v : Selector} (hk : k ≠ .cs) (h : s.loadSeg k v = .ok t) :
    Keeps s t := by
  obtain ⟨-, rfl⟩ | ⟨-, -, -, -, rfl⟩ | ⟨-, -, -, d, -, -, u, hu, rfl⟩ := loadSeg_ok h
  · exact keeps_setSeg _ _ hk
  · exact keeps_setSeg _ _ hk
  · exact (keeps_markAccessed hu).trans (keeps_setSeg _ _ hk)

theorem keeps_push {s t : State} {n : Nat} {v : BitVec (8 * n)} (h : s.push n v = .ok t) : Keeps s t := by
  obtain ⟨u, hu, rfl⟩ := push_ok.1 h
  exact (keeps_segWrite hu).trans (keeps_setReg ..)

theorem keeps_pushFs {s t : State} {o : Size} (h : s.pushFs o = .ok t) : Keeps s t := by
  cases o
  · exact keeps_push h
  · exact keeps_push h
  · exact (keeps_drawn s 1).trans (keeps_push h)

theorem keeps_writeRM {s t : State} {p : Prefixes} {x : RM} {z : Size} {v : BitVec z.bits}
    (h : s.writeRM p x z v = .ok t) : Keeps s t := by
  cases x
  · cases h; exact keeps_setReg ..
  · exact keeps_segWrite h

theorem control_memWrite {s t : State} {a : Word} {n : Nat} {v : BitVec (8 * n)} (h : s.memWrite a n v = .ok t) :
    KeepsControl s t := by
  obtain ⟨-, rfl⟩ := memWrite_ok.1 h
  exact ⟨rfl, rfl, rfl⟩

theorem control_segWrite {s t : State} {k : SReg} {off : Word} {n : Nat} {v : BitVec (8 * n)}
    (h : s.segWrite k off n v = .ok t) : KeepsControl s t :=
  control_memWrite (segWrite_ok.1 h).2

theorem control_advance {s t : State} {len : Nat} {l : Bool} (h : s.advance len l = .ok t) : KeepsControl s t := by
  obtain ⟨-, rfl⟩ := advance_ok.1 h
  exact ⟨rfl, rfl, rfl⟩

theorem control_jumpIf {s t : State} {c : Cond} {len n : Nat} {z : Size} {rel : BitVec n}
    (h : s.jumpIf c len z rel = .ok t) : KeepsControl s t := by
  obtain ⟨v, rfl⟩ := jumpIf_ok h
  exact ⟨rfl, rfl, rfl⟩

theorem control_loadSeg {s t : State} {k : SReg} {v : Selector} (h : s.loadSeg k v = .ok t) : KeepsControl s t := by
  obtain ⟨-, rfl⟩ | ⟨-, -, -, -, rfl⟩ | ⟨-, -, -, d, -, -, u, hu, rfl⟩ := loadSeg_ok h
  · exact ⟨rfl, rfl, rfl⟩
  · exact ⟨rfl, rfl, rfl⟩
  · obtain ⟨-, rfl⟩ | ⟨-, -, rfl⟩ := markAccessed_ok.1 hu
    · exact ⟨rfl, rfl, rfl⟩
    · exact ⟨rfl, rfl, rfl⟩

theorem control_push {s t : State} {n : Nat} {v : BitVec (8 * n)} (h : s.push n v = .ok t) : KeepsControl s t := by
  obtain ⟨u, hu, rfl⟩ := push_ok.1 h
  exact (control_segWrite hu).trans ⟨rfl, rfl, rfl⟩

theorem control_writeRM {s t : State} {p : Prefixes} {x : RM} {z : Size} {v : BitVec z.bits}
    (h : s.writeRM p x z v = .ok t) : KeepsControl s t := by
  cases x
  · cases h; exact ⟨rfl, rfl, rfl⟩
  · exact control_segWrite h

/-! ## What each meaning can do -/

/-- CMC: no exception but the lock prefix's, else CF inverted and the next instruction. -/
theorem execCmc_next {p : Prefixes} {s t : State} (h : execCmc p s = .next t) :
    (∃ e c, Exception.Raisable e c ∧ t = s.takeException e c) ∨
      (p.lock = false ∧
        (s.setStatus { s.status with cf := !s.status.cf }).advance (Instr.cmc p).length = .ok t) := by
  obtain h | ⟨e, c, hx, rfl⟩ := settle_next.1 h
  · obtain ⟨⟨⟩, hl, h⟩ := bind_ok.1 h
    exact .inr ⟨noLock_ok.1 hl, h⟩
  · exact .inl ⟨e, c, ((regular_noLock p).bind fun _ _ => regular_advance ..).raises e c hx, rfl⟩

/-- ADD to a register. -/
theorem execAdd_reg_next {p : Prefixes} {r : Reg} {src : AddImm} {s t : State}
    (h : execAdd p (.reg r) src s = .next t) :
    (∃ e c, Exception.Raisable e c ∧ t = s.takeException e c) ∨
      (p.lock = false ∧
        ((s.setStatus (addFlags (s.reg r (addSize (s.opsize p) src)) (addImmValue _ src))).setReg r _
          (s.reg r (addSize (s.opsize p) src) + addImmValue _ src)).advance (Instr.add p (.reg r) src).length = .ok t) := by
  obtain h | ⟨e, c, hx, rfl⟩ := settle_next.1 h
  · obtain ⟨⟨⟩, hl, h⟩ := bind_ok.1 h
    exact .inr ⟨noLock_ok.1 hl, h⟩
  · exact .inl ⟨e, c, ((regular_noLock p).bind fun _ _ => regular_advance ..).raises e c hx, rfl⟩

/-- ADD to memory. -/
theorem execAdd_mem_next {p : Prefixes} {m : Mem} {src : AddImm} {s t : State}
    (h : execAdd p (.mem m) src s = .next t) :
    (∃ e c, Exception.Raisable e c ∧ t = s.takeException e c) ∨
      ∃ a u, s.memRead (s.linear p m) (addSize (s.opsize p) src).bytes = .ok a ∧
        (s.setStatus (addFlags a (addImmValue _ src))).writeMem p m (addSize (s.opsize p) src)
          (a + addImmValue _ src) = .ok u ∧
        u.advance (Instr.add p (.mem m) src).length p.lock = .ok t := by
  obtain h | ⟨e, c, hx, rfl⟩ := settle_next.1 h
  · obtain ⟨⟨⟩, -, h⟩ := bind_ok.1 h
    obtain ⟨a, ha, h⟩ := bind_ok.1 h
    obtain ⟨u, hu, h⟩ := bind_ok.1 h
    exact .inr ⟨a, u, ha, hu, h⟩
  · exact .inl ⟨e, c, ((regular_checkAccess ..).bind fun _ _ => (regular_memRead ..).bind fun _ _ =>
      (regular_segWrite ..).bind fun _ _ => regular_advance ..).raises e c hx, rfl⟩

/-- OR. -/
theorem execOr_next {p : Prefixes} {src : Imm} {s t : State} (h : execOr p src s = .next t) :
    (∃ e c, Exception.Raisable e c ∧ t = s.takeException e c) ∨
      (p.lock = false ∧
        (((s.setStatus (orFlags (s.reg .eax (immSize (s.opsize p) src) ||| immValue _ src) (drawBit s.draws))).drawn
          1).setReg .eax _ (s.reg .eax (immSize (s.opsize p) src) ||| immValue _ src)).advance
            (Instr.or p src).length = .ok t) := by
  obtain h | ⟨e, c, hx, rfl⟩ := settle_next.1 h
  · obtain ⟨⟨⟩, hl, h⟩ := bind_ok.1 h
    exact .inr ⟨noLock_ok.1 hl, h⟩
  · exact .inl ⟨e, c, ((regular_noLock p).bind fun _ _ => regular_advance ..).raises e c hx, rfl⟩

/-- MOV reg, imm. -/
theorem execMovRegImm_next {p : Prefixes} {r : Reg} {src : Imm} {s t : State}
    (h : execMovRegImm p r src s = .next t) :
    (∃ e c, Exception.Raisable e c ∧ t = s.takeException e c) ∨
      (p.lock = false ∧
        (s.setReg r (immSize (s.opsize p) src) (immValue _ src)).advance (Instr.movRegImm p r src).length = .ok t) := by
  obtain h | ⟨e, c, hx, rfl⟩ := settle_next.1 h
  · obtain ⟨⟨⟩, hl, h⟩ := bind_ok.1 h
    exact .inr ⟨noLock_ok.1 hl, h⟩
  · exact .inl ⟨e, c, ((regular_noLock p).bind fun _ _ => regular_advance ..).raises e c hx, rfl⟩

/-- MOV Sreg, r/m16. -/
theorem execMovSregRm16_next {p : Prefixes} {code : BitVec 3} {src : RM} {s t : State}
    (h : execMovSregRm16 p code src s = .next t) :
    (∃ e c, Exception.Raisable e c ∧ t = s.takeException e c) ∨
      ∃ k v u, SReg.ofCode code = some k ∧ k ≠ .cs ∧ s.readRM p src .b16 = .ok v ∧ s.loadSeg k v = .ok u ∧
        u.advance (Instr.movSregRm16 p code src).length = .ok t := by
  obtain h | ⟨e, c, hx, rfl⟩ := settle_next.1 h
  · obtain ⟨⟨⟩, -, h⟩ := bind_ok.1 h
    cases hk : SReg.ofCode code with
    | none => rw [hk] at h; cases h
    | some k =>
      rw [hk] at h
      obtain ⟨⟨⟩, hc, h⟩ := bind_ok.1 h
      obtain ⟨v, hv, h⟩ := bind_ok.1 h
      obtain ⟨u, hu, h⟩ := bind_ok.1 h
      exact .inr ⟨k, v, u, rfl, by simpa [require_ok] using hc, hv, hu, h⟩
  · refine .inl ⟨e, c, ?_, rfl⟩
    refine ((regular_noLock p).bind fun _ _ => ?_).raises e c hx
    cases SReg.ofCode code
    · exact regular_invalidOpcode
    · exact (regular_require _ regular_invalidOpcode).bind fun _ _ => (regular_readRM ..).bind fun _ _ =>
        (regular_loadSeg ..).bind fun _ _ => regular_advance ..

/-- PUSH FS. -/
theorem execPushFs_next {p : Prefixes} {s t : State} (h : execPushFs p s = .next t) :
    (∃ e c, Exception.Raisable e c ∧ t = s.takeException e c) ∨
      (p.lock = false ∧ ∃ u, s.pushFs (s.opsize p) = .ok u ∧ u.advance (Instr.pushFs p).length = .ok t) := by
  obtain h | ⟨e, c, hx, rfl⟩ := settle_next.1 h
  · obtain ⟨⟨⟩, hl, h⟩ := bind_ok.1 h
    obtain ⟨u, hu, h⟩ := bind_ok.1 h
    exact .inr ⟨noLock_ok.1 hl, u, hu, h⟩
  · exact .inl ⟨e, c, ((regular_noLock p).bind fun _ _ => (regular_pushFs ..).bind fun _ _ =>
      regular_advance ..).raises e c hx, rfl⟩

/-- JMP rel8. -/
theorem execJmpRel8_next {p : Prefixes} {rel : BitVec 8} {s t : State} (h : execJmpRel8 p rel s = .next t) :
    (∃ e c, Exception.Raisable e c ∧ t = s.takeException e c) ∨
      (p.lock = false ∧ s.jump (Instr.jmpRel8 p rel).length (s.opsize p) rel = .ok t) := by
  obtain h | ⟨e, c, hx, rfl⟩ := settle_next.1 h
  · obtain ⟨⟨⟩, hl, h⟩ := bind_ok.1 h
    exact .inr ⟨noLock_ok.1 hl, h⟩
  · exact .inl ⟨e, c, ((regular_noLock p).bind fun _ _ => regular_jump ..).raises e c hx, rfl⟩

/-- Jcc rel16/rel32. -/
theorem execJccRel1632_next {p : Prefixes} {c : Cond} {rel : Rel} {s t : State}
    (h : execJccRel1632 p c rel s = .next t) :
    (∃ e c, Exception.Raisable e c ∧ t = s.takeException e c) ∨
      (p.lock = false ∧ match rel with
        | .r16 v => s.jumpIf c (Instr.jccRel1632 p c rel).length (s.opsize p) v = .ok t
        | .r32 v => s.jumpIf c (Instr.jccRel1632 p c rel).length (s.opsize p) v = .ok t) := by
  obtain h | ⟨e, c', hx, rfl⟩ := settle_next.1 h
  · obtain ⟨⟨⟩, hl, h⟩ := bind_ok.1 h
    cases rel <;> exact .inr ⟨noLock_ok.1 hl, h⟩
  · refine .inl ⟨e, c', ((regular_noLock p).bind fun _ _ => ?_).raises e c' hx, rfl⟩
    cases rel <;> exact regular_jumpIf ..

/-- Jcc rel8. -/
theorem execJccRel8_next {p : Prefixes} {c : Cond} {rel : BitVec 8} {s t : State}
    (h : execJccRel8 p c rel s = .next t) :
    (∃ e c, Exception.Raisable e c ∧ t = s.takeException e c) ∨
      (p.lock = false ∧ s.jumpIf c (Instr.jccRel8 p c rel).length (s.opsize p) rel = .ok t) := by
  obtain h | ⟨e, c', hx, rfl⟩ := settle_next.1 h
  · obtain ⟨⟨⟩, hl, h⟩ := bind_ok.1 h
    exact .inr ⟨noLock_ok.1 hl, h⟩
  · exact .inl ⟨e, c', ((regular_noLock p).bind fun _ _ => regular_jumpIf ..).raises e c' hx, rfl⟩

/-- SETcc. -/
theorem execSetcc_next {p : Prefixes} {c : Cond} {dst : RM} {s t : State} (h : execSetcc p c dst s = .next t) :
    (∃ e c, Exception.Raisable e c ∧ t = s.takeException e c) ∨
      (p.lock = false ∧ ∃ u, s.writeRM p dst .b8 (if Cond.holds c s.status then 1 else 0) = .ok u ∧
        u.advance (Instr.setcc p c dst).length = .ok t) := by
  obtain h | ⟨e, c', hx, rfl⟩ := settle_next.1 h
  · obtain ⟨⟨⟩, hl, h⟩ := bind_ok.1 h
    obtain ⟨u, hu, h⟩ := bind_ok.1 h
    exact .inr ⟨noLock_ok.1 hl, u, hu, h⟩
  · exact .inl ⟨e, c', ((regular_noLock p).bind fun _ _ => (regular_writeRM ..).bind fun _ _ =>
      regular_advance ..).raises e c' hx, rfl⟩

/-- NOP. -/
theorem execNop_next {p : Prefixes} {s t : State} (h : execNop p s = .next t) :
    (∃ e c, Exception.Raisable e c ∧ t = s.takeException e c) ∨
      (p.lock = false ∧ s.advance (Instr.nop p).length = .ok t) := by
  obtain h | ⟨e, c, hx, rfl⟩ := settle_next.1 h
  · obtain ⟨⟨⟩, hl, h⟩ := bind_ok.1 h
    exact .inr ⟨noLock_ok.1 hl, h⟩
  · exact .inl ⟨e, c, ((regular_noLock p).bind fun _ _ => regular_advance ..).raises e c hx, rfl⟩

/-- LGDT. -/
theorem execLgdt_next {p : Prefixes} {src : RM} {s t : State} (h : execLgdt p src s = .next t) :
    (∃ e c, Exception.Raisable e c ∧ t = s.takeException e c) ∨
      ∃ v, s.loadTable p src = .ok v ∧ (s.setGdtr v).advance (Instr.lgdt p src).length = .ok t := by
  obtain h | ⟨e, c, hx, rfl⟩ := settle_next.1 h
  · obtain ⟨v, hv, h⟩ := bind_ok.1 h
    exact .inr ⟨v, hv, h⟩
  · exact .inl ⟨e, c, ((regular_loadTable ..).bind fun _ _ => regular_advance ..).raises e c hx, rfl⟩

/-- LIDT. -/
theorem execLidt_next {p : Prefixes} {src : RM} {s t : State} (h : execLidt p src s = .next t) :
    (∃ e c, Exception.Raisable e c ∧ t = s.takeException e c) ∨
      ∃ v, s.loadTable p src = .ok v ∧ (s.setIdtr v).advance (Instr.lidt p src).length = .ok t := by
  obtain h | ⟨e, c, hx, rfl⟩ := settle_next.1 h
  · obtain ⟨v, hv, h⟩ := bind_ok.1 h
    exact .inr ⟨v, hv, h⟩
  · exact .inl ⟨e, c, ((regular_loadTable ..).bind fun _ _ => regular_advance ..).raises e c hx, rfl⟩

/-- MOV r32, CR0. -/
theorem execMovR32Cr0_next {p : Prefixes} {cr : BitVec 3} {dst : Reg} {s t : State}
    (h : execMovR32Cr0 p cr dst s = .next t) :
    (∃ e c, Exception.Raisable e c ∧ t = s.takeException e c) ∨
      (s.checkCr p cr = .ok () ∧
        ((s.setX dst s.cr0).undefineStatus).advance (Instr.movR32Cr0 p cr dst).length = .ok t) := by
  obtain h | ⟨e, c, hx, rfl⟩ := settle_next.1 h
  · obtain ⟨⟨⟩, hc, h⟩ := bind_ok.1 h
    exact .inr ⟨hc, h⟩
  · exact .inl ⟨e, c, ((regular_checkCr ..).bind fun _ _ => regular_advance ..).raises e c hx, rfl⟩

/-- MOV CR0, r32. -/
theorem execMovCr0R32_next {p : Prefixes} {cr : BitVec 3} {src : Reg} {s t : State}
    (h : execMovCr0R32 p cr src s = .next t) :
    (∃ e c, Exception.Raisable e c ∧ t = s.takeException e c) ∨
      (s.checkCr p cr = .ok () ∧ (s.x src).getLsbD 31 = false ∧
        ((s.setCr0 (s.x src)).undefineStatus).advance (Instr.movCr0R32 p cr src).length = .ok t) := by
  obtain h | ⟨e, c, hx, rfl⟩ := settle_next.1 h
  · obtain ⟨⟨⟩, hc, h⟩ := bind_ok.1 h
    obtain ⟨⟨⟩, hv, h⟩ := bind_ok.1 h
    exact .inr ⟨hc, by simpa [require_ok] using hv, h⟩
  · exact .inl ⟨e, c, ((regular_checkCr ..).bind fun _ _ =>
      (regular_require _ (regular_refuse _)).bind fun _ _ => regular_advance ..).raises e c hx, rfl⟩

/-! ## Every instruction -/

/-- A next state of any instruction: an exception taken, or a state that keeps what `Keeps` lists. -/
theorem exec_keeps {i : Instr} {s t : State} (h : exec i s = .next t) :
    (∃ e c, Exception.Raisable e c ∧ t = s.takeException e c) ∨ Keeps s t := by
  cases i with
  | cmc p =>
    obtain h | ⟨-, h⟩ := execCmc_next h
    · exact .inl h
    · exact .inr ((keeps_setStatus ..).trans (keeps_advance h))
  | add p dst src =>
    cases dst with
    | reg r =>
      obtain h | ⟨-, h⟩ := execAdd_reg_next h
      · exact .inl h
      · exact .inr (((keeps_setStatus ..).trans (keeps_setReg ..)).trans (keeps_advance h))
    | mem m =>
      obtain h | ⟨a, u, -, hu, h⟩ := execAdd_mem_next h
      · exact .inl h
      · exact .inr (((keeps_setStatus ..).trans (keeps_segWrite hu)).trans (keeps_advance h))
  | or p src =>
    obtain h | ⟨-, h⟩ := execOr_next h
    · exact .inl h
    · exact .inr ((((keeps_setStatus ..).trans (keeps_drawn ..)).trans (keeps_setReg ..)).trans (keeps_advance h))
  | movRegImm p r src =>
    obtain h | ⟨-, h⟩ := execMovRegImm_next h
    · exact .inl h
    · exact .inr ((keeps_setReg ..).trans (keeps_advance h))
  | movSregRm16 p k src =>
    obtain h | ⟨k, v, u, -, hk, -, hu, h⟩ := execMovSregRm16_next h
    · exact .inl h
    · exact .inr ((keeps_loadSeg hk hu).trans (keeps_advance h))
  | pushFs p =>
    obtain h | ⟨-, u, hu, h⟩ := execPushFs_next h
    · exact .inl h
    · exact .inr ((keeps_pushFs hu).trans (keeps_advance h))
  | jmpRel8 p rel =>
    obtain h | ⟨-, h⟩ := execJmpRel8_next h
    · exact .inl h
    · exact .inr (keeps_jump h)
  | jccRel1632 p c rel =>
    obtain h | ⟨-, h⟩ := execJccRel1632_next h
    · exact .inl h
    · cases rel <;> exact .inr (keeps_jumpIf h)
  | jccRel8 p c rel =>
    obtain h | ⟨-, h⟩ := execJccRel8_next h
    · exact .inl h
    · exact .inr (keeps_jumpIf h)
  | setcc p c dst =>
    obtain h | ⟨-, u, hu, h⟩ := execSetcc_next h
    · exact .inl h
    · exact .inr ((keeps_writeRM hu).trans (keeps_advance h))
  | nop p =>
    obtain h | ⟨-, h⟩ := execNop_next h
    · exact .inl h
    · exact .inr (keeps_advance h)
  | lgdt p src =>
    obtain h | ⟨v, -, h⟩ := execLgdt_next h
    · exact .inl h
    · exact .inr ((keeps_setGdtr ..).trans (keeps_advance h))
  | lidt p src =>
    obtain h | ⟨v, -, h⟩ := execLidt_next h
    · exact .inl h
    · exact .inr ((keeps_setIdtr ..).trans (keeps_advance h))
  | movR32Cr0 p cr r =>
    obtain h | ⟨-, h⟩ := execMovR32Cr0_next h
    · exact .inl h
    · exact .inr (((keeps_setX ..).trans (keeps_undefineStatus _)).trans (keeps_advance h))
  | movCr0R32 p cr r =>
    obtain h | ⟨-, -, h⟩ := execMovCr0R32_next h
    · exact .inl h
    · exact .inr (((keeps_setCr0 ..).trans (keeps_undefineStatus _)).trans (keeps_advance h))

end Sys2Proof.Machine
end

