-- ==== Sys2Proof/Laws/Claims.lean ====
section
/-! SUPPORT. The words of the claims (Sys2Proof/Safety.lean) against the operations: when an access passes or fails its
checks, what advancing gives, what memory holds after a write, the flags of a sum and of an OR, prefixes of which no two are of one kind. -/

namespace Sys2Proof

/-- An operand is at most four bytes. -/
theorem Size.bytes_le (z : Size) : z.bytes ≤ 2 ^ 32 := by cases z <;> decide

/-- An operand is at most 32 bits. -/
theorem Size.bits_le (z : Size) : z.bits ≤ 32 := by cases z <;> decide

/-! ## Prefixes -/

open Machine in
/-- Prefix bytes of which no two are of one kind, after marks `m` of none of whose kinds they are, are read whole; a repeat
prefix among them is recorded (R72, D9). -/
theorem scanMarks_onceFrom {b : Byte} (hb : Mark.ofByte b = none) (rest : List Byte) :
    ∀ (pre : List Byte) (m : Marks), (∀ x ∈ pre, x ∈ prefixBytes) →
      m.p.opsize.toNat + pre.countP (fun x => decide (x ∈ [0x66#8])) ≤ 1 →
      m.p.adsize.toNat + pre.countP (fun x => decide (x ∈ [0x67#8])) ≤ 1 →
      m.p.lock.toNat + pre.countP (fun x => decide (x ∈ [0xF0#8])) ≤ 1 →
      m.rep.toNat + pre.countP (fun x => decide (x ∈ [0xF3#8, 0xF2])) ≤ 1 →
      m.p.seg.isSome.toNat + pre.countP (fun x => decide (x ∈ [0x26#8, 0x2E, 0x36, 0x3E, 0x64, 0x65])) ≤ 1 →
      ∃ p, scanMarks m (pre ++ b :: rest) =
        .ok { p, rep := m.rep || decide (0xF3 ∈ pre ∨ 0xF2 ∈ pre) } (b :: rest) := by
  have z : ∀ {c : Bool} {n : Nat}, c.toNat + (n + 1) ≤ 1 → c = false ∧ n = 0 := by
    intro c n h; cases c <;> simp at h ⊢
    exact h
  intro pre
  induction pre with
  | nil => intro m _ _ _ _ _ _; exact ⟨m.p, by simp [scanMarks_stop m rest hb]⟩
  | cons x pre ih =>
    intro m hp h1 h2 h3 h4 h5
    obtain ⟨⟨o, a, l, g⟩, r⟩ := m
    have hx := hp x (by simp)
    have hq : ∀ y ∈ pre, y ∈ prefixBytes := fun y hy => hp y (List.mem_cons_of_mem x hy)
    simp only [prefixBytes, prefixKinds, List.flatten_cons, List.flatten_nil, List.cons_append, List.nil_append,
      List.mem_cons, List.not_mem_nil, or_false] at hx
    rw [List.countP_cons] at h1 h2 h3 h4 h5
    rcases hx with rfl | rfl | rfl | rfl | rfl | rfl | rfl | rfl | rfl | rfl | rfl
    · obtain ⟨rfl, hn⟩ := z h1
      obtain ⟨p, e⟩ := ih ⟨⟨true, a, l, g⟩, r⟩ hq (by rw [hn]; exact Nat.le_refl 1) h2 h3 h4 h5
      exact ⟨p, by rw [List.cons_append, scanMarks_cons _ rfl rfl, e]; simp⟩
    · obtain ⟨rfl, hn⟩ := z h2
      obtain ⟨p, e⟩ := ih ⟨⟨o, true, l, g⟩, r⟩ hq h1 (by rw [hn]; exact Nat.le_refl 1) h3 h4 h5
      exact ⟨p, by rw [List.cons_append, scanMarks_cons _ rfl rfl, e]; simp⟩
    · obtain ⟨rfl, hn⟩ := z h3
      obtain ⟨p, e⟩ := ih ⟨⟨o, a, true, g⟩, r⟩ hq h1 h2 (by rw [hn]; exact Nat.le_refl 1) h4 h5
      exact ⟨p, by rw [List.cons_append, scanMarks_cons _ rfl rfl, e]; simp⟩
    · obtain ⟨rfl, hn⟩ := z h4
      obtain ⟨p, e⟩ := ih ⟨⟨o, a, l, g⟩, true⟩ hq h1 h2 h3 (by rw [hn]; exact Nat.le_refl 1) h5
      exact ⟨p, by rw [List.cons_append, scanMarks_cons _ rfl rfl, e]; simp⟩
    · obtain ⟨rfl, hn⟩ := z h4
      obtain ⟨p, e⟩ := ih ⟨⟨o, a, l, g⟩, true⟩ hq h1 h2 h3 (by rw [hn]; exact Nat.le_refl 1) h5
      exact ⟨p, by rw [List.cons_append, scanMarks_cons _ rfl rfl, e]; simp⟩
    all_goals
      obtain ⟨hg, hn⟩ := z h5
      obtain rfl : g = none := by simpa using hg
      obtain ⟨p, e⟩ := ih ⟨⟨o, a, l, some _⟩, r⟩ hq h1 h2 h3 h4 (by rw [hn]; exact Nat.le_refl 1)
      exact ⟨p, by rw [List.cons_append, scanMarks_cons _ rfl rfl, e]; simp⟩

open Machine in
/-- Prefix bytes of which no two are of one kind are read whole; a repeat prefix among them is recorded (R72, D9). -/
theorem scanMarks_once {pre : List Byte} (h : PrefixesOnce pre) {b : Byte} (hb : Mark.ofByte b = none)
    (rest : List Byte) :
    ∃ p, scanMarks {} (pre ++ b :: rest) = .ok { p, rep := decide (0xF3 ∈ pre ∨ 0xF2 ∈ pre) } (b :: rest) := by
  have o := h.once
  simp only [prefixKinds, List.forall_mem_cons] at o
  obtain ⟨h1, h2, h3, h4, h5, -⟩ := o
  exact scanMarks_onceFrom hb rest pre {} h.all (by simpa using h1) (by simpa using h2) (by simpa using h3)
    (by simpa using h4) (by simpa using h5)

namespace Machine

theorem noLock_true {p : Prefixes} (h : p.lock = true) : noLock p = .error .invalidOpcode := by simp [noLock, h]

theorem noLock_false {p : Prefixes} (h : p.lock = false) : noLock p = .ok () := by simp [noLock, h]

/-- A stop that is an exception is that exception taken in the state the instruction began in. -/
theorem settle_raised (s : State) (e : Exception) (c : Option (BitVec 16)) :
    settle s (.error (.exn e c)) = s.Raised e c := rfl

/-- Where the next instruction lies below 2^32, an instruction advances to it. -/
theorem advance_room {s u : State} {i : Instr} {l : Bool} (h : s.room i) (he : s.eip = u.eip) :
    u.advance i.length l = .ok { u with eip := s.nextPc i, busLock := l } := by
  unfold State.advance State.room at *
  rw [← he, decide_eq_true h]
  rfl

/-- The model's word for a segment that grows down is the claims'. -/
theorem SegAttr.expandDown_iff {a : SegAttr} : a.expandDown = true ↔ a.growsDown := by
  simp [SegAttr.expandDown, SegAttr.growsDown, SegAttr.s, SegAttr.code, SegAttr.b2, and_assoc]

/-- The model's type check is the claims'. -/
theorem SegAttr.allows_iff {a : SegAttr} {w : Bool} :
    a.allows w = true ↔ if w then a.writable else a.readable := by
  cases w <;> simp [SegAttr.allows, SegAttr.s, SegAttr.code, SegAttr.b1, SegAttr.readable, SegAttr.writable]

/-- An access passes its checks exactly where the claims say it does. -/
theorem checkAccess_reaches {s : State} {k : SReg} {off : Word} {n : Nat} {w : Bool} {u : Unit} :
    s.checkAccess k off n w = .ok u ↔ s.reaches k off n w := by
  rw [checkAccess_ok, ← Bool.not_eq_true, ← Bool.not_eq_true (SegAttr.expandDown _), SegAttr.expandDown_iff,
    SegAttr.allows_iff, ← imp_iff_not_or, ← imp_iff_not_or]
  exact ⟨fun ⟨h1, h2, h3, h4⟩ => ⟨h1, h2, h3, h4⟩, fun ⟨h1, h2, h3, h4⟩ => ⟨h1, h2, h3, h4⟩⟩

theorem checkAccess_of_reaches {s : State} {k : SReg} {off : Word} {n : Nat} {w : Bool} (h : s.reaches k off n w) :
    s.checkAccess k off n w = .ok () :=
  checkAccess_reaches.2 h

/-- A protected-mode access through a segment that grows down is refused (log 17). -/
theorem checkAccess_refusesDown {s : State} {k : SReg} {off : Word} {n : Nat} {w : Bool} (h : s.refusesDown k) :
    s.checkAccess k off n w = .error (.refuse .expandDown) := by
  obtain ⟨hp, hv, hg⟩ := h
  simp [State.checkAccess, hp, hv, SegAttr.expandDown_iff.2 hg]

/-- An access that fails its checks stops with the fault of its segment register. -/
theorem checkAccess_misses {s : State} {k : SReg} {off : Word} {n : Nat} {w : Bool} (h : s.misses k off n w) :
    s.checkAccess k off n w = .error (accessFault k) := by
  have hne : ¬ (s.pe = true ∧ (s.seg k).valid = true ∧ (s.seg k).attr.expandDown = true) := by
    rw [SegAttr.expandDown_iff]; exact h.2
  have hno : s.checkAccess k off n w ≠ .ok () := fun hc => h.1 (checkAccess_reaches.1 hc)
  revert hne hno
  simp only [State.checkAccess]
  cases (s.seg k).valid <;> cases s.pe <;> cases (s.seg k).attr.expandDown <;> cases (s.seg k).attr.allows w <;>
    cases (s.seg k).inLimit off n <;> simp

/-- An access fails its checks exactly where the claims say it does. -/
theorem checkAccess_misses_iff {s : State} {k : SReg} {off : Word} {n : Nat} {w : Bool} :
    s.checkAccess k off n w = .error (accessFault k) ↔ s.misses k off n w := by
  refine ⟨fun h => ⟨fun hr => ?_, fun hg => ?_⟩, checkAccess_misses⟩
  · rw [checkAccess_of_reaches hr] at h
    cases h
  · rw [checkAccess_refusesDown hg] at h
    cases k <;> cases h

/-- The fault of a failed access, as an outcome. -/
theorem settle_accessFault (s : State) (k : SReg) : settle s (.error (accessFault k)) = s.accessRaised k := by
  cases k <;> rfl

/-- A read gives what memory holds. -/
theorem memRead_holds {s : State} {a : Word} {n : Nat} {v : BitVec (8 * n)} (h : s.holds a n v) :
    s.memRead a n = .ok v :=
  memRead_ok.2 h

/-- Memory holds what was written. -/
theorem holds_writeLe {s t : State} {a : Word} {n : Nat} {v : BitVec (8 * n)} (hm : s.mem.wf = true)
    (hb : s.backed a n) (hn : n ≤ 2 ^ 32) (ht : t.mem = s.mem.writeLe a n v.toNat) (hp : t.params = s.params) :
    t.holds a n v := by
  refine ⟨fun b h => ?_, ?_⟩
  · have := hb b h
    simp only [State.populated, hp] at this ⊢
    exact this
  · rw [ht, Memory.readLe_writeLe hm _ _ _ hn]
    apply BitVec.eq_of_toNat_eq
    rw [show 256 = 2 ^ 8 from rfl, ← pow_mul]
    simp

/-- The parity flag, as the claims count it. -/
theorem parityEven_eq {n : Nat} (r : BitVec n) :
    parityEven r = decide (Even ((List.range 8).countP fun k => r.getLsbD k)) := by
  rw [parityEven, ← List.countP_eq_length_filter, Bool.eq_iff_iff]
  simp [Nat.even_iff]

/-- Writing the status flags keeps every other bit of EFLAGS. -/
theorem otherFlagsSame_putInto (f : StatusFlags) (w : Word) : otherFlagsSame w (f.putInto w) :=
  fun _ h0 h2 h4 h6 h7 h11 => StatusFlags.getLsbD_putInto _ _ _ ⟨h0, h2, h4, h6, h7, h11⟩

/-- Each status flag stands at its place in EFLAGS (R17). -/
theorem StatusFlags.putInto_places (f : StatusFlags) (w : Word) :
    (f.putInto w).getLsbD 0 = f.cf ∧ (f.putInto w).getLsbD 2 = f.pf ∧ (f.putInto w).getLsbD 4 = f.af ∧
      (f.putInto w).getLsbD 6 = f.zf ∧ (f.putInto w).getLsbD 7 = f.sf ∧ (f.putInto w).getLsbD 11 = f.of := by
  have := StatusFlags.ofWord_putInto f w
  obtain ⟨cf, pf, af, zf, sf, of⟩ := f
  simpa only [StatusFlags.ofWord, StatusFlags.mk.injEq] using this

/-- The flags written for a sum are those of the sum (R111). -/
theorem sumFlagsAre_putInto {n : Nat} (a b : BitVec n) (w : Word) : sumFlagsAre a b ((addFlags a b).putInto w) := by
  obtain ⟨h1, h2, h3, h4, h5, h6⟩ := (addFlags a b).putInto_places w
  refine ⟨h1, h6.trans ?_, h3, h5, h4, h2.trans (parityEven_eq _)⟩
  rw [Bool.eq_iff_iff]
  simp [addFlags]

/-- OF of a sum is signed overflow (R114). -/
theorem signedOverflow_iff {n : Nat} (a b : BitVec n) :
    (a.msb = b.msb ∧ (a + b).msb ≠ a.msb) ↔ (a + b).toInt ≠ a.toInt + b.toInt := by
  cases n with
  | zero => have := BitVec.eq_nil a; have := BitVec.eq_nil b; subst_vars; decide
  | succ n =>
    have ha := a.isLt
    have hb := b.isLt
    have hs := BitVec.toNat_add a b
    obtain ⟨P, hP⟩ : ∃ P, 2 ^ n = P := ⟨_, rfl⟩
    have hp : 2 ^ (n + 1) = 2 * P := by rw [pow_succ, hP, Nat.mul_comm]
    have hm : ∀ x : BitVec (n + 1), x.msb = decide (P ≤ x.toNat) := fun x => by
      rw [BitVec.msb_eq_decide, Nat.add_sub_cancel, hP]
    have hi : ∀ x : BitVec (n + 1), x.toInt = if P ≤ x.toNat then (x.toNat : Int) - (2 * P : Nat) else x.toNat :=
      fun x => by rw [BitVec.toInt_eq_msb_cond, hm, hp]; simp
    rw [hp] at ha hb hs
    rw [hi, hi, hi, hm, hm, hm, Bool.eq_iff_iff, ne_eq, Bool.eq_iff_iff]
    simp only [decide_eq_true_eq]
    have : (a + b).toNat = a.toNat + b.toNat ∨ (a + b).toNat + 2 * P = a.toNat + b.toNat := by
      rw [hs]
      by_cases h : 2 * P ≤ a.toNat + b.toNat
      · right; rw [Nat.mod_eq_sub_mod h, Nat.mod_eq_of_lt (by omega)]; omega
      · left; exact Nat.mod_eq_of_lt (by omega)
    have := (a + b).isLt
    rw [hp] at this
    generalize (a + b).toNat = S at *
    clear hi hm hs
    by_cases h1 : P ≤ a.toNat <;> by_cases h2 : P ≤ b.toNat <;> by_cases h3 : P ≤ S <;>
      simp [h1, h2, h3] <;> omega

/-- CF of a sum is unsigned overflow (R114). -/
theorem unsignedOverflow_iff {n : Nat} (a b : BitVec n) :
    2 ^ n ≤ a.toNat + b.toNat ↔ (a + b).toNat ≠ a.toNat + b.toNat := by
  rw [BitVec.toNat_add]
  constructor
  · intro h e
    have := Nat.mod_lt (a.toNat + b.toNat) (Nat.two_pow_pos n)
    omega
  · intro h
    by_contra hc
    exact h (Nat.mod_eq_of_lt (by omega))

/-- The flags written for an OR are those of its result (R112). -/
theorem orFlags_putInto {n : Nat} (r : BitVec n) (af : Bool) (w : Word) :
    ((orFlags r af).putInto w).getLsbD 0 = false ∧ ((orFlags r af).putInto w).getLsbD 11 = false ∧
      resultFlagsAre r ((orFlags r af).putInto w) := by
  obtain ⟨h1, h2, h3, h4, h5, h6⟩ := (orFlags r af).putInto_places w
  exact ⟨h1, h6, h5, h4, h2.trans (parityEven_eq _)⟩

/-- A check of a Bool that says a proposition. -/
theorem require_ite {c : Bool} {P : Prop} [Decidable P] (h : c = true ↔ P) (o : Stop) :
    require c o = if P then .ok () else .error o := by
  by_cases hp : P
  · rw [if_pos hp, h.2 hp]; rfl
  · rw [if_neg hp, show c = false from by simpa using mt h.1 hp]; rfl

/-- The checks of a descriptor for a load of SS, as a decision (R123). -/
theorem checkDescriptor_ss (v : Selector) (cpl : BitVec 2) (a : SegAttr) :
    checkDescriptor .ss v cpl a =
      if selRpl v = cpl ∧ a.s = true ∧ a.code = false ∧ a.b1 = true ∧ a.dpl = cpl then
        if a.p = true then if a.code = true ∨ a.b2 = false then .ok () else .error (.refuse .expandDown)
        else .error (.sf (selError v))
      else .error (.gp (selError v)) := by
  simp only [checkDescriptor, if_true]
  rw [require_ite (P := selRpl v = cpl ∧ a.s = true ∧ a.code = false ∧ a.b1 = true ∧ a.dpl = cpl)
      (by simp [and_assoc]), require_ite (P := a.p = true) Iff.rfl,
    require_ite (P := a.code = true ∨ a.b2 = false) (by simp)]
  split <;> [split; skip] <;> rfl

/-- The checks of a descriptor for a load of any other register, as a decision (R123). -/
theorem checkDescriptor_data {k : SReg} (hk : k ≠ .ss) (v : Selector) (cpl : BitVec 2) (a : SegAttr) :
    checkDescriptor k v cpl a =
      if a.s = true ∧ (a.code = false ∨ a.b1 = true) then
        if (a.code = true ∧ a.b2 = true) ∨ (cpl ≤ a.dpl ∧ selRpl v ≤ a.dpl) then
          if a.p = true then if a.code = true ∨ a.b2 = false then .ok () else .error (.refuse .expandDown)
          else .error (.np (selError v))
        else .error (.gp (selError v))
      else .error (.gp (selError v)) := by
  simp only [checkDescriptor, if_neg hk]
  rw [require_ite (P := a.s = true ∧ (a.code = false ∨ a.b1 = true)) (by simp),
    require_ite (P := (a.code = true ∧ a.b2 = true) ∨ (cpl ≤ a.dpl ∧ selRpl v ≤ a.dpl)) (by simp),
    require_ite (P := a.p = true) Iff.rfl, require_ite (P := a.code = true ∨ a.b2 = false) (by simp)]
  split <;> [split <;> [split; skip]; skip] <;> rfl

/-- `LoadSeg` of a selector of the GDT in protected mode, without the cases before it (R123). -/
theorem loadSeg_gdt {s : State} {k : SReg} {v : Selector} (hp : s.pe = true) (hn : selIndex v ≠ 0)
    (ht : selTable v = false) :
    s.loadSeg k v = (do
      require (decide (8 * selIndex v + 7 ≤ s.gdtr.limit.toNat)) (.gp (selError v))
      let d ← s.memRead (s.descAddr (selIndex v)) 8
      checkDescriptor k v s.cpl (descAttr d)
      let t ← s.markAccessed (s.descAddr (selIndex v)) (descAttr d)
      return t.setSeg k (descSeg v d)) := by
  unfold State.loadSeg
  rw [hp, if_neg (by simp), if_neg (fun h => hn h.1), ht]
  rfl

/-- An immediate as an operand of a size up to 32 bits is itself, extended or cut to that size. -/
theorem setWidth_32 {m n : Nat} (x : BitVec m) (hn : n ≤ 32) : (x.setWidth 32).setWidth n = x.setWidth n := by
  ext i hi
  simp
  omega

/-- The stack pointer a push of `n` bytes leaves, and what writing it back does to ESP (R124, R12). -/
theorem push_pointer (s : State) (n : Nat) :
    let big : Bool := s.pe && s.segs.ss.attr.x
    let new : Word :=
      if big = true then s.x .esp - BitVec.ofNat 32 n else ((s.x .esp).setWidth 16 - BitVec.ofNat 16 n).setWidth 32
    let esp : Word := if big = true then new else (s.x .esp).extractLsb' 16 16 ++ new.setWidth 16
    (s.pushPtr s.stackSize n).setWidth 32 = new ∧
      s.setReg .esp s.stackSize (s.pushPtr s.stackSize n) = { s with regs := s.regs.set .esp esp } := by
  intro big new esp
  have h32 : s.pushPtr .b32 n = (s.x .esp - BitVec.ofNat 32 n : BitVec 32) := by
    simp only [State.pushPtr]
    congr 1
    exact BitVec.extractLsb'_eq_self
  have h16 : s.pushPtr .b16 n = ((s.x .esp).setWidth 16 - BitVec.ofNat 16 n : BitVec 16) := rfl
  have hst : s.stackSize = if big then .b32 else .b16 := rfl
  rw [hst]
  cases hb : big with
  | true =>
    rw [if_pos rfl]
    simp only [new, esp, hb, if_true]
    rw [h32, State.setReg_32]
    exact ⟨BitVec.setWidth_eq _, rfl⟩
  | false =>
    rw [if_neg (by decide)]
    simp only [new, esp, hb]
    rw [h16, State.setReg_16]
    exact ⟨rfl, by simp; rfl⟩

end Machine

end Sys2Proof
end

