-- ==== Sys2Proof/Laws/PerInstr.lean ====
section
/-! SUPPORT. Facts about every instruction as syntax, one lemma per constructor: the encoder writes as many bytes as the
instruction's length says (R95). -/

namespace Sys2Proof.Laws.EncodeLength

/-- The encoder writes `i.length` bytes. -/
def Statement (i : Instr) : Prop := (Sys2Proof.encode i).length = i.length

/-- The prefixes apart, it is enough to count the body. -/
theorem of_body {i : Instr} (h : i.encodeBody.length = i.bodyLength) : Statement i := by
  simp [Statement, encode, Instr.length, h]

theorem cmc (p : Prefixes) : Statement (.cmc p) := of_body rfl

theorem add (p : Prefixes) (dst : RM) (src : AddImm) : Statement (.add p dst src) :=
  of_body (by simp [Instr.encodeBody, Instr.bodyLength]; omega)

theorem or (p : Prefixes) (src : Imm) : Statement (.or p src) :=
  of_body (by simp [Instr.encodeBody, Instr.bodyLength]; omega)

theorem movRegImm (p : Prefixes) (dst : Reg) (src : Imm) : Statement (.movRegImm p dst src) :=
  of_body (by simp [Instr.encodeBody, Instr.bodyLength]; omega)

theorem movSregRm16 (p : Prefixes) (sreg3 : BitVec 3) (src : RM) : Statement (.movSregRm16 p sreg3 src) :=
  of_body (by simp [Instr.encodeBody, Instr.bodyLength]; omega)

theorem pushFs (p : Prefixes) : Statement (.pushFs p) := of_body rfl

theorem jmpRel8 (p : Prefixes) (rel : BitVec 8) : Statement (.jmpRel8 p rel) := of_body rfl

theorem jccRel1632 (p : Prefixes) (c : Cond) (rel : Rel) : Statement (.jccRel1632 p c rel) :=
  of_body (by simp [Instr.encodeBody, Instr.bodyLength]; omega)

theorem jccRel8 (p : Prefixes) (c : Cond) (rel : BitVec 8) : Statement (.jccRel8 p c rel) := of_body rfl

theorem setcc (p : Prefixes) (c : Cond) (dst : RM) : Statement (.setcc p c dst) :=
  of_body (by simp [Instr.encodeBody, Instr.bodyLength]; omega)

theorem nop (p : Prefixes) : Statement (.nop p) := of_body rfl

theorem lgdt (p : Prefixes) (src : RM) : Statement (.lgdt p src) :=
  of_body (by simp [Instr.encodeBody, Instr.bodyLength]; omega)

theorem lidt (p : Prefixes) (src : RM) : Statement (.lidt p src) :=
  of_body (by simp [Instr.encodeBody, Instr.bodyLength]; omega)

theorem movR32Cr0 (p : Prefixes) (cr : BitVec 3) (dst : Reg) : Statement (.movR32Cr0 p cr dst) := of_body rfl

theorem movCr0R32 (p : Prefixes) (cr : BitVec 3) (src : Reg) : Statement (.movCr0R32 p cr src) := of_body rfl

end Sys2Proof.Laws.EncodeLength
end

