-- ==== Sys2Proof/Laws/Step.lean ====
section
/-! SUPPORT. What a step can do: when it begins, which bytes it fetches, and what its next state is. -/

namespace Sys2Proof.Machine

/-- A step begins exactly where the claims say the machine is running. -/
theorem checkStep_ok {s : State} {u : Unit} : s.checkStep = .ok u ↔ s.running := by
  unfold State.checkStep
  cases hx : s.exn with
  | some r =>
    refine ⟨fun h => (by cases h), fun h => ?_⟩
    have := h.exn
    rw [hx] at this
    cases this
  | none =>
    simp only [bind_ok_left, bind_ok, require_ok, exists_unit, Bool.not_eq_true', decide_eq_true_eq]
    exact ⟨fun ⟨h1, h2, h3⟩ => ⟨hx, h1, h2, h3⟩, fun h => ⟨h.halt, h.vm, h.pg⟩⟩

/-- Where a step begins, it runs what it fetches. -/
theorem next_of_running {s : State} (h : s.running) : s.next = s.fetch := by
  unfold State.next
  rw [checkStep_ok (u := ()) |>.2 h, bind_ok_left]

/-- What a next state of a step is: that of the instruction at EIP, or an exception of its fetch. -/
theorem step_next {s t : State} (h : step s = .next t) :
    (s.running ∧ ∃ i, s.fetch = .ok i ∧ exec i s = .next t) ∨
      (s.running ∧ ∃ e c, s.fetch = .error (.exn e c) ∧ t = s.takeException e c) := by
  unfold step at h
  cases hn : s.next with
  | ok i =>
    rw [hn] at h
    obtain ⟨⟨⟩, hc, hf⟩ := bind_ok.1 hn
    exact .inl ⟨checkStep_ok.1 hc, i, hf, h⟩
  | error o =>
    rw [hn] at h
    cases o with
    | exn e c =>
      cases h
      obtain hc | ⟨⟨⟩, hc, hf⟩ := bind_error.1 hn
      · exfalso
        unfold State.checkStep at hc
        cases hx : s.exn with
        | some r => rw [hx] at hc; cases hc
        | none =>
          rw [hx] at hc
          simp only [bind_ok_left, bind_error, require_error] at hc
          obtain ⟨-, h⟩ | ⟨-, -, ⟨-, h⟩ | ⟨-, -, -, h⟩⟩ := hc <;> cases h
      · exact .inr ⟨checkStep_ok.1 hc, e, c, hf, rfl⟩
    | fault f => cases h
    | refuse r => cases h

/-- Bytes that can be fetched are fetched, and the fetch goes on after them. -/
theorem fetchFrom_append {s : State} (bs : List Byte) (k n : Nat)
    (h : ∀ (j : Nat) (b : Byte), bs[j]? = some b → s.eip.toNat + (k + j) ≤ s.segs.cs.limit.toNat ∧
      s.populated (s.segs.cs.base + s.eip + BitVec.ofNat 32 (k + j)).toNat = true ∧
      s.mem.read (s.segs.cs.base + s.eip + BitVec.ofNat 32 (k + j)).toNat = b) :
    s.fetchFrom k (bs.length + n) = bs ++ s.fetchFrom (k + bs.length) n := by
  induction bs generalizing k with
  | nil => simp
  | cons b bs ih =>
    obtain ⟨h1, h2, h3⟩ := h 0 b rfl
    have hs : s.fetchStop k = none := by
      unfold State.fetchStop State.fetchAddr
      rw [if_neg (by simpa using h1), if_pos (by simpa using h2)]
    have e : s.fetchFrom k (bs.length + n + 1) =
        s.mem.read (s.segs.cs.base + s.eip + BitVec.ofNat 32 k).toNat :: s.fetchFrom (k + 1) (bs.length + n) := by
      conv => lhs; unfold State.fetchFrom
      rw [hs]
      rfl
    rw [List.length_cons, Nat.add_right_comm, e, ih (k + 1) fun j b hj => by
      have := h (j + 1) b (by simpa using hj)
      rwa [show k + 1 + j = k + (j + 1) by omega]]
    simp only [Nat.add_zero] at h3
    rw [h3, show k + 1 + bs.length = k + (bs.length + 1) by omega]
    rfl

/-- The window begins with the bytes that stand at EIP. -/
theorem window_codeIs {s : State} {bs : List Byte} (h : s.codeIs bs) (hl : bs.length ≤ Config.maxLength) :
    s.window = bs ++ s.fetchFrom bs.length (Config.maxLength - bs.length) := by
  have := fetchFrom_append (s := s) bs 0 (Config.maxLength - bs.length) fun j b hj => by simpa using h j b hj
  unfold State.window
  rw [show Config.maxLength = bs.length + (Config.maxLength - bs.length) by omega, this]
  simp

end Sys2Proof.Machine
end

