-- ==== Sys2Proof/Tests/Slice0.lean ====
section
/-! SUPPORT. The model's own tests: ill-formed terms, decoding of words written out from spec/30_encoding.md, single steps
with the results of spec/95_test_vectors.md part 2 (named by its ids), and a witness for the hypotheses of every
obligation that has any. -/

namespace Sys2Proof.Tests

open Sys2Proof Sys2Proof.Machine

/-! ## WellFormed: one ill-formed term for each check -/

theorem test_wf_bp_alone_has_no_mod00 : Instr.wf .b16 .a16 (.setcc {} .o (.mem (.base16 .bp .none))) = false := by decide

theorem test_wf_esp_is_no_plain_base :
    Instr.wf .b32 .a32 (.setcc {} .o (.mem (.base32 .esp (.d8 1)))) = false := by decide

theorem test_wf_ebp_alone_has_no_mod00 : Instr.wf .b32 .a32 (.setcc {} .o (.mem (.base32 .ebp .none))) = false := by decide

theorem test_wf_no_index_has_no_scale :
    Instr.wf .b32 .a32 (.lgdt {} (.mem (.sib .x2 .esp .eax .none))) = false := by decide

theorem test_wf_sib_ebp_has_no_mod00 :
    Instr.wf .b32 .a32 (.lidt {} (.mem (.sib .x1 .eax .ebp .none))) = false := by decide

theorem test_wf_no_base_no_index_has_no_scale :
    Instr.wf .b32 .a32 (.movSregRm16 {} 3 (.mem (.sibNoBase .x8 .esp 0))) = false := by decide

theorem test_wf_address_size :
    Instr.wf .b16 .a32 (.add {} (.mem (.abs16 0)) (.sext 1)) = false ∧
      Instr.wf .b16 .a16 (.add {} (.mem (.abs32 0)) (.sext 1)) = false := by decide

theorem test_wf_immediate_size :
    Instr.wf .b32 .a16 (.add {} (.reg .eax) (.same (.i16 1))) = false ∧ Instr.wf .b32 .a16 (.or {} (.i16 1)) = false ∧
      Instr.wf .b16 .a16 (.movRegImm {} .eax (.i32 1)) = false := by decide

theorem test_wf_displacement_size :
    Instr.wf .b32 .a32 (.jccRel1632 {} .o (.r16 1)) = false ∧ Instr.wf .b16 .a16 (.jccRel1632 {} .o (.r32 1)) = false := by
  decide

/-! ## Decoding: every constructor, its bytes written out field by field from the rule named -/

/-- R110: F5h. -/
theorem test_decode_cmc : decode false [0b1111_0101] = .ok (.cmc {}) [] := by decide

/-- R111: `1000 00sw`, mod 11, reg 000, r/m 100 with w = 0 (AH), imm8; and s = 1, w = 1, r/m 001 under D = 1. -/
theorem test_decode_add :
    decode false [0b1000_00_0_0, 0b11_000_100, 0x7F] = .ok (.add {} (.reg .esp) (.same (.i8 0x7F))) [] ∧
      decode true [0b1000_00_1_1, 0b11_000_001, 0x80] = .ok (.add {} (.reg .ecx) (.sext 0x80)) [] := by decide

/-- R112: `0000 110w`, imm16 low byte first. -/
theorem test_decode_or : decode false [0b0000_110_1, 0x34, 0x12] = .ok (.or {} (.i16 0x1234)) [] := by decide

/-- R120: `1011 w reg`: w = 0, reg 100 (AH); w = 1, reg 111 with a 32-bit operand size. -/
theorem test_decode_movRegImm :
    decode false [0b1011_0_100, 0x12] = .ok (.movRegImm {} .esp (.i8 0x12)) [] ∧
      decode true [0b1011_1_111, 0x78, 0x56, 0x34, 0x12] = .ok (.movRegImm {} .edi (.i32 0x12345678)) [] := by decide

/-- R121: 8Eh, mod 11, reg 100 (FS), r/m 000. -/
theorem test_decode_movSregRm16 : decode false [0b1000_1110, 0b11_100_000] = .ok (.movSregRm16 {} 4 (.reg .eax)) [] := by
  decide

/-- R122: 0Fh, `10 100 000`. -/
theorem test_decode_pushFs : decode false [0b0000_1111, 0b10_100_000] = .ok (.pushFs {}) [] := by decide

/-- R130: EBh, rel8. -/
theorem test_decode_jmpRel8 : decode false [0b1110_1011, 0xFE] = .ok (.jmpRel8 {} 0xFE) [] := by decide

/-- R131: 0Fh, `1000 tttn` with tttn 1100 (L), rel32 low byte first. -/
theorem test_decode_jccRel1632 :
    decode true [0b0000_1111, 0b1000_1100, 0x00, 0x01, 0x00, 0x00] = .ok (.jccRel1632 {} .l (.r32 0x100)) [] := by decide

/-- R132: `0111 tttn` with tttn 0100 (E), rel8. -/
theorem test_decode_jccRel8 : decode false [0b0111_0100, 0x03] = .ok (.jccRel8 {} .e 3) [] := by decide

/-- R133: 0Fh, `1001 tttn` with tttn 1111 (NLE), mod 00, reg ignored, r/m 110 (disp16). -/
theorem test_decode_setcc :
    decode false [0b0000_1111, 0b1001_1111, 0b00_101_110, 0x00, 0x03] = .ok (.setcc {} .nle (.mem (.abs16 0x300))) [] := by
  decide

/-- R134: 90h. -/
theorem test_decode_nop : decode false [0b1001_0000] = .ok (.nop {}) [] := by decide

/-- R140: 0Fh 01h, reg 010; under 32-bit addressing mod 00, r/m 101 is disp32. -/
theorem test_decode_lgdt :
    decode false [0x67, 0b0000_1111, 0b0000_0001, 0b00_010_101, 0x22, 0x01, 0x00, 0x00] =
      .ok (.lgdt { adsize := true } (.mem (.abs32 0x122))) [] := by decide

/-- R141: 0Fh 01h, reg 011; under 16-bit addressing mod 01, r/m 010 is BP + SI + disp8. -/
theorem test_decode_lidt :
    decode false [0b0000_1111, 0b0000_0001, 0b01_011_010, 0x80] = .ok (.lidt {} (.mem (.base16 .bpsi (.d8 0x80)))) [] := by
  decide

/-- R142: 0Fh, `0010 00d0` with d = 0, reg 000, r/m 011. -/
theorem test_decode_movR32Cr0 : decode false [0b0000_1111, 0b0010_0000, 0b11_000_011] = .ok (.movR32Cr0 {} 0 .ebx) [] := by
  decide

/-- R143: 0Fh, `0010 00d0` with d = 1, reg 000, r/m 110. -/
theorem test_decode_movCr0R32 : decode false [0b0000_1111, 0b0010_0010, 0b11_000_110] = .ok (.movCr0R32 {} 0 .esi) [] := by
  decide

/-- 95_test_vectors.md 2.1: the longest instruction, a sib byte of no base, and a refused one. -/
theorem test_decode_sib :
    decode false [0xF0, 0x2E, 0x66, 0x67, 0x81, 0x84, 0xB3, 0x00, 0x01, 0x00, 0x00, 0x78, 0x56, 0x34, 0x12] =
        .ok (.add { opsize := true, adsize := true, lock := true, seg := some .cs }
          (.mem (.sib .x4 .esi .ebx (.d32 0x100))) (.same (.i32 0x12345678))) [] ∧
      decode true [0x0F, 0x94, 0x04, 0b00_100_101, 0x44, 0x33, 0x22, 0x11] =
        .ok (.setcc {} .e (.mem (.sibNoBase .x1 .esp 0x11223344))) [] ∧
      decode true [0x0F, 0x94, 0x04, 0b01_100_100] = .reject .scaledNoIndex := by decide

/-- 95_test_vectors.md 2.1 and A10, A11: refused by name. -/
theorem test_decode_refused :
    decode false [0x66, 0x66, 0x90] = .reject .doubledMark ∧ decode false [0xF3, 0x90] = .reject .repeatMark ∧
      decode false [0x0F, 0x0B] = .reject .noRow ∧ decode false [0xCC] = .reject .noRow ∧
      decode false [0x82, 0xC0, 0x01] = .reject .opcode82 ∧ decode false [0x83, 0xC8, 0x01] = .reject .noRow ∧
      decode false [] = .short := by decide

/-- The host's two entry points, on the word of PUSH FS (0Fh in bits 7:0) and of LGDT with an operand word of zeros. -/
theorem test_table_words :
    decodeTableWord 16 0xA00F = some (.pushFs {}) ∧ decodeTableWord 24 0x16010F = some (.lgdt {} (.mem (.abs16 0))) ∧
      (State.reset.withFetchWord 16 0xA00F).next = .ok (.pushFs {}) := by
  refine ⟨by decide, by decide, rfl⟩

/-! ## Small states -/

/-- Real mode: code at 10000h, every other segment at 0, EIP 0. -/
def real : State :=
  { State.reset with
    eip := 0
    segs :=
      { es := .reset 0 0, cs := .reset 0x1000 0x10000, ss := .reset 0 0, ds := .reset 0 0, fs := .reset 0 0,
        gs := .reset 0 0 } }

/-- The state with bytes placed in memory from a linear address on. -/
def put (s : State) (a : Word) (bs : List Byte) : State := s.setMem (s.mem.writeBytes a bs)

/-- A flat 32-bit segment of 4 GB. -/
def flat (access : Byte) (base : Word) : SegReg :=
  { sel := 0x10, base, limit := 0xFFFFFFFF, attr := { access, g := true, x := true, avl := false }, valid := true }

/-- Protected mode, CPL 0, flat 32-bit segments, code at 10000h, the GDT of vectors S8 to S10 at 100h. -/
def prot : State :=
  put
    { State.reset with
      eip := 0
      cr0 := 1
      gdtr := { base := 0x100, limit := 0x17 }
      segs :=
        { es := flat 0x93 0, cs := flat 0x9B 0x10000, ss := flat 0x93 0, ds := flat 0x93 0, fs := flat 0x93 0,
          gs := flat 0x93 0 } }
    0x108 [0xFF, 0xFF, 0x00, 0x00, 0x00, 0x9E, 0x8F, 0x00, 0xFF, 0xFF, 0x00, 0x00, 0x00, 0x92, 0x8F, 0x00]

/-- The state after one step with the bytes placed at EIP, if there is one. -/
def after (s : State) (bs : List Byte) : Option State :=
  match step (put s (s.fetchAddr 0) bs) with
  | .next t => some t
  | _ => none

/-- The refusal of one step with the bytes placed at EIP, if it is refused. -/
def refusal (s : State) (bs : List Byte) : Option Refusal :=
  match step (put s (s.fetchAddr 0) bs) with
  | .refused r => some r
  | _ => none

/-- What the fault state records. -/
def raised (t : State) : Option (Exception × Option (BitVec 16)) := t.exn.map fun r => (r.exn, r.code)

/-! ## Single steps -/

theorem test_cmc_sets_clear_carry :
    (after real [0xF5]).map (fun t => (t.eflags, t.eip)) = some (3, 1) := by decide

theorem test_cmc_locked_raises :
    (after real [0xF0, 0xF5]).map (fun t => (raised t, t.eflags, t.eip)) = some (some (.invalidOpcode, none), 2, 0) := by
  decide

/-- A2 -/
theorem test_add_to_ah :
    (after (real.setX .eax 0x100) [0x80, 0xC4, 0x7F]).map (fun t => (t.x .eax, t.status)) =
      some (0x8000, { cf := false, of := true, sf := true, zf := false, af := true, pf := false }) := by decide

/-- A8 -/
theorem test_add_locked_to_memory :
    (after (put ((prot.setX .ebx 0x1000).setX .esi 2) 0x1010 [0x00, 0x00, 0xFE, 0xFF])
        [0xF0, 0x64, 0x81, 0x44, 0xB3, 0x08, 0x00, 0x00, 0x03, 0x00]).map
          (fun t => (t.mem.readLe 0x1010 4, t.status, t.eip, t.busLock)) =
      some (0x10000, { cf := true, of := false, sf := false, zf := false, af := false, pf := true }, 10, true) := by decide

/-- O3 -/
theorem test_or_into_al :
    (after (real.setX .eax 0x1234) [0x0C, 0x80]).map (fun t => (t.x .eax, t.eip)) = some (0x12B4, 2) := by decide

/-- O2: the result byte E1h, whatever AF is. -/
theorem test_or_flags (af : Bool) :
    orFlags (0xE1 : BitVec 8) af = { cf := false, of := false, sf := true, zf := false, af, pf := true } := by
  cases af <;> decide

/-- M1 -/
theorem test_movRegImm_ah :
    (after (real.setX .eax 0xAAAA5555) [0xB4, 0x12]).map (·.regs) =
      some { real.regs with eax := 0xAAAA1255 } := by decide

/-- M6 -/
theorem test_movRegImm_operand_size :
    (after real [0x66, 0xBC, 0xFF, 0xFF, 0xFF, 0xFF]).map (fun t => (t.x .esp, t.eip)) = some (0xFFFFFFFF, 6) := by decide

/-- S2r -/
theorem test_movSreg_real_mode :
    (after (put real 0x200 [0x00, 0x20]) [0x8E, 0x1E, 0x00, 0x02]).map (·.seg .ds) =
      some { real.segs.ds with sel := 0x2000, base := 0x20000 } := by decide

/-- S1p -/
theorem test_movSreg_protected_mode :
    (after (prot.setX .eax 0x10) [0x8E, 0xD8]).map (fun t => (t.seg .ds, t.mem.read 0x115)) =
      some ({ sel := 0x10, base := 0, limit := 0xFFFFFFFF, attr := { access := 0x93, g := true, x := false, avl := false },
              valid := true }, 0x93) := by decide

/-- P2 -/
theorem test_pushFs_wraps :
    (after (real.setSeg .fs (.reset 0xABCD 0)) [0x0F, 0xA0]).map (fun t => (t.x .esp, t.mem.readLe 0xFFFE 2)) =
      some (0xFFFE, 0xABCD) := by decide

/-- P3 -/
theorem test_pushFs_beyond_limit_raises :
    (after (real.setX .esp 1) [0x0F, 0xA0]).map (fun t => (raised t, t.x .esp)) =
      some (some (.stackFault, some 0), 1) := by decide

/-- J5 -/
theorem test_jmp_truncates : (after (real.setEip 0xFFFE) [0xEB, 0x10]).map (·.eip) = some 0x10 := by decide

/-- J3 -/
theorem test_jmp_backwards : (after (real.setEip 0x100) [0xEB, 0x80]).map (·.eip) = some 0x82 := by decide

/-- J11 -/
theorem test_jcc_near_taken :
    (after { prot with eip := 0x1000, eflags := 0x82 } [0x0F, 0x8C, 0x00, 0x01, 0x00, 0x00]).map (·.eip) =
      some 0x1106 := by decide

/-- J12 -/
theorem test_jcc_near_beyond_limit_raises :
    (after (real.setEflags 0x42) [0x66, 0x0F, 0x84, 0x00, 0x00, 0x01, 0x00]).map (fun t => (raised t, t.eip)) =
      some (some (.generalProtection, some 0), 0) := by decide

/-- J7 -/
theorem test_jcc_short_taken : (after { real with eip := 5, eflags := 0x42 } [0x74, 0x03]).map (·.eip) = some 0xA := by
  decide

/-- J8 -/
theorem test_jcc_short_not_taken : (after (real.setEip 5) [0x74, 0x03]).map (·.eip) = some 7 := by decide

/-- T2 -/
theorem test_setcc_ah :
    (after (real.setX .eax 0xFFFFFFFF) [0x0F, 0x94, 0xC4]).map (fun t => (t.x .eax, t.eflags)) =
      some (0xFFFF00FF, 2) := by decide

/-- T3 -/
theorem test_setcc_memory :
    (after real [0x0F, 0x9F, 0x06, 0x00, 0x03]).map (fun t => (t.mem.read 0x300, t.eip)) = some (1, 5) := by decide

/-- N2 -/
theorem test_nop_with_prefix :
    (after real [0x66, 0x90]).map (fun t => (t.regs, t.eflags, t.eip)) = some (real.regs, 2, 2) := by decide

/-- Y3 -/
theorem test_lgdt_keeps_24_bits :
    (after (put real 0x122 [0x17, 0x00, 0x00, 0x01, 0x00, 0xAB]) [0x0F, 0x01, 0x16, 0x22, 0x01]).map (·.gdtr) =
      some { limit := 0x17, base := 0x100 } := by decide

/-- Y8 -/
theorem test_lgdt_wraps :
    (after (put (put real 0 [0x00, 0x08]) 0xFFFE [0x27]) [0x0F, 0x01, 0x16, 0xFE, 0xFF]).map (·.gdtr) =
      some { limit := 0x27, base := 0x800 } := by decide

/-- Y6 -/
theorem test_lidt :
    (after (put real 0x118 [0xFF]) [0x67, 0x0F, 0x01, 0x1D, 0x18, 0x01, 0x00, 0x00]).map (fun t => (t.idtr, t.eip)) =
      some ({ limit := 0xFF, base := 0 }, 8) := by decide

/-- R141: a register operand. -/
theorem test_lidt_register_raises :
    (after real [0x0F, 0x01, 0xD8]).map raised = some (some (.invalidOpcode, none)) := by decide

/-- Y10 -/
theorem test_movR32Cr0 : (after (real.setCr0 0x10) [0x0F, 0x20, 0xC3]).map (·.x .ebx) = some 0x10 := by decide

/-- Y14 -/
theorem test_movR32Cr0_user_raises :
    (after { prot with cpl := 3 } [0x0F, 0x20, 0xC0]).map raised = some (some (.generalProtection, some 0)) := by decide

/-- Y12 -/
theorem test_movCr0R32_sets_pe :
    (after ((real.setX .eax 0x11).setCr0 0x10) [0x0F, 0x22, 0xC0]).map (fun t => (t.cr0, t.pe, t.segs.cs)) =
      some (0x11, true, real.segs.cs) := by decide

/-- Y13 -/
theorem test_movCr0R32_paging_refused :
    refusal (real.setX .eax 0x80000001) [0x0F, 0x22, 0xC0] = some .paging := by decide

/-! ## Witnesses: concrete states and operands that meet the hypotheses of each obligation, clause by clause -/

/-- The longest instruction. -/
def longest : Instr :=
  .add { opsize := true, adsize := true, lock := true, seg := some .cs } (.mem (.sib .x4 .esi .ebx (.d32 0x100)))
    (.same (.i32 0x12345678))

theorem witness_DecodeInvertsEncode : longest.wfIn false = true ∧ longest.length = 15 := by decide

theorem witness_DecodedInstructionIsWellFormed : decode false (encode longest ++ [0x90]) = .ok longest [0x90] := by decide

theorem witness_PrefixOrderHasNoMeaning :
    (∀ b ∈ [0xF0#8, 0x2E, 0x66, 0x67], b ∈ prefixBytes) ∧
      List.Perm [0xF0#8, 0x2E, 0x66, 0x67] [0x67, 0x66, 0x2E, 0xF0] ∧
      decode false [0x67, 0x66, 0x2E, 0xF0, 0x90] =
        .ok (.nop { opsize := true, adsize := true, lock := true, seg := some .cs }) [] := by decide

theorem witness_DoubledPrefixRefused :
    [0x26#8, 0x2E, 0x36, 0x3E, 0x64, 0x65] ∈ prefixKinds ∧ 0x26#8 ∈ [0x26#8, 0x2E, 0x36, 0x3E, 0x64, 0x65] ∧
      0x65#8 ∈ [0x26#8, 0x2E, 0x36, 0x3E, 0x64, 0x65] ∧ ∀ b ∈ [0xF0#8] ++ [0x66], b ∈ prefixBytes := by decide

theorem witness_RepeatPrefixRefused : decode true [0x66, 0x90, 0xF5] = .ok (.nop { opsize := true }) [0xF5] := by decide

/-- Prefixes without two of a kind: none, one of each kind, two that no instruction may take. -/
theorem witness_BytesWithoutRowRefused_prefixes :
    PrefixesOnce [] ∧ PrefixesOnce [0xF2, 0x67, 0x3E, 0xF0, 0x66] ∧ PrefixesOnce [0xF0, 0xF3] :=
  ⟨⟨by decide, by decide⟩, ⟨by decide, by decide⟩, by decide, by decide⟩

theorem witness_BytesWithoutRowRefused_one_byte :
    (0x8D#8) ∉ prefixBytes ∧ 0x8D#8 ≠ 0x0F ∧ 0x8D#8 &&& 0xFC ≠ 0x80 ∧ 0x8D#8 &&& 0xFE ≠ 0x0C ∧
      0x8D#8 &&& 0xF0 ≠ 0xB0 ∧ 0x8D#8 &&& 0xF0 ≠ 0x70 ∧ 0x8D#8 ∉ [0xF5#8, 0x8E, 0xEB, 0x90] := by decide

theorem witness_BytesWithoutRowRefused_two_bytes :
    0x21#8 &&& 0xF0 ≠ 0x80 ∧ 0x21#8 &&& 0xF0 ≠ 0x90 ∧ 0x21#8 ∉ [0xA0#8, 0x01, 0x20, 0x22] := by decide

theorem witness_BytesWithoutRowRefused_reg_field :
    (0x83#8 = 0x80 ∨ 0x83#8 = 0x81 ∨ 0x83#8 = 0x83) ∧ (7 : BitVec 3) ≠ 0 ∧ (1 : BitVec 3) ≠ 2 ∧ (4 : BitVec 3) ≠ 3 := by
  decide

theorem witness_SizesFollowDefaultAndPrefix :
    decode true [0x66, 0x67, 0x81, 0x06, 0x00, 0x02, 0x34, 0x12] =
      .ok (.add { opsize := true, adsize := true } (.mem (.abs16 0x200)) (.same (.i16 0x1234))) [] := by decide

/-- A sum that wraps modulo 2^16, with an override. -/
theorem witness_EffectiveAddress16 :
    (7 : BitVec 3) ≠ 6 ∧ takeRM .a16 anyReg [packFields 1 0 2, 0xFF] = .ok (0, .mem (.base16 .bpsi (.d8 0xFF))) [] ∧
      (real.setX .esi 0x12340000).ea (.base16 .bpsi (.d8 0xFF)) = 0xFFFF ∧
      memSeg {} (.base16 .bpsi (.d8 0xFF)) = .ss ∧ memSeg { seg := some .gs } (.base16 .bpsi (.d8 0xFF)) = .gs := by decide

theorem witness_EffectiveAddress32 :
    Reg.ebx ≠ .esp ∧ Reg.ebx ≠ .ebp ∧ takeRM .a32 anyReg [packFields 1 0 5, 0x80] = .ok (0, .mem (.base32 .ebp (.d8 0x80))) [] ∧
      real.ea (.base32 .ebp (.d8 0x80)) = 0xFFFFFF80 ∧ memSeg {} (.base32 .ebp (.d8 0x80)) = .ss := by decide

theorem witness_EffectiveAddressSib :
    (Reg.esp = .esp ∧ (1 : BitVec 2) ≠ 0 ∧ (2 : BitVec 2) ≠ 3) ∧ ¬ (Reg.esp = .esp ∧ (0 : BitVec 2) ≠ 0) ∧
      ¬ (Reg.esi = .esp ∧ (3 : BitVec 2) ≠ 0) ∧ Reg.esp ≠ .ebp ∧
      ((real.setX .ebx 0xFFFFFFF0).setX .esi 4).ea (.sib .x8 .esi .ebx (.d8 8)) = 0x18 := by decide

theorem witness_SubRegistersAlias :
    Reg.ecx ≠ .eax ∧ Reg.eax ∈ [Reg.eax, .ecx, .edx, .ebx] ∧
      (Reg.esp, Reg.eax) ∈ [(Reg.esp, Reg.eax), (.ebp, .ecx), (.esi, .edx), (.edi, .ebx)] := by decide

/-- A write that wraps past the last address. -/
theorem witness_MixedWidthAccess :
    real.mem.wf = true ∧ real.memWrite 0xFFFFFFFE 4 (0x44332211 : BitVec 32) =
      .ok (real.setMem [(0, 0x33), (1, 0x44), (0xFFFFFFFE, 0x11), (0xFFFFFFFF, 0x22)]) := ⟨rfl, rfl⟩

theorem witness_EqualMemoriesAreEqualData :
    Memory.wf [(0, 1), (0xFFFFFFFF, 2)] = true ∧ ∀ a : Nat,
      Memory.read [(0, 1), (0xFFFFFFFF, 2)] a = Memory.read (Memory.write [(0xFFFFFFFF, 2)] 0 1) a :=
  ⟨by decide, fun _ => rfl⟩

/-- A check that passes, as the claims say it. -/
theorem reaches_of {s : State} {k : SReg} {off : Word} {n : Nat} {w : Bool} (h : s.checkAccess k off n w = .ok ()) :
    s.reaches k off n w :=
  checkAccess_reaches.1 h

/-- The last byte of a segment is reached, by a read and by a write. -/
theorem witness_AccessesAreChecked_reaches : real.reaches .ds 0xFFFF 1 false ∧ prot.reaches .ss 0xFFFFFFFF 1 true :=
  ⟨reaches_of rfl, reaches_of rfl⟩

/-- One byte more is not, nor is a write to a code segment. -/
theorem witness_AccessesAreChecked_misses :
    real.misses .ds 0xFFFF 2 false ∧ real.misses .ss 0x10000 1 true ∧ prot.misses .cs 0 1 true :=
  ⟨checkAccess_misses_iff.1 rfl, checkAccess_misses_iff.1 rfl, checkAccess_misses_iff.1 rfl⟩

/-- A state that holds an expand-down segment. -/
def down : State := prot.setSeg .es (flat 0x97 0)

theorem witness_AccessesAreChecked_growsDown : down.refusesDown .es := ⟨rfl, rfl, rfl, rfl, rfl⟩

/-- In real mode the same register is checked against its limit alone (R48). -/
theorem witness_AccessesAreChecked_growsDown_real : (down.setCr0 0).reaches .es 0 4 true := reaches_of rfl

/-- EIP at the last offset from which a one-byte instruction has a successor. -/
def lastRoom : State := real.setEip 0xFFFFFFFE

theorem witness_CmcInvertsCarry :
    ({ lock := true } : Prefixes).lock = true ∧ ({} : Prefixes).lock = false ∧ lastRoom.room (.cmc {}) ∧
      ¬ (real.setEip 0xFFFFFFFF).room (.cmc {}) := by unfold State.room; decide

theorem witness_AddToRegister :
    ({} : Prefixes).lock = false ∧ real.room (.add {} (.reg .esp) (.same (.i8 0x7F))) ∧
      (Size.b8 = .b8 ∧ (0x7F : BitVec 8) = (0x7F : BitVec 8).setWidth 8) ∧
      real.room (.add {} (.reg .eax) (.sext 0x80)) ∧
      (Size.b16 = real.opsize {} ∧ (0xFF80 : BitVec 16) = (0x80 : BitVec 8).signExtend 16) ∧
      (Size.b32 = prot.opsize {} ∧ (0x80000000 : BitVec 32) = (0x80000000 : BitVec 32).setWidth 32) := by
  unfold State.room
  decide

/-- A8: a locked ADD to memory. -/
def addState : State := put ((prot.setX .ebx 0x1000).setX .esi 2) 0x1010 [0x00, 0x00, 0xFE, 0xFF]

/-- A8's prefixes and operands. -/
def addPrefixes : Prefixes := { lock := true, seg := some .fs }

/-- A8's destination. -/
def addMem : Mem := .sib .x4 .esi .ebx (.d8 8)

theorem witness_AddToMemory :
    addState.mem.wf = true ∧ addState.room (.add addPrefixes (.mem addMem) (.same (.i32 0x30000))) ∧
      (Size.b32 = addState.opsize addPrefixes ∧ (0x30000 : BitVec 32) = (0x30000 : BitVec 32).setWidth 32) ∧
      addState.reaches (memSeg addPrefixes addMem) (addState.ea addMem) Size.b32.bytes true ∧
      addState.storable (addState.linear addPrefixes addMem) Size.b32.bytes ∧
      addState.holds (addState.linear addPrefixes addMem) Size.b32.bytes (0xFFFE0000 : BitVec 32) := by
  refine ⟨by decide, by unfold State.room; decide, by decide, reaches_of rfl, ?_, ?_⟩
  · unfold State.storable; decide
  · exact ⟨by unfold State.backed; decide, rfl⟩

/-- A12: a word whose second byte is beyond the limit; and a lock prefix. -/
theorem witness_AddRaises :
    ({ lock := true } : Prefixes).lock = true ∧
      real.misses (memSeg {} (.abs16 0xFFFF)) (real.ea (.abs16 0xFFFF)) (addSize (real.opsize {}) (.same (.i16 1))).bytes true :=
  ⟨rfl, checkAccess_misses_iff.1 rfl⟩

/-- AL = 80h plus 80h, which overflows both ways; and A8's locked ADD to memory. -/
theorem witness_AddFlagsReportOverflow :
    ((Size.b8 = .b8 ∧ (0x80 : BitVec 8) = (0x80 : BitVec 8).setWidth 8) ∧
        (0x80 : BitVec 8) = (real.setX .eax 0x80).reg .eax .b8 ∧
        (∃ t, exec (.add {} (.reg .eax) (.same (.i8 0x80))) (real.setX .eax 0x80) = .next t ∧ t.exn = none) ∧
        ((0x80 : BitVec 8) + 0x80).toNat ≠ 0x80 + 0x80 ∧
        ((0x80 : BitVec 8) + 0x80).toInt ≠ (0x80 : BitVec 8).toInt + (0x80 : BitVec 8).toInt) ∧
      addState.holds (addState.linear addPrefixes addMem) Size.b32.bytes (0xFFFE0000 : BitVec 32) ∧
      ∃ t, exec (.add addPrefixes (.mem addMem) (.same (.i32 0x30000))) addState = .next t ∧ t.exn = none :=
  ⟨⟨by decide, rfl, ⟨_, rfl, rfl⟩, by decide, by decide⟩, ⟨by unfold State.backed; decide, rfl⟩, _, rfl, rfl⟩

theorem witness_OrIntoAccumulator :
    operandSize false ({} : Prefixes).opsize = .b16 ∧ operandSize false ({ opsize := true } : Prefixes).opsize = .b32 ∧
      ({ lock := true } : Prefixes).lock = true ∧ ({} : Prefixes).lock = false ∧ real.room (.or {} (.i16 0x8000)) ∧
      (Size.b16 = real.opsize {} ∧ (0x8000 : BitVec 16) = (0x8000 : BitVec 16).setWidth 16) := by
  unfold State.room
  decide

theorem witness_MovImmediateLoadsRegister :
    operandSize true ({ opsize := true } : Prefixes).opsize = .b16 ∧ operandSize true ({} : Prefixes).opsize = .b32 ∧
      ({ lock := true } : Prefixes).lock = true ∧ ({} : Prefixes).lock = false ∧ real.room (.movRegImm {} .edi (.i8 0xFF)) ∧
      (Size.b8 = .b8 ∧ (0xFF : BitVec 8) = (0xFF : BitVec 8).setWidth 8) := by
  unfold State.room
  decide

/-- A source in a register and one in memory (S2r). -/
theorem witness_SegmentLoadInRealMode :
    ({} : Prefixes).lock = false ∧ real.room (.movSregRm16 {} (SReg.code .gs) (.reg .ebx)) ∧ real.pe = false ∧
      SReg.gs ≠ .cs ∧ (real.setX .ebx 0x5FFFF).sourceIs {} (.reg .ebx) 0xFFFF ∧
      (put real 0x200 [0x00, 0x20]).sourceIs {} (.mem (.abs16 0x200)) 0x2000 := by
  refine ⟨rfl, by unfold State.room; decide, rfl, by decide, rfl, reaches_of rfl, ?_⟩
  unfold State.holds State.backed; decide

/-- A state in protected mode whose AX holds a selector, and whose descriptor 2 has the access byte given. -/
def selState (sel : Word) (access : Byte) : State := put (prot.setX .eax sel) 0x115 [access]

/-- Descriptor 2 of the GDT with the access byte given. -/
def descriptor (access : Byte) : BitVec 64 := 0x008F#16 ++ access ++ 0x000000FFFF#40

theorem holds_descriptor :
    (selState 0x10 0x92).holds 0x110 8 (descriptor 0x92) ∧ (selState 0x10 0x97).holds 0x110 8 (descriptor 0x97) ∧
      (selState 0x10 0x82).holds 0x110 8 (descriptor 0x82) ∧ (selState 0x10 0x12).holds 0x110 8 (descriptor 0x12) := by
  unfold State.holds State.backed; decide

/-- S1p, S3p: descriptor 2 into DS and into SS, its last byte the last of the table. -/
theorem witness_SegmentLoadFromDescriptor :
    let s := selState 0x10 0x92
    let v : BitVec 16 := 0x10
    let acc : BitVec 8 := (descriptor 0x92).extractLsb' 40 8
    ({} : Prefixes).lock = false ∧ s.room (.movSregRm16 {} 3 (.reg .eax)) ∧ s.pe = true ∧ s.mem.wf = true ∧
      SReg.ds ≠ .cs ∧ s.sourceIs {} (.reg .eax) v ∧ v.extractLsb' 3 13 ≠ 0 ∧ v.getLsbD 2 = false ∧
      8 * (v.extractLsb' 3 13).toNat + 7 = s.gdtr.limit.toNat ∧
      s.gdtr.base + BitVec.ofNat 32 (8 * (v.extractLsb' 3 13).toNat) = 0x110 ∧ s.holds 0x110 8 (descriptor 0x92) ∧
      acc.getLsbD 7 = true ∧ acc.getLsbD 4 = true ∧ acc.getLsbD 2 = false ∧ acc.getLsbD 3 = false ∧
      acc.getLsbD 1 = true ∧ v.extractLsb' 0 2 = s.cpl ∧ acc.extractLsb' 5 2 = s.cpl ∧ s.storable (0x110 + 5) 1 := by
  refine ⟨rfl, by unfold State.room; decide, rfl, by decide, by decide, rfl, by decide, by decide, by decide, by decide,
    holds_descriptor.1, by decide, by decide, by decide, by decide, by decide, by decide, by decide, ?_⟩
  unfold State.storable; decide

/-- S5p, S6p, with RPL 3. -/
theorem witness_NullSelectorLoad :
    let s := selState 3 0x92
    let v : BitVec 16 := 3
    ({} : Prefixes).lock = false ∧ s.pe = true ∧ SReg.ss ≠ .cs ∧ s.sourceIs {} (.reg .eax) v ∧ v.extractLsb' 3 13 = 0 ∧
      v.getLsbD 2 = false ∧ SReg.ds ≠ .ss ∧ s.room (.movSregRm16 {} 3 (.reg .eax)) :=
  ⟨rfl, rfl, by decide, rfl, by decide, by decide, by decide, by unfold State.room; decide⟩

/-- A source word whose second byte is beyond the limit, in real and in protected mode. -/
theorem witness_SegmentLoadRaises_source :
    ({} : Prefixes).lock = false ∧ SReg.gs ≠ .cs ∧
      real.misses (memSeg {} (.abs16 0xFFFF)) (real.ea (.abs16 0xFFFF)) 2 false ∧ prot.pe = true ∧
      prot.misses (memSeg {} (.abs32 0xFFFFFFFF)) (prot.ea (.abs32 0xFFFFFFFF)) 2 false :=
  ⟨rfl, by decide, checkAccess_misses_iff.1 rfl, rfl, checkAccess_misses_iff.1 rfl⟩

/-- S4p: the first selector outside the table. -/
theorem witness_SegmentLoadRaises_limit :
    (selState 0x18 0x92).sourceIs {} (.reg .eax) 0x18 ∧ ¬ ((0x18 : BitVec 16).extractLsb' 3 13 = 0) ∧
      (0x18 : BitVec 16).getLsbD 2 = false ∧
      (selState 0x18 0x92).gdtr.limit.toNat < 8 * ((0x18 : BitVec 16).extractLsb' 3 13).toNat + 7 :=
  ⟨rfl, by decide, by decide, by decide⟩

/-- S10p, S13p: SS with RPL 1; SS not present, all else right. -/
theorem witness_SegmentLoadRaises_ss :
    let acc : BitVec 8 := (descriptor 0x12).extractLsb' 40 8
    (selState 0x11 0x92).sourceIs {} (.reg .eax) 0x11 ∧ (0x11 : BitVec 16).extractLsb' 0 2 ≠ (selState 0x11 0x92).cpl ∧
      (selState 0x10 0x12).holds 0x110 8 (descriptor 0x12) ∧ (0x10 : BitVec 16).extractLsb' 0 2 = (selState 0x10 0x12).cpl ∧
      acc.getLsbD 4 = true ∧ acc.getLsbD 3 = false ∧ acc.getLsbD 1 = true ∧
      acc.extractLsb' 5 2 = (selState 0x10 0x12).cpl ∧ acc.getLsbD 7 = false :=
  ⟨rfl, by decide, holds_descriptor.2.2.2, by decide, by decide, by decide, by decide, by decide, by decide⟩

/-- S15p, S9p, S12p: DS from a system descriptor; with RPL 3 above DPL 0; not present. -/
theorem witness_SegmentLoadRaises_data :
    ((selState 0x10 0x82).holds 0x110 8 (descriptor 0x82) ∧
        ((descriptor 0x82).extractLsb' 40 8 : BitVec 8).getLsbD 4 = false) ∧
      (((descriptor 0x92).extractLsb' 40 8 : BitVec 8).getLsbD 4 = true ∧
        ((descriptor 0x92).extractLsb' 40 8 : BitVec 8).getLsbD 3 = false ∧
        ¬ ((0x13 : BitVec 16).extractLsb' 0 2 ≤ ((descriptor 0x92).extractLsb' 40 8 : BitVec 8).extractLsb' 5 2)) ∧
      ((selState 0x10 0x12).holds 0x110 8 (descriptor 0x12) ∧
        ((0x10 : BitVec 16).extractLsb' 0 2 ≤ ((descriptor 0x12).extractLsb' 40 8 : BitVec 8).extractLsb' 5 2) ∧
        ((descriptor 0x12).extractLsb' 40 8 : BitVec 8).getLsbD 7 = false) :=
  ⟨⟨holds_descriptor.2.2.1, by decide⟩, by decide, holds_descriptor.2.2.2, by decide, by decide⟩

/-- S11p, S14p. -/
theorem witness_SegmentLoadRefuses :
    let s := selState 0x10 0x97
    let acc : BitVec 8 := (descriptor 0x97).extractLsb' 40 8
    ((selState 0x14 0x92).sourceIs {} (.reg .eax) 0x14 ∧ (0x14 : BitVec 16).getLsbD 2 = true) ∧
      (s.sourceIs {} (.reg .eax) 0x10 ∧ (0x10 : BitVec 16).extractLsb' 3 13 ≠ 0 ∧ (0x10 : BitVec 16).getLsbD 2 = false ∧
        s.holds 0x110 8 (descriptor 0x97) ∧ acc.getLsbD 7 = true ∧ acc.getLsbD 4 = true ∧ acc.getLsbD 3 = false ∧
        acc.getLsbD 2 = true ∧ acc.getLsbD 1 = true ∧ (0x10 : BitVec 16).extractLsb' 0 2 = s.cpl ∧
        acc.extractLsb' 5 2 = s.cpl) :=
  ⟨⟨rfl, by decide⟩, rfl, by decide, by decide, holds_descriptor.2.1, by decide, by decide, by decide, by decide,
    by decide, by decide, by decide⟩

theorem witness_UnusedSegmentCodeRaises :
    SReg.ofCode 1 = some .cs ∧ SReg.ofCode 6 = none ∧ SReg.ofCode 7 = none ∧ SReg.ofCode 5 = some .gs := by decide

/-- P2, P3: a push that wraps, and one that straddles the limit. -/
theorem witness_PushFsStoresBelowStackPointer :
    ({} : Prefixes).lock = false ∧ real.opsize {} = .b16 ∧ real.mem.wf = true ∧ real.room (.pushFs {}) ∧
      real.reaches .ss 0xFFFE 2 true ∧ real.storable 0xFFFE 2 ∧ (real.setX .esp 1).misses .ss 0xFFFF 2 true ∧
      prot.opsize {} = .b32 ∧ prot.reaches .ss 0xFFFFFFFC 4 true ∧ prot.storable 0xFFFFFFFC 4 := by
  refine ⟨rfl, rfl, rfl, by unfold State.room; decide, reaches_of rfl, ?_,
    checkAccess_misses_iff.1 rfl, by decide, reaches_of rfl, ?_⟩ <;>
  unfold State.storable <;> decide

/-- J6 with a limit of 10010h and one of 1000Fh. -/
theorem witness_JmpIsRelative :
    let s := prot.setEip 0xFFFE
    let sum : Word := s.nextPc (.jmpRel8 {} 0x10) + (0x10 : BitVec 8).signExtend 32
    s.opsize {} = .b32 ∧ sum = 0x10010 ∧
      sum.toNat ≤ ((s.setSeg .cs { s.segs.cs with limit := 0x10010 }).segs.cs.limit).toNat ∧
      ((s.setSeg .cs { s.segs.cs with limit := 0x1000F }).segs.cs.limit).toNat < sum.toNat := by decide

/-- J12, J13, J7. -/
theorem witness_ConditionalJumps :
    operandSize false ({} : Prefixes).opsize = .b16 ∧ operandSize false ({ opsize := true } : Prefixes).opsize = .b32 ∧
      Cond.holds .e (real.setEflags 0x42).status = true ∧ Cond.holds .e real.status = false ∧
      real.segs.cs.limit.toNat < (real.nextPc (.jccRel1632 { opsize := true } .e (.r32 0xFFFF)) + 0xFFFF).toNat ∧
      (real.nextPc (.jccRel8 {} .e 3) + 3).toNat ≤ real.segs.cs.limit.toNat ∧ lastRoom.room (.cmc {}) ∧
      (real.setEip 0xFFFFFFFD).room (.jccRel8 {} .e 3) := by
  unfold State.room
  decide

/-- The last byte of a segment, and the first beyond it. -/
theorem witness_SetccStoresCondition :
    (RM.mem (.abs16 0xFFFF)).wf (addressSize false ({} : Prefixes).adsize) = true ∧ real.mem.wf = true ∧
      real.room (.setcc {} .o (.reg .esp)) ∧ real.room (.setcc {} .o (.mem (.abs16 0xFFFF))) ∧
      real.reaches (memSeg {} (.abs16 0xFFFF)) (real.ea (.abs16 0xFFFF)) 1 true ∧
      real.storable (real.linear {} (.abs16 0xFFFF)) 1 ∧
      real.misses (memSeg {} (.abs32 0x10000)) (real.ea (.abs32 0x10000)) 1 true := by
  refine ⟨by decide, rfl, by unfold State.room; decide, by unfold State.room; decide,
    reaches_of rfl, ?_, checkAccess_misses_iff.1 rfl⟩
  unfold State.storable; decide

theorem witness_NopOnlyAdvances :
    ({ lock := true } : Prefixes).lock = true ∧ ({} : Prefixes).lock = false ∧ lastRoom.room (.nop {}) := by
  unfold State.room
  decide

/-- Y8's two reads, and one of a limit word beyond the segment limit. -/
theorem witness_TableRegisterLoads :
    let s := put (put real 0 [0x00, 0x08]) 0xFFFE [0x27]
    let m : Mem := .abs16 0xFFFE
    s.mayRunPrivileged ∧ s.reaches (memSeg {} m) (s.ea m) 2 false ∧ s.holds (s.linear {} m) 2 (0x27 : BitVec 16) ∧
      s.reaches (memSeg {} m) 0 4 false ∧ s.holds ((s.seg (memSeg {} m)).base + 0) 4 (0x800 : BitVec 32) ∧
      s.room (.lgdt {} (.mem m)) ∧ s.room (.lidt {} (.mem m)) := by
  refine ⟨.inl rfl, reaches_of rfl, ?_, reaches_of rfl, ?_, ?_, ?_⟩
  · unfold State.holds State.backed; decide
  · unfold State.holds State.backed; decide
  · unfold State.room; decide
  · unfold State.room; decide

theorem witness_TableRegisterLoads_raises :
    (RM.mem (.abs16 0xFFFF)).wf (addressSize false ({} : Prefixes).adsize) = true ∧
      ¬ ({ prot with cpl := 1 } : State).mayRunPrivileged ∧
      real.misses (memSeg {} (.abs16 0xFFFF)) (real.ea (.abs16 0xFFFF)) 2 false ∧
      real.reaches (memSeg {} (.abs16 0xFFFB)) (real.ea (.abs16 0xFFFB)) 2 false ∧
      real.backed (real.linear {} (.abs16 0xFFFB)) 2 ∧ real.misses (memSeg {} (.abs16 0xFFFB)) 0xFFFD 4 false := by
  refine ⟨by decide, by unfold State.mayRunPrivileged; decide, checkAccess_misses_iff.1 rfl,
    reaches_of rfl, ?_, checkAccess_misses_iff.1 rfl⟩
  unfold State.backed; decide

theorem witness_MovFromCr0 :
    ({ prot with cpl := 1 } : State).mayRunPrivileged = False ∧ prot.mayRunPrivileged ∧ (7 : BitVec 3) ≠ 0 ∧
      prot.room (.movR32Cr0 {} 0 .edi) := by
  refine ⟨?_, .inr ⟨by decide, rfl⟩, by decide, by unfold State.room; decide⟩
  simp only [eq_iff_iff, iff_false]
  unfold State.mayRunPrivileged; decide

theorem witness_MovToCr0 :
    prot.mayRunPrivileged ∧ ((prot.setX .edi 0x80000000).x .edi).getLsbD 31 = true ∧
      ((prot.setX .edi 0x7FFFFFFF).x .edi).getLsbD 31 = false ∧ (prot.setX .edi 0x7FFFFFFF).room (.movCr0R32 {} 0 .edi) :=
  ⟨.inr ⟨by decide, rfl⟩, by decide, by decide, by unfold State.room; decide⟩

/-- Y12 and Y15: into protected mode, and back from 32-bit code, where D stays 1 (D23, log 13). -/
theorem witness_PeTransitionKeepsSegments :
    (real.exn = none ∧ real.vm = false ∧ ∃ t, exec (.movCr0R32 {} 0 .eax) (real.setX .eax 1) = .next t ∧ t.exn = none ∧
      t.pe ≠ (real.setX .eax 1).pe) ∧
      ∃ t, exec (.movCr0R32 {} 0 .eax) prot = .next t ∧ t.exn = none ∧ t.pe ≠ prot.pe ∧ t.defaultSize = true :=
  ⟨⟨rfl, by decide, _, rfl, rfl, by decide⟩, _, rfl, rfl, by decide, rfl⟩

theorem witness_LockOnlyOnAddToMemory :
    (Instr.add { lock := true } (.reg .eax) (.sext 1)).prefixes.lock = true ∧
      ∀ p m src, Instr.add { lock := true } (.reg .eax) (.sext 1) ≠ .add p (.mem m) src :=
  ⟨rfl, by intro p m src h; cases h⟩

theorem witness_PrivilegedInstructionsRaise :
    ({} : Prefixes).lock = false ∧ prot.pe = true ∧ ({ prot with cpl := 1 } : State).cpl ≠ 0 ∧
      (prot.setEflags 0x20002).vm = true ∧
      Instr.lidt {} (.mem (.abs16 0)) ∈
        [Instr.lgdt {} (.mem (.abs16 0)), .lidt {} (.mem (.abs16 0)), .movR32Cr0 {} 0 .eax, .movCr0R32 {} 0 .eax] := by
  decide

/-- A CMC in user mode. -/
theorem witness_UserModeKeepsSystemState :
    ∃ t, step (put { prot with cpl := 3 } 0x10000 [0xF5]) = .next t ∧ t.exn = none ∧
      (put { prot with cpl := 3 } 0x10000 [0xF5]).pe = true ∧ (put { prot with cpl := 3 } 0x10000 [0xF5]).cpl ≠ 0 :=
  ⟨_, rfl, rfl, by decide, by decide⟩

/-- SystemStateFrame, GeneralRegisterFrame, FlagFrame, MemoryFrame: a push, whose next state differs in a register, in memory
and in EIP. -/
theorem witness_frames :
    ∃ t, exec (.pushFs {}) (real.setSeg .fs (.reset 0xABCD 0)) = .next t ∧ t.exn = none ∧ t.eip = 2 ∧ t.x .esp = 0xFFFE ∧
      Reg.eax ∉ (real.setSeg .fs (.reset 0xABCD 0)).writtenBy (.pushFs {}) ∧ real.mem.wf = true ∧
      ∀ an ∈ (real.setSeg .fs (.reset 0xABCD 0)).storedBy (.pushFs {}), 0xFFFD ∉ accessAddrs an.1 an.2 :=
  ⟨_, rfl, rfl, by decide, by decide, by decide, rfl, by decide⟩

/-- A MOV to DS changes DS. -/
theorem witness_SegmentRegisterFrame :
    ∃ t, exec (.movSregRm16 {} 3 (.reg .eax)) (real.setX .eax 0x1234) = .next t ∧
      t.seg .ds ≠ (real.setX .eax 0x1234).seg .ds :=
  ⟨_, rfl, by decide⟩

/-- An instruction of two bytes at FFFFFFFDh, the last place from which it has a successor. -/
theorem witness_ProgramCounterAdvances :
    ∃ t, (real.setEip 0xFFFFFFFD).exn = none ∧ exec (.or {} (.i8 1)) (real.setEip 0xFFFFFFFD) = .next t ∧ t.exn = none ∧
      (∀ p v, Instr.or {} (.i8 1) ≠ .jmpRel8 p v) ∧ t.eip = 0xFFFFFFFF :=
  ⟨_, rfl, rfl, rfl, (by intro p v h; cases h), by decide⟩

theorem witness_ExceptionsArePrecise :
    ∃ t, exec (.pushFs {}) (real.setX .esp 1) = .next t ∧ (real.setX .esp 1).exn = none ∧ t.exn ≠ none :=
  ⟨_, rfl, rfl, by decide⟩

theorem witness_FaultStateHasNoStep :
    (real.takeException .invalidOpcode none).exn = some { exn := .invalidOpcode, code := none, pc := 0 } := rfl

/-- The last byte of the code segment is a one-byte instruction. -/
def lastByte : State := put (real.setEip 0xFFFF) 0x1FFFF [0xF5]

theorem running_lastByte : lastByte.running := ⟨rfl, by decide, by decide, by decide⟩

theorem witness_StepRunsDecodedInstruction :
    lastByte.running ∧ lastByte.codeIs [0xF5] ∧ decode lastByte.defaultSize [0xF5] = .ok (.cmc {}) [] := by
  refine ⟨running_lastByte, fun k b h => ?_, by decide⟩
  match k with
  | 0 => cases h; decide
  | k + 1 => cases h

/-- The same place with a byte of no row. -/
theorem witness_StepRunsDecodedInstruction_rejected :
    (real.setEip 0xFFFF).running ∧ (real.setEip 0xFFFF).codeIs [0x00] ∧
      decode (real.setEip 0xFFFF).defaultSize [0x00] = .reject .noRow := by
  refine ⟨⟨rfl, by decide, by decide, by decide⟩, fun k b h => ?_, by decide⟩
  match k with
  | 0 => cases h; decide
  | k + 1 => cases h

/-- The same place with the first byte of a jump. -/
theorem witness_FetchBeyondLimitRaises :
    (put (real.setEip 0xFFFF) 0x1FFFF [0xEB]).running ∧ (put (real.setEip 0xFFFF) 0x1FFFF [0xEB]).codeIs [0xEB] ∧
      decode (put (real.setEip 0xFFFF) 0x1FFFF [0xEB]).defaultSize [0xEB] = .short ∧
      (put (real.setEip 0xFFFF) 0x1FFFF [0xEB]).segs.cs.limit.toNat < 0xFFFF + 1 := by
  refine ⟨⟨rfl, by decide, by decide, by decide⟩, fun k b h => ?_, by decide, by decide⟩
  match k with
  | 0 => cases h; decide
  | k + 1 => cases h

theorem witness_StepStopsBeforeFetch :
    real.exn = none ∧
      ({ real with params := { real.params with haltAddr := some 0 } } : State).params.haltAddr = some real.eip ∧
      real.params.haltAddr ≠ some real.eip ∧ (real.setEflags 0x20002).vm = true ∧ real.vm = false ∧
      (real.setCr0 0x80000001).pg = true := by decide

/-- A memory of one page, and one byte of program text in it. -/
def small : State :=
  { real with params := { memMap := [{ base := 0, size := 4096 }], text := [{ base := 0x100, size := 1 }], haltAddr := none } }

/-- The first byte of a jump in the last byte of that page, within the limit of CS. -/
def edge : State := put { small with eip := 0xFFF, segs := { small.segs with cs := .reset 0 0 } } 0xFFF [0xEB]

theorem witness_FetchBeyondLimitRaises_unpopulated :
    edge.running ∧ edge.codeIs [0xEB] ∧ decode edge.defaultSize [0xEB] = .short ∧
      edge.eip.toNat + 1 ≤ edge.segs.cs.limit.toNat ∧
      edge.populated (edge.segs.cs.base + edge.eip + BitVec.ofNat 32 1).toNat = false := by
  refine ⟨⟨rfl, by decide, by decide, by decide⟩, fun k b h => ?_, by decide, by decide, by decide⟩
  match k with
  | 0 => cases h; decide
  | k + 1 => cases h

/-- An access with a byte in the page and one outside it; one of which a byte is program text. -/
theorem witness_MemoryAccessStops :
    ¬ small.backed 0xFFF 2 ∧ small.backed 0xFF 2 ∧ ∃ b ∈ accessAddrs 0xFF 2, small.isText b = true := by
  unfold State.backed; decide

theorem legal_prot : prot.Legal where
  mem := by decide
  flags := by decide
  vm := by decide
  pg := by decide
  cpl := by decide
  tlb := by decide

theorem witness_StepKeepsLegal : prot.Legal ∧ ∃ t, step (put prot 0x10000 [0xF5]) = .next t ∧ t.exn = none :=
  ⟨legal_prot, _, rfl, rfl⟩

end Sys2Proof.Tests
end

/-! The sub-registers of the general registers (R12): where each one lies, and what a read and a write of it do there. -/

namespace Sys2Proof.Machine

/-! ## Where a register lies -/

@[simp] theorem regHome_32 (c : Reg) : regHome c .b32 = c := by cases c <;> rfl

@[simp] theorem regLow_32 (c : Reg) : regLow c .b32 = 0 := by cases c <;> rfl

@[simp] theorem regHome_16 (c : Reg) : regHome c .b16 = c := by cases c <;> rfl

@[simp] theorem regLow_16 (c : Reg) : regLow c .b16 = 0 := by cases c <;> rfl

/-- AL, CL, DL, BL lie in EAX, ECX, EDX, EBX, from bit 0. -/
theorem place_lowByte {r : Reg} (h : r ∈ [Reg.eax, .ecx, .edx, .ebx]) : regHome r .b8 = r ∧ regLow r .b8 = 0 := by
  revert h
  cases r <;> decide

/-- AH, CH, DH, BH lie in EAX, ECX, EDX, EBX, from bit 8. -/
theorem place_highByte {c r : Reg} (h : (c, r) ∈ [(Reg.esp, Reg.eax), (.ebp, .ecx), (.esi, .edx), (.edi, .ebx)]) :
    regHome c .b8 = r ∧ regLow c .b8 = 8 := by
  revert h
  cases c <;> cases r <;> decide

/-! ## What a read and a write do there -/

/-- A read gives the bits at the register's place; a write puts its value there, and leaves the other 32-bit registers
alone. -/
theorem State.reg_setReg_at_place (s : State) (q : Reg) {c r : Reg} {z : Size} {lo : Nat} (v : BitVec z.bits)
    (place : regHome c z = r ∧ regLow c z = lo) :
    s.reg c z = (s.x r).extractLsb' lo z.bits ∧ (s.setReg c z v).x r = (s.x r).insert lo v ∧
      (q ≠ r → (s.setReg c z v).x q = s.x q) := by
  obtain ⟨rfl, rfl⟩ := place
  refine ⟨rfl, ?_, s.x_setReg_of_ne c z v⟩
  rw [State.setReg, State.x_setX, if_pos rfl]

/-- Settles O12: each size of register has its place, and the value a write puts there is the register's new bits beside
the old ones. -/
theorem subRegistersAlias : Obligations.SubRegistersAlias := by
  unfold Obligations.SubRegistersAlias
  intro s r q v8 v16 v32
  refine ⟨?_, ?_, fun low => ?_, fun c high => ?_, fun z v => rfl⟩
  · obtain ⟨read, write, other⟩ := s.reg_setReg_at_place q v32 (z := .b32) ⟨regHome_32 r, regLow_32 r⟩
    exact ⟨read.trans BitVec.extractLsb'_eq_self, write.trans (Word.insert_zero_32 _ _), other⟩
  · obtain ⟨read, write, other⟩ := s.reg_setReg_at_place q v16 (z := .b16) ⟨regHome_16 r, regLow_16 r⟩
    exact ⟨read, write.trans (Word.insert_zero_16 _ _), other⟩
  · obtain ⟨read, write, other⟩ := s.reg_setReg_at_place q v8 (z := .b8) (place_lowByte low)
    exact ⟨read, write.trans (Word.insert_zero_8 _ _), other⟩
  · obtain ⟨read, write, other⟩ := s.reg_setReg_at_place q v8 (z := .b8) (place_highByte high)
    exact ⟨read, write.trans (Word.insert_8_8 _ _), other⟩

end Sys2Proof.Machine

/-! The addressing tables (R88 to R91): how the bytes of a memory operand are read, and the offset and the segment they
stand for. -/

namespace Sys2Proof

/-! ## Reading the bytes of a memory operand -/

@[simp] theorem Scale.code_ofCode (c : BitVec 2) : (Scale.ofCode c).code = c := by
  revert c; decide

/-- The scale code 00b is x1 (R87). -/
theorem Scale.code_eq_zero {sc : Scale} : sc.code = 0#2 ↔ sc = .x1 := by cases sc <;> decide

/-- A memory operand of its own encoding is read back from its bytes under its own address size. -/
theorem takeRM_encode_mem (m : Mem) (reg : BitVec 3) (rest : List Byte) (h : m.wf = true) :
    takeRM m.adsize anyReg ((RM.mem m).encode reg ++ rest) = .ok (reg, .mem m) rest :=
  takeRM_encode rest rfl (by simp [RM.wf, h])

/-- A sib byte with a scale and without an index is refused where it stands (U7, log 33). -/
theorem takeSib_scaledNoIndex (mod : BitVec 2) (base : BitVec 3) {sc : Scale} (h : sc ≠ .x1) (rest : List Byte) :
    takeSib mod (packFields sc.code Reg.esp.code base :: rest) = .reject .scaledNoIndex := by
  simp [takeSib, h]

/-- r/m 100b announces a sib byte (R89), so that what refuses the sib byte refuses the operand. -/
theorem takeRM_of_takeSib_reject {mod : BitVec 2} (reg : BitVec 3) {bs : List Byte} {r : Reject} (hmod : mod ≠ 3#2)
    (h : takeSib mod bs = .reject r) : takeRM .a32 anyReg (packFields mod reg 4 :: bs) = .reject r := by
  simp [takeRM, anyReg, takeOperand, takeMem32, hmod, h, Parse.map]

namespace Machine

/-! ## Offset and segment -/

@[simp] theorem add_disp16_none (w : BitVec 16) : w + Disp16.value .none = w := BitVec.add_zero w

@[simp] theorem add_disp32_none (w : Word) : w + Disp32.value .none = w := BitVec.add_zero w

/-- A scale multiplies by the power of two its code names (R87). -/
theorem Scale.factor_eq_pow (sc : Scale) : Scale.factor sc = 2 ^ sc.code.toNat := by cases sc <;> rfl

/-- The rows of R88 with registers: what the bytes are read as, its offset and its segment. -/
theorem operand_base16 (s : State) (p : Prefixes) (reg : BitVec 3) (b : Base16) (d : Disp16) (rest : List Byte)
    (h : (Mem.base16 b d).wf = true) :
    ∃ m, takeRM .a16 anyReg (packFields d.mod reg b.code :: d.encode ++ rest) = .ok (reg, .mem m) rest ∧
      s.ea m = (s.base16 b + Disp16.value d).setWidth 32 ∧
      memSeg p m = p.seg.getD (if b.code = 2 ∨ b.code = 3 ∨ b.code = 6 then .ss else .ds) := by
  refine ⟨_, takeRM_encode_mem (.base16 b d) reg rest h, rfl, ?segment⟩
  cases b <;> rfl

/-- The rows of R89 with a register: what the bytes are read as, its offset and its segment. -/
theorem operand_base32 (s : State) (p : Prefixes) (reg : BitVec 3) (r : Reg) (d : Disp32) (rest : List Byte)
    (h : (Mem.base32 r d).wf = true) :
    ∃ m, takeRM .a32 anyReg (packFields d.mod reg r.code :: d.encode ++ rest) = .ok (reg, .mem m) rest ∧
      s.ea m = s.x r + Disp32.value d ∧ memSeg p m = p.seg.getD (if r = .ebp then .ss else .ds) := by
  refine ⟨_, takeRM_encode_mem (.base32 r d) reg rest h, rfl, ?segment⟩
  cases r with
  | esp => cases h
  | _ => rfl

/-- The rows of R90 with a base register: what the bytes are read as, its offset and its segment. -/
theorem operand_sib (s : State) (p : Prefixes) (reg : BitVec 3) (sc : Scale) (ix b : Reg) (d : Disp32)
    (rest : List Byte) (h : (Mem.sib sc ix b d).wf = true) :
    ∃ m, takeRM .a32 anyReg (packFields d.mod reg 4 :: packFields sc.code ix.code b.code :: d.encode ++ rest) =
        .ok (reg, .mem m) rest ∧
      s.ea m = s.x b + s.scaledIndex sc ix + Disp32.value d ∧
      memSeg p m = p.seg.getD (if b = .esp ∨ b = .ebp then .ss else .ds) := by
  refine ⟨_, takeRM_encode_mem (.sib sc ix b d) reg rest h, rfl, ?segment⟩
  cases b <;> rfl

/-- Settles O9: the r/m code is that of a 16-bit base, whose registers add up to the table's sum; each mod is then a row
of the table, and mod 00b with r/m 110b the row without registers. -/
theorem effectiveAddress16 : Obligations.EffectiveAddress16 := by
  unfold Obligations.EffectiveAddress16
  intro s p reg rm d8 d16 rest bx bp si di sum seg
  obtain ⟨b, rfl⟩ : ∃ b, Base16.code b = rm := ⟨_, Base16.code_ofCode rm⟩
  have table : s.base16 b = sum := by cases b <;> rfl
  rw [← table]
  refine ⟨fun hb => ?mod00, ?abs, operand_base16 s p reg b (.d8 d8) rest ?wf8,
    operand_base16 s p reg b (.d16 d16) rest ?wf16⟩
  case mod00 =>
    have hbp : b ≠ .bp := mt Base16.code_eq_six.2 hb
    have row := operand_base16 s p reg b .none rest (by simp [Mem.wf, hbp])
    rwa [add_disp16_none] at row
  case abs => exact ⟨_, takeRM_encode_mem (.abs16 d16) reg rest rfl, rfl, rfl⟩
  case wf8 | wf16 => simp [Mem.wf]

/-- Settles O10: each mod is a row of the table, and mod 00b with r/m 101b the row without a register. -/
theorem effectiveAddress32 : Obligations.EffectiveAddress32 := by
  unfold Obligations.EffectiveAddress32
  intro s p reg r d8 d32 rest seg
  refine ⟨fun hesp hebp => ?mod00, ?abs, fun hesp => operand_base32 s p reg r (.d8 d8) rest ?wf8,
    fun hesp => operand_base32 s p reg r (.d32 d32) rest ?wf32⟩
  case mod00 =>
    have row := operand_base32 s p reg r .none rest (by simp [Mem.wf, hesp, hebp])
    rwa [add_disp32_none] at row
  case abs => exact ⟨_, takeRM_encode_mem (.abs32 d32) reg rest rfl, rfl, rfl⟩
  case wf8 | wf32 => simp [Mem.wf, hesp]

/-- Settles O11: the ss code is that of a scale. With no index and a scale other than x1 the sib byte is refused; else
each mod is a row of the table, and mod 00b with base 101b the row without a base. -/
theorem effectiveAddressSib : Obligations.EffectiveAddressSib := by
  unfold Obligations.EffectiveAddressSib
  intro s p reg ss index base d8 d32 rest sib idx seg
  obtain ⟨sc, rfl⟩ : ∃ sc, Scale.code sc = ss := ⟨_, Scale.code_ofCode ss⟩
  have scaled : s.scaledIndex sc index = idx := by rw [State.scaledIndex, Scale.factor_eq_pow]
  rw [← scaled]
  refine ⟨?refused, fun admitted => ?rows⟩
  case refused =>
    rintro rfl hsc mod hmod
    exact takeRM_of_takeSib_reject reg hmod (takeSib_scaledNoIndex mod base.code (mt Scale.code_eq_zero.2 hsc) rest)
  case rows =>
    have hix : index ≠ .esp ∨ sc = .x1 :=
      (not_and_or.1 admitted).imp_right fun h => Scale.code_eq_zero.1 (not_not.1 h)
    refine ⟨fun hbase => ?mod00, ?noBase, operand_sib s p reg sc index base (.d8 d8) rest ?wf8,
      operand_sib s p reg sc index base (.d32 d32) rest ?wf32⟩
    case mod00 =>
      have row := operand_sib s p reg sc index base .none rest (by simp [Mem.wf, hix, hbase])
      rwa [add_disp32_none] at row
    case noBase =>
      rintro rfl
      have read := takeRM_encode_mem (.sibNoBase sc index d32) reg rest (by simp [Mem.wf, hix])
      exact ⟨_, read, rfl, rfl⟩
    case wf8 | wf32 => simp [Mem.wf, hix]

end Machine
end Sys2Proof

/-! The lock byte F0h (R77): that it does not stand is the first check of every meaning but that of ADD to memory. -/

namespace Sys2Proof.Machine

/-- Where an instruction's first part raises InvalidOpcode, so does the instruction, whatever follows. -/
theorem settle_bind_invalidOpcode {α : Type} {x : Except Stop α} (h : x = .error .invalidOpcode) (s : State)
    (f : α → Except Stop State) : settle s (x >>= f) = s.Raised .invalidOpcode none := by
  rw [h]; rfl

theorem loadTable_locked {p : Prefixes} (h : p.lock = true) (s : State) (x : RM) :
    s.loadTable p x = .error .invalidOpcode := by
  unfold State.loadTable
  rw [noLock_true h, bind_error_left]

theorem checkCr_locked {p : Prefixes} (h : p.lock = true) (s : State) (cr : BitVec 3) :
    s.checkCr p cr = .error .invalidOpcode := by
  rw [State.checkCr, noLock_true h, bind_error_left]

/-- Settles O39: LGDT and LIDT make the check where they load their table, the moves to and from CR0 with their other
checks, every other instruction at its head. -/
theorem lockOnlyOnAddToMemory : Obligations.LockOnlyOnAddToMemory := by
  unfold Obligations.LockOnlyOnAddToMemory
  intro i s locked notAddToMemory
  cases i with
  | add p dst src =>
    cases dst with
    | reg r => exact settle_bind_invalidOpcode (noLock_true locked) s _
    | mem m => exact absurd rfl (notAddToMemory p m src)
  | lgdt p src | lidt p src => exact settle_bind_invalidOpcode (loadTable_locked locked s src) s _
  | movR32Cr0 p cr r | movCr0R32 p cr r => exact settle_bind_invalidOpcode (checkCr_locked locked s cr) s _
  | _ => exact settle_bind_invalidOpcode (noLock_true locked) s _

end Sys2Proof.Machine

/-! The conditions (R85): their place in the opcode, and what their codes test. -/

namespace Sys2Proof

/-- The condition of Jcc rel8 is in bits 3:0 of its opcode byte (R132). -/
theorem Opcode.ofByte_jccRel8 (tttn : BitVec 4) :
    Opcode.ofByte (0x70 ||| tttn.setWidth 8) = some (.jccRel8 (Cond.ofCode tttn)) := by
  revert tttn; decide

/-- The condition of Jcc rel16/rel32 is in bits 3:0 of its second opcode byte (R131). -/
theorem Opcode.ofByte0F_jccRel1632 (tttn : BitVec 4) :
    Opcode.ofByte0F (0x80 ||| tttn.setWidth 8) = some (.jccRel1632 (Cond.ofCode tttn)) := by
  revert tttn; decide

/-- The condition of SETcc is in bits 3:0 of its second opcode byte (R133). -/
theorem Opcode.ofByte0F_setcc (tttn : BitVec 4) :
    Opcode.ofByte0F (0x90 ||| tttn.setWidth 8) = some (.setcc (Cond.ofCode tttn)) := by
  revert tttn; decide

namespace Machine

/-- Bit 0 of a condition's code negates its test (R85): of two tests by one flag or comparison, the model has one as the
negation of the other; the joined tests negate each other by de Morgan. -/
theorem Cond.holds_code_xor_one (c : Cond) (f : StatusFlags) :
    Cond.holds (Cond.ofCode (c.code ^^^ 1)) f = !Cond.holds (Cond.ofCode c.code) f := by
  cases c with
  | o | b | e | s | p | nl => rfl
  | no | nb | ne | ns | np | l => exact (Bool.not_not _).symm
  | be | nbe | le | nle => simp [Cond.code, Cond.ofCode, Cond.holds, bne]

/-- Settles O32: a condition is a flag, a negated flag, a comparison of SF and OF, or two of these joined. -/
theorem conditionTable : Obligations.ConditionTable := by
  unfold Obligations.ConditionTable
  intro s cond CF PF ZF SF OF
  have negated : ∀ flag : Bool, (!flag) = true ↔ flag = false := by decide
  refine ⟨.rfl, negated OF, .rfl, negated CF, .rfl, negated ZF, ?be, ?nbe, .rfl, negated SF, .rfl, negated PF,
    bne_iff_ne, beq_iff_eq, ?le, ?nle, fun c => ⟨c.ofCode_code, Cond.holds_code_xor_one c s.status⟩, fun tttn =>
      ⟨Opcode.ofByte_jccRel8 tttn, Opcode.ofByte0F_jccRel1632 tttn, Opcode.ofByte0F_setcc tttn⟩⟩
  case be => exact Bool.or_eq_true_iff
  case nbe => exact Bool.and_eq_true_iff.trans (and_congr (negated CF) (negated ZF))
  case le => exact Bool.or_eq_true_iff.trans (or_congr_right bne_iff_ne)
  case nle => exact Bool.and_eq_true_iff.trans (and_congr (negated ZF) beq_iff_eq)

end Machine
end Sys2Proof

/-! Flag and arithmetic instructions (R110 to R114): CMC, ADD and OR, in the register and the memory form. -/

namespace Sys2Proof

/-! ## Reading the bytes -/

/-- Prefixes the encoder wrote, before a byte that is none, become those of the instruction; what follows is its opcode
and row. -/
theorem decode_prefixes_encode (d : Bool) (p : Prefixes) {b : Byte} (rest : List Byte) (h : Mark.ofByte b = none) :
    decode d (p.encode ++ b :: rest) =
      (takeOpcode (b :: rest)).bind (takeRow (operandSize d p.opsize) (addressSize d p.adsize) p) := by
  rw [decode, scanMarks_encode p rest h]
  rfl

/-- The decoder reads back an OR, whose opcode holds w in bit 0 (R112). -/
theorem decode_encode_or (d : Bool) (p : Prefixes) (v : Imm) (rest : List Byte)
    (h : v.wf (operandSize d p.opsize) = true) : decode d (encode (.or p v) ++ rest) = .ok (.or p v) rest := by
  have bytes : encode (.or p v) ++ rest = p.encode ++ (if v.w then 0x0D else 0x0C) :: (v.encode ++ rest) :=
    List.append_assoc ..
  have noPrefix : Mark.ofByte (if v.w then 0x0D else 0x0C) = none := by cases v.w <;> rfl
  have opcode : takeOpcode ((if v.w then 0x0D else 0x0C) :: (v.encode ++ rest)) = .ok (.or v.w) (v.encode ++ rest) := by
    cases v.w <;> rfl
  rw [bytes, decode_prefixes_encode d p _ noPrefix, opcode, Parse.bind_ok, takeRow, takeImm_encode rest h,
    Parse.map_ok]

namespace Machine

/-! ## Immediates -/

/-- The operand the claims read off an immediate is the model's: the size, and the value extended or cut to it (R93). -/
theorem immSize_immValue_of_claim {o z : Size} {v : BitVec z.bits} {src : Imm}
    (h : match src with
      | .i8 x => z = .b8 ∧ v = x.setWidth z.bits
      | .i16 x => z = o ∧ v = x.setWidth z.bits
      | .i32 x => z = o ∧ v = x.setWidth z.bits) :
    z = immSize o src ∧ v = immValue z src := by
  cases src with
  | i8 x | i16 x => exact ⟨h.1, h.2.trans (setWidth_32 x z.bits_le).symm⟩
  | i32 x => exact h

/-- The operand the claims read off ADD's immediate is the model's (R82, R93, R111). -/
theorem addSize_addImmValue_of_claim {o z : Size} {v : BitVec z.bits} {src : AddImm}
    (h : match src with
      | .same (.i8 x) => z = .b8 ∧ v = x.setWidth z.bits
      | .same (.i16 x) => z = o ∧ v = x.setWidth z.bits
      | .same (.i32 x) => z = o ∧ v = x.setWidth z.bits
      | .sext x => z = o ∧ v = x.signExtend z.bits) :
    z = addSize o src ∧ v = addImmValue z src := by
  cases src with
  | same i => exact immSize_immValue_of_claim (by cases i <;> exact h)
  | sext x => exact h

/-! ## Flags -/

/-- Two flags words are equal where their status flags and all their other bits are. -/
theorem flagsWord_ext {w f : Word} (status : StatusFlags.ofWord f = .ofWord w) (other : otherFlagsSame w f) :
    f = w := by
  simp only [StatusFlags.ofWord, StatusFlags.mk.injEq] at status
  obtain ⟨cf, pf, af, zf, sf, of⟩ := status
  apply BitVec.eq_of_getLsbD_eq
  intro k _
  by_cases hk : k ∈ [0, 2, 4, 6, 7, 11]
  · fin_cases hk <;> assumption
  · simp only [List.mem_cons, List.not_mem_nil, or_false, not_or] at hk
    obtain ⟨h0, h2, h4, h6, h7, h11⟩ := hk
    exact other k h0 h2 h4 h6 h7 h11

/-- Inverting CF alone inverts bit 0 of EFLAGS alone (R17, R110). -/
theorem putInto_invert_cf (w : Word) :
    ({ StatusFlags.ofWord w with cf := !(StatusFlags.ofWord w).cf } : StatusFlags).putInto w = w ^^^ 1 := by
  refine flagsWord_ext ?status fun k h0 h2 h4 h6 h7 h11 => ?other
  case status =>
    rw [StatusFlags.ofWord_putInto]
    simp [StatusFlags.ofWord]
  case other =>
    rw [otherFlagsSame_putInto _ w k h0 h2 h4 h6 h7 h11]
    simp [BitVec.getLsbD_one, h0]

/-- CF and OF among the flags of a sum report its unsigned and its signed overflow (R114). -/
theorem overflow_of_sumFlagsAre {n : Nat} {a b : BitVec n} {f : Word} (h : sumFlagsAre a b f) :
    (f.getLsbD 0 = true ↔ (a + b).toNat ≠ a.toNat + b.toNat) ∧
      (f.getLsbD 11 = true ↔ (a + b).toInt ≠ a.toInt + b.toInt) := by
  obtain ⟨cf, of, -⟩ := h
  rw [cf, of, decide_eq_true_iff, decide_eq_true_iff]
  exact ⟨unsignedOverflow_iff a b, signedOverflow_iff a b⟩

/-! ## Running an instruction -/

/-- Without a lock byte (F0h, R77), an instruction that has brought the state to `u` moves on to the next instruction. -/
theorem settle_unlocked_advance {p : Prefixes} {s u : State} {i : Instr} (unlocked : p.lock = false)
    (room : s.room i) (he : s.eip = u.eip) :
    settle s (do noLock p; u.advance i.length) = .next { u with eip := s.nextPc i, busLock := false } := by
  rw [noLock_false unlocked, bind_ok_left, advance_room room he, settle_ok]

/-- Writing a memory operand that can be written puts the value's bytes at its linear address (R47, R86). -/
theorem writeMem_of_reaches {s : State} {p : Prefixes} {m : Mem} {z : Size} (v : BitVec z.bits)
    (reaches : s.reaches (memSeg p m) (s.ea m) z.bytes true) (storable : s.storable (s.linear p m) z.bytes) :
    s.writeMem p m z v = .ok (s.setMem (s.mem.writeLe (s.linear p m) z.bytes v.toNat)) :=
  segWrite_ok.2 ⟨checkAccess_of_reaches reaches, memWrite_ok.2 ⟨storable, rfl⟩⟩

/-- ADD to a memory operand that can be written (R111). -/
theorem exec_add_mem {p : Prefixes} {m : Mem} {src : AddImm} {s : State} {a : BitVec (addSize (s.opsize p) src).bits}
    (room : s.room (.add p (.mem m) src))
    (reaches : s.reaches (memSeg p m) (s.ea m) (addSize (s.opsize p) src).bytes true)
    (storable : s.storable (s.linear p m) (addSize (s.opsize p) src).bytes)
    (holds : s.holds (s.linear p m) (addSize (s.opsize p) src).bytes a) :
    exec (.add p (.mem m) src) s = .next { s with
      mem := s.mem.writeLe (s.linear p m) (addSize (s.opsize p) src).bytes (a + addImmValue _ src).toNat
      eip := s.nextPc (.add p (.mem m) src)
      eflags := (addFlags a (addImmValue _ src)).putInto s.eflags
      busLock := p.lock } := by
  have write := writeMem_of_reaches (s := s.setStatus (addFlags a (addImmValue _ src))) (a + addImmValue _ src)
    ⟨reaches.valid, reaches.up, reaches.kind, reaches.limit⟩ storable
  exact settle_next.2 <| .inl <| bind_ok.2 ⟨(), checkAccess_of_reaches reaches, bind_ok.2 ⟨a, memRead_holds holds,
    bind_ok.2 ⟨_, write, advance_room room rfl⟩⟩⟩

/-- After an ADD to a register that raised nothing, the flags are those of the sum (R111). -/
theorem sumFlagsAre_of_add_reg {p : Prefixes} {r : Reg} {src : AddImm} {s t : State}
    (h : exec (.add p (.reg r) src) s = .next t) (completed : t.exn = none) :
    sumFlagsAre (s.reg r (addSize (s.opsize p) src)) (addImmValue _ src) t.eflags := by
  obtain ⟨e, c, -, rfl⟩ | ⟨-, moved⟩ := execAdd_reg_next h
  · cases completed
  · obtain ⟨-, rfl⟩ := advance_ok.1 moved
    exact sumFlagsAre_putInto _ _ _

/-- After an ADD to memory that raised nothing, the flags are those of the sum (R111). -/
theorem sumFlagsAre_of_add_mem {p : Prefixes} {m : Mem} {src : AddImm} {s t : State}
    {a : BitVec (addSize (s.opsize p) src).bits} (h : exec (.add p (.mem m) src) s = .next t)
    (completed : t.exn = none) (holds : s.holds (s.linear p m) (addSize (s.opsize p) src).bytes a) :
    sumFlagsAre a (addImmValue _ src) t.eflags := by
  obtain ⟨e, c, -, rfl⟩ | ⟨a', u, read, write, moved⟩ := execAdd_mem_next h
  · cases completed
  · obtain rfl : a = a' := Except.ok.inj ((memRead_holds holds).symm.trans read)
    obtain ⟨-, stored⟩ := segWrite_ok.1 write
    obtain ⟨-, rfl⟩ := memWrite_ok.1 stored
    obtain ⟨-, rfl⟩ := advance_ok.1 moved
    exact sumFlagsAre_putInto _ _ _

/-! ## The claims -/

/-- Settles O16: the flags word CMC writes is the old one with bit 0 inverted. -/
theorem cmcInvertsCarry : Obligations.CmcInvertsCarry := by
  unfold Obligations.CmcInvertsCarry
  refine fun p s => ⟨fun d rest => ?bytes, fun locked => ?locked, fun unlocked room => ⟨false, ?run⟩⟩
  case bytes =>
    rw [decode_prefixes_encode d p rest rfl]
    rfl
  case locked => exact settle_bind_invalidOpcode (noLock_true locked) s _
  case run =>
    have run : exec (.cmc p) s = .next { s.setStatus { s.status with cf := !s.status.cf } with
        eip := s.nextPc (.cmc p), busLock := false } := settle_unlocked_advance unlocked room rfl
    rw [run, ← putInto_invert_cf]
    rfl

/-- Settles O17: ADD sets the flags of the sum, then writes the sum to the register. -/
theorem addToRegister : Obligations.AddToRegister := by
  unfold Obligations.AddToRegister
  intro p r src s unlocked room z v operand
  obtain ⟨rfl, rfl⟩ := addSize_addImmValue_of_claim operand
  exact ⟨_, false, settle_unlocked_advance unlocked room rfl, sumFlagsAre_putInto _ _ _, otherFlagsSame_putInto _ _⟩

/-- Settles O18: ADD stores the sum's bytes at the operand's linear address and no other, with the flags of the sum. -/
theorem addToMemory : Obligations.AddToMemory := by
  unfold Obligations.AddToMemory
  intro p m src s canonical room z v a operand reaches storable holds
  obtain ⟨rfl, rfl⟩ := addSize_addImmValue_of_claim operand
  have backed : s.backed (s.linear p m) (addSize (s.opsize p) src).bytes := fun b hb => (storable b hb).1
  exact ⟨_, exec_add_mem room reaches storable holds, rfl, holds_writeLe canonical backed (Size.bytes_le _) rfl rfl,
    fun b outside => Memory.read_writeLe_of_notMem canonical _ _ _ outside, sumFlagsAre_putInto _ _ _,
    otherFlagsSame_putInto _ _⟩

/-- Settles O19: the lock check comes first in the register form, the check of the access in the memory form. -/
theorem addRaises : Obligations.AddRaises := by
  unfold Obligations.AddRaises
  refine fun p src s => ⟨fun r locked => settle_bind_invalidOpcode (noLock_true locked) s _, fun m misses => ?mem⟩
  case mem => rw [exec, execAdd, checkAccess_misses misses, bind_error_left, settle_accessFault]

/-- Settles O20: in both forms the flags are those of the sum, whose CF and OF report its overflow. -/
theorem addFlagsReportOverflow : Obligations.AddFlagsReportOverflow := by
  unfold Obligations.AddFlagsReportOverflow
  intro p x src s t z v a operand destination run completed
  obtain ⟨rfl, rfl⟩ := addSize_addImmValue_of_claim operand
  apply overflow_of_sumFlagsAre
  cases x with
  | reg r =>
    obtain rfl := destination
    exact sumFlagsAre_of_add_reg run completed
  | mem m => exact sumFlagsAre_of_add_mem run completed destination

/-- Settles O21: OR writes its result to the accumulator, with the flags of the result and a free AF. -/
theorem orIntoAccumulator : Obligations.OrIntoAccumulator := by
  unfold Obligations.OrIntoAccumulator
  refine fun p s => ⟨fun d x rest => ?byte,
    fun d x rest size => decode_encode_or d p (.i16 x) rest (by simp [Imm.wf, size]),
    fun d x rest size => decode_encode_or d p (.i32 x) rest (by simp [Imm.wf, size]),
    fun src locked => settle_bind_invalidOpcode (noLock_true locked) s _,
    fun src z v unlocked room operand => ?run⟩
  case byte =>
    have decoded := decode_encode_or d p (.i8 x) rest rfl
    rwa [encode, List.append_assoc] at decoded
  case run =>
    obtain ⟨rfl, rfl⟩ := immSize_immValue_of_claim operand
    obtain ⟨cf, of, result⟩ := orFlags_putInto (s.reg .eax (immSize (s.opsize p) src) ||| immValue _ src)
      (drawBit s.draws) s.eflags
    exact ⟨_, _, false, settle_unlocked_advance unlocked room rfl, cf, of, result, otherFlagsSame_putInto _ _⟩

/-- Settles O7: the decoder, run on each word. -/
theorem specWordsDecode : Obligations.SpecWordsDecode :=
  ⟨rfl, rfl, rfl, rfl, rfl, rfl, rfl, rfl, rfl, rfl⟩

end Machine
end Sys2Proof

/-! Data transfer instructions (R120 to R124): MOV reg, imm; MOV Sreg, r/m16; PUSH FS. -/

namespace Sys2Proof

/-! ## Reading the bytes -/

/-- A segment code names one register, whose code it is (R84). -/
theorem SReg.code_of_ofCode {code : BitVec 3} {k : SReg} (h : SReg.ofCode code = some k) : k.code = code := by
  revert code k; decide

/-- The opcode byte of MOV reg, imm holds w in bit 3 and the register in bits 2:0 (R120). -/
theorem takeOpcode_movRegImm (w : Bool) (r : Reg) (bs : List Byte) :
    takeOpcode (((if w then 0xB8 else 0xB0) ||| r.code.setWidth 8) :: bs) = .ok (.movRegImm w r) bs := by
  cases w <;> cases r <;> rfl

/-- The decoder reads back a MOV reg, imm (R120). -/
theorem decode_encode_movRegImm (d : Bool) (p : Prefixes) (r : Reg) (v : Imm) (rest : List Byte)
    (h : v.wf (operandSize d p.opsize) = true) :
    decode d (encode (.movRegImm p r v) ++ rest) = .ok (.movRegImm p r v) rest := by
  have bytes : encode (.movRegImm p r v) ++ rest =
      p.encode ++ ((if v.w then 0xB8 else 0xB0) ||| r.code.setWidth 8) :: (v.encode ++ rest) := List.append_assoc ..
  have noPrefix : Mark.ofByte ((if v.w then 0xB8 else 0xB0) ||| r.code.setWidth 8) = none := by
    cases v.w <;> cases r <;> rfl
  rw [bytes, decode_prefixes_encode d p _ noPrefix, takeOpcode_movRegImm, Parse.bind_ok, takeRow,
    takeImm_encode rest h, Parse.map_ok]

namespace Machine

/-! ## Bytes of a value in memory -/

/-- Byte `k` of a little-endian value is the byte of memory at `k` (R40). -/
theorem Memory.readLe_byte (m : Memory) (a : Word) {n k : Nat} (hk : k < n) :
    m.readLe a n / 256 ^ k % 256 = (m.read (a + BitVec.ofNat 32 k).toNat).toNat := by
  induction n generalizing a k with
  | zero => omega
  | succ n ih =>
    have first := (m.read a.toNat).isLt
    rw [Memory.readLe]
    cases k with
    | zero => simp; omega
    | succ k =>
      have rest : a + BitVec.ofNat 32 (k + 1) = a + 1 + BitVec.ofNat 32 k := by
        rw [BitVec.add_assoc, Nat.add_comm, BitVec.ofNat_add]; rfl
      rw [rest, ← ih (a + 1) (by omega), Nat.pow_succ', ← Nat.div_div_eq_div_mul]
      congr 2
      omega

/-- The first bytes of a little-endian value (R40). -/
theorem Memory.readLe_mod (m : Memory) (a : Word) {j n : Nat} (h : j ≤ n) :
    m.readLe a n % 256 ^ j = m.readLe a j := by
  induction j generalizing a n with
  | zero => simp [Memory.readLe, Nat.mod_one]
  | succ j ih =>
    obtain ⟨n, rfl⟩ : ∃ i, n = i + 1 := ⟨n - 1, by omega⟩
    have first := (m.read a.toNat).isLt
    rw [Memory.readLe, Memory.readLe, ← ih (a + 1) (n := n) (by omega), Nat.pow_succ', Nat.mod_mul]
    congr 1
    · omega
    · congr 2; omega

/-- A shorter access is part of a longer one. -/
theorem accessAddrs_subset (a : Word) {j n : Nat} (h : j ≤ n) : accessAddrs a j ⊆ accessAddrs a n :=
  List.map_subset _ (List.range_subset.2 h)

/-- The number that a value in memory is (R40). -/
theorem State.holds.toNat_eq {s : State} {a : Word} {n : Nat} {v : BitVec (8 * n)} (h : s.holds a n v) :
    v.toNat = s.mem.readLe a n := by
  obtain ⟨-, rfl⟩ := h
  have fits : s.mem.readLe a n < 2 ^ (8 * n) := (s.mem.readLe_lt a n).trans_eq (pow_mul 2 8 n).symm
  rw [BitVec.toNat_ofNat, Nat.mod_eq_of_lt fits]

/-- Byte `k` of a value that memory holds. -/
theorem State.holds.read_byte {s : State} {a : Word} {n k : Nat} {v : BitVec (8 * n)} (h : s.holds a n v)
    (hk : k < n) : s.mem.read (a + BitVec.ofNat 32 k).toNat = v.extractLsb' (8 * k) 8 := by
  apply BitVec.eq_of_toNat_eq
  rw [← Memory.readLe_byte s.mem a hk, BitVec.extractLsb'_toNat, h.toNat_eq, Nat.shiftRight_eq_div_pow, pow_mul]
  rfl

/-- Memory that holds a value holds its low bytes at the same address. -/
theorem State.holds.low {s : State} {a : Word} {j n : Nat} {v : BitVec (8 * n)} (h : s.holds a n v) (hj : j ≤ n) :
    s.holds a j (v.setWidth (8 * j)) := by
  refine ⟨fun b hb => h.1 b (accessAddrs_subset a hj hb), BitVec.eq_of_toNat_eq ?number⟩
  have low := Memory.readLe_mod s.mem a hj
  rw [show 256 ^ j = 2 ^ (8 * j) from (pow_mul 2 8 j).symm] at low
  rw [BitVec.toNat_setWidth, BitVec.toNat_ofNat, h.toNat_eq, low, Nat.mod_eq_of_lt (low ▸ Nat.mod_lt _ (by simp))]


/-! ## Accesses that fail their checks -/

theorem segRead_misses {s : State} {k : SReg} {off : Word} {n : Nat} (h : s.misses k off n false) :
    s.segRead k off n = .error (accessFault k) := by
  rw [State.segRead, checkAccess_misses h, bind_error_left]

theorem segWrite_misses {s : State} {k : SReg} {off : Word} {n : Nat} (h : s.misses k off n true)
    (v : BitVec (8 * n)) : s.segWrite k off n v = .error (accessFault k) := by
  rw [State.segWrite, checkAccess_misses h, bind_error_left]

theorem accessFault_of_ne_ss {k : SReg} (h : k ≠ .ss) : accessFault k = .gp 0 := if_neg h

/-- A register that a null selector marked misses every access (U21). -/
theorem misses_of_invalid {s : State} {k : SReg} (h : (s.seg k).valid = false) (off : Word) (n : Nat) (w : Bool) :
    s.misses k off n w :=
  ⟨fun reaches => Bool.eq_false_iff.1 h reaches.valid, fun ⟨_, valid, _⟩ => Bool.eq_false_iff.1 h valid⟩

/-- Through such a register other than SS every access raises GeneralProtection(0) (U21). -/
theorem accesses_raise_of_invalid {s : State} {k : SReg} (hk : k ≠ .ss) (h : (s.seg k).valid = false) (off : Word)
    (n : Nat) (v : BitVec (8 * n)) : s.segRead k off n = .error (.gp 0) ∧ s.segWrite k off n v = .error (.gp 0) := by
  rw [segRead_misses (misses_of_invalid h off n false), segWrite_misses (misses_of_invalid h off n true),
    accessFault_of_ne_ss hk]
  exact ⟨rfl, rfl⟩

/-- A load of a null selector marks the register. -/
theorem seg_loadSegNull (s : State) (k : SReg) (v : Selector) :
    (s.loadSegNull k v).seg k = { s.seg k with sel := v, valid := false } := by
  rw [State.loadSegNull, State.seg_setSeg, if_pos rfl]

/-! ## Running MOV Sreg, r/m16 -/

/-- A source that can be read is read. -/
theorem readRM_of_sourceIs {s : State} {p : Prefixes} {src : RM} {v : BitVec 16} (h : s.sourceIs p src v) :
    s.readRM p src .b16 = .ok v := by
  cases src with
  | reg r => rw [h, State.readRM, State.reg, regHome_16, regLow_16, BitVec.setWidth_eq_extractLsb' (by decide)]; rfl
  | mem m => exact segRead_ok.2 ⟨checkAccess_of_reaches h.1, memRead_holds h.2⟩

/-- A source in memory that cannot be read raises the fault of that read. -/
theorem readRM_misses {s : State} {p : Prefixes} {m : Mem} (h : s.misses (memSeg p m) (s.ea m) 2 false) :
    s.readRM p (.mem m) .b16 = .error (accessFault (memSeg p m)) :=
  segRead_misses h

section
variable {p : Prefixes} {k : SReg} {src : RM} {s : State} {v : BitVec 16} (unlocked : p.lock = false) (hk : k ≠ .cs)
include unlocked hk

/-- Without a lock byte, a MOV to a segment register other than CS is a read of the source and a load (R121). -/
theorem exec_movSreg : exec (.movSregRm16 p k.code src) s = settle s (do
    let v ← s.readRM p src .b16
    let t ← s.loadSeg k v
    t.advance (Instr.movSregRm16 p k.code src).length) := by
  have notCs : require (decide (k ≠ .cs)) .invalidOpcode = .ok () := require_ok.2 (decide_eq_true hk)
  rw [exec, execMovSregRm16, noLock_false unlocked, bind_ok_left, SReg.ofCode_code]
  dsimp only
  rw [notCs, bind_ok_left]

variable (source : s.sourceIs p src v)
include source

/-- With a source that can be read, the load decides. -/
theorem exec_movSreg_of_sourceIs : exec (.movSregRm16 p k.code src) s =
    settle s (s.loadSeg k v >>= fun t => t.advance (Instr.movSregRm16 p k.code src).length) := by
  rw [exec_movSreg unlocked hk, readRM_of_sourceIs source]
  rfl

/-- After a load that goes on comes the next instruction. -/
theorem exec_movSreg_of_loadSeg_ok {u : State} (load : s.loadSeg k v = .ok u)
    (room : s.room (.movSregRm16 p k.code src)) (eip : s.eip = u.eip) :
    exec (.movSregRm16 p k.code src) s =
      .next { u with eip := s.nextPc (.movSregRm16 p k.code src), busLock := false } := by
  rw [exec_movSreg_of_sourceIs unlocked hk source, load, bind_ok_left, advance_room room eip, settle_ok]

/-- A load that stops, stops the instruction. -/
theorem exec_movSreg_of_loadSeg_error {o : Stop} (load : s.loadSeg k v = .error o) :
    exec (.movSregRm16 p k.code src) s = settle s (.error o) := by
  rw [exec_movSreg_of_sourceIs unlocked hk source, load, bind_error_left]

end

/-! ## The load -/

theorem selIndex_eq_zero {v : Selector} : selIndex v = 0 ↔ v.extractLsb' 3 13 = 0 := (BitVec.toNat_eq (y := 0)).symm

theorem loadSeg_real {s : State} (real : s.pe = false) (k : SReg) (v : Selector) :
    s.loadSeg k v = .ok (s.loadSegReal k v) := by
  rw [State.loadSeg, real]; rfl

/-- A null selector in protected mode (R123). -/
theorem loadSeg_null {s : State} {v : Selector} (prot : s.pe = true) (index : selIndex v = 0)
    (gdt : selTable v = false) (k : SReg) :
    s.loadSeg k v = if k = .ss then .error (.gp 0) else .ok (s.loadSegNull k v) := by
  rw [State.loadSeg, prot, if_neg (by decide), if_pos ⟨index, by rw [gdt]; rfl⟩]
  by_cases hk : k = .ss
  · rw [if_pos hk, decide_eq_false (not_not.2 hk)]; rfl
  · rw [if_neg hk, decide_eq_true hk]; rfl

/-- A selector of the LDT in protected mode (R123, D19). -/
theorem loadSeg_ldt {s : State} {v : Selector} (prot : s.pe = true) (ldt : selTable v = true) (k : SReg) :
    s.loadSeg k v = .error (.refuse .ldtSelector) := by
  rw [State.loadSeg, prot, if_neg (by decide), if_neg (by simp [ldt]), ldt]; rfl

/-- A selector of the GDT beyond its limit in protected mode (R123). -/
theorem loadSeg_beyondTable {s : State} {v : Selector} (prot : s.pe = true) (index : selIndex v ≠ 0)
    (gdt : selTable v = false) (beyond : s.gdtr.limit.toNat < 8 * selIndex v + 7) (k : SReg) :
    s.loadSeg k v = .error (.gp (selError v)) := by
  rw [loadSeg_gdt prot index gdt, decide_eq_false (Nat.not_le.2 beyond)]; rfl

/-- In protected mode, selector `v` names the descriptor `d` of the GDT, which lies within its limit and can be read
(R54, R123). -/
structure State.Selects (s : State) (v : Selector) (d : BitVec 64) : Prop where
  prot : s.pe = true
  index : selIndex v ≠ 0
  gdt : selTable v = false
  limit : 8 * selIndex v + 7 ≤ s.gdtr.limit.toNat
  holds : s.holds (s.descAddr (selIndex v)) 8 d

/-- The load of a selector that names a descriptor: its checks, the accessed bit, the register (R123). -/
theorem State.Selects.loadSeg {s : State} {v : Selector} {d : BitVec 64} (h : s.Selects v d) (k : SReg) :
    s.loadSeg k v = (do
      checkDescriptor k v s.cpl (descAttr d)
      let t ← s.markAccessed (s.descAddr (selIndex v)) (descAttr d)
      return t.setSeg k (descSeg v d)) := by
  rw [loadSeg_gdt h.prot h.index h.gdt, decide_eq_true h.limit, memRead_holds h.holds]; rfl

/-- A descriptor that fails a check stops the instruction (R123). -/
theorem exec_movSreg_of_checkDescriptor {p : Prefixes} {k : SReg} {src : RM} {s : State} {v : BitVec 16} {d : BitVec 64}
    {o : Stop} (unlocked : p.lock = false) (hk : k ≠ .cs) (source : s.sourceIs p src v) (selects : s.Selects v d)
    (check : checkDescriptor k v s.cpl (descAttr d) = .error o) :
    exec (.movSregRm16 p k.code src) s = settle s (.error o) :=
  exec_movSreg_of_loadSeg_error unlocked hk source (by rw [selects.loadSeg, check, bind_error_left])

/-- Of a present code or data segment that the register and the privilege levels allow, the last check is left: that it
does not grow down (R123, D19). -/
theorem checkDescriptor_of_allowed {k : SReg} {v : Selector} {cpl : BitVec 2} {a : SegAttr} (code : a.s = true)
    (present : a.p = true)
    (allowed : if k = .ss then selRpl v = cpl ∧ a.code = false ∧ a.b1 = true ∧ a.dpl = cpl
      else (a.code = false ∨ a.b1 = true) ∧ ((a.code = true ∧ a.b2 = true) ∨ (cpl ≤ a.dpl ∧ selRpl v ≤ a.dpl))) :
    checkDescriptor k v cpl a = if a.code = true ∨ a.b2 = false then .ok () else .error (.refuse .expandDown) := by
  by_cases ss : k = .ss
  · obtain ⟨rpl, data, writable, dpl⟩ := (if_pos ss).mp allowed
    rw [ss, checkDescriptor_ss, if_pos ⟨rpl, code, data, writable, dpl⟩, if_pos present]
  · obtain ⟨readable, level⟩ := (if_neg ss).mp allowed
    rw [checkDescriptor_data ss, if_pos ⟨code, readable⟩, if_pos level, if_pos present]

/-- The byte limit, as the claims write it (R52). -/
theorem descLimit_eq (d : BitVec 64) :
    descLimit d =
      if d.getLsbD 55 = true then descLimit20 d ++ (0xFFF : BitVec 12) else (descLimit20 d).setWidth 32 := by
  unfold descLimit
  rw [BitVec.append_def, BitVec.shiftLeftZeroExtend_eq]
  rfl

/-- An accessed bit that is set: the access byte is what it would be made. -/
theorem or_one_of_bit0 {b : BitVec 8} (h : b.getLsbD 0 = true) : b ||| 1 = b := by
  revert b; decide

/-- After the accessed bit of a descriptor has been set, memory holds its access byte with that bit, and every other
byte as before (R46, R123). -/
theorem markAccessed_stores {s : State} {a : Word} {d : BitVec 64} (canonical : s.mem.wf = true) (holds : s.holds a 8 d)
    (storable : (descAttr d).access.getLsbD 0 = true ∨ s.storable (a + 5) 1) :
    ∃ m, s.markAccessed a (descAttr d) = .ok (s.setMem m) ∧
      m.read (a + 5).toNat = (descAttr d).access ||| 1 ∧ memSameOutside s (s.setMem m) (a + 5) 1 := by
  cases accessed : (descAttr d).access.getLsbD 0 with
  | true =>
    refine ⟨s.mem, markAccessed_ok.2 (.inl ⟨accessed, rfl⟩), ?_, fun b _ => rfl⟩
    rw [or_one_of_bit0 accessed]
    exact holds.read_byte (k := 5) (by decide)
  | false =>
    have storable := storable.resolve_left (ne_true_of_eq_false accessed)
    refine ⟨_, markAccessed_ok.2 (.inr ⟨accessed, storable, rfl⟩), ?_,
      fun b outside => Memory.read_writeLe_of_notMem canonical _ _ _ outside⟩
    have stored := Memory.read_writeLe canonical (a + 5) 1 ((descAttr d).access ||| 1).toNat (by decide) (k := 0)
      (by decide)
    simpa using stored

/-! ## Segment registers -/

theorem segs_segWrite {s t : State} {k : SReg} {off : Word} {n : Nat} {v : BitVec (8 * n)}
    (h : s.segWrite k off n v = .ok t) : t.segs = s.segs := by
  obtain ⟨-, stored⟩ := segWrite_ok.1 h
  obtain ⟨-, rfl⟩ := memWrite_ok.1 stored
  rfl

theorem segs_writeRM {s t : State} {p : Prefixes} {x : RM} {z : Size} {v : BitVec z.bits}
    (h : s.writeRM p x z v = .ok t) : t.segs = s.segs := by
  cases x with
  | reg r => cases h; rfl
  | mem m => exact segs_segWrite h

theorem segs_push {s t : State} {n : Nat} {v : BitVec (8 * n)} (h : s.push n v = .ok t) : t.segs = s.segs := by
  obtain ⟨u, stored, rfl⟩ := push_ok.1 h
  exact segs_segWrite (t := u) stored

theorem segs_pushFs {s t : State} {o : Size} (h : s.pushFs o = .ok t) : t.segs = s.segs := by
  cases o with
  | b32 => exact segs_push (s := s.drawn 1) h
  | b8 | b16 => exact segs_push h

/-- A load changes the register it names and no other. -/
theorem segs_loadSeg {s t : State} {k : SReg} {v : Selector} (h : s.loadSeg k v = .ok t) :
    ∃ g, t.segs = s.segs.set k g := by
  obtain ⟨-, rfl⟩ | ⟨-, -, -, -, rfl⟩ | ⟨-, -, -, d, -, -, u, marked, rfl⟩ := loadSeg_ok h
  · exact ⟨_, rfl⟩
  · exact ⟨_, rfl⟩
  · obtain ⟨-, rfl⟩ | ⟨-, -, rfl⟩ := markAccessed_ok.1 marked <;> exact ⟨_, rfl⟩

theorem segs_advance {s t u : State} {len : Nat} {l : Bool} (h : u.advance len l = .ok t) (hu : u.segs = s.segs) :
    t.segs = s.segs := by
  obtain ⟨-, rfl⟩ := advance_ok.1 h
  exact hu

theorem segs_jumpIf {s t : State} {c : Cond} {len n : Nat} {z : Size} {rel : BitVec n}
    (h : s.jumpIf c len z rel = .ok t) : t.segs = s.segs := by
  obtain ⟨v, rfl⟩ := jumpIf_ok h
  rfl

/-- Every instruction but MOV Sreg, r/m16 leaves the segment registers alone. -/
theorem exec_segs_same {i : Instr} {s t : State} (h : exec i s = .next t)
    (notMov : ∀ p code src, i ≠ .movSregRm16 p code src) : t.segs = s.segs := by
  have raised : (∃ e c, Exception.Raisable e c ∧ t = s.takeException e c) → t.segs = s.segs := by
    rintro ⟨e, c, -, rfl⟩
    rfl
  cases i with
  | movSregRm16 p code src => exact absurd rfl (notMov p code src)
  | cmc p => exact (execCmc_next h).elim raised fun ⟨_, moved⟩ => segs_advance moved rfl
  | add p dst src =>
    cases dst with
    | reg r => exact (execAdd_reg_next h).elim raised fun ⟨_, moved⟩ => segs_advance moved rfl
    | mem m =>
      exact (execAdd_mem_next h).elim raised fun ⟨_, _, _, stored, moved⟩ =>
        segs_advance moved (segs_segWrite (s := s.setStatus _) stored)
  | or p src => exact (execOr_next h).elim raised fun ⟨_, moved⟩ => segs_advance moved rfl
  | movRegImm p r src => exact (execMovRegImm_next h).elim raised fun ⟨_, moved⟩ => segs_advance moved rfl
  | pushFs p =>
    exact (execPushFs_next h).elim raised fun ⟨_, _, pushed, moved⟩ => segs_advance moved (segs_pushFs pushed)
  | jmpRel8 p rel => exact (execJmpRel8_next h).elim raised fun ⟨_, jumped⟩ => by rw [(jump_ok.1 jumped).2]; rfl
  | jccRel1632 p c rel =>
    refine (execJccRel1632_next h).elim raised fun ⟨_, jumped⟩ => ?_
    cases rel <;> exact segs_jumpIf jumped
  | jccRel8 p c rel => exact (execJccRel8_next h).elim raised fun ⟨_, jumped⟩ => segs_jumpIf jumped
  | setcc p c dst =>
    exact (execSetcc_next h).elim raised fun ⟨_, _, written, moved⟩ => segs_advance moved (segs_writeRM written)
  | nop p => exact (execNop_next h).elim raised fun ⟨_, moved⟩ => segs_advance moved rfl
  | lgdt p src => exact (execLgdt_next h).elim raised fun ⟨_, _, moved⟩ => segs_advance moved rfl
  | lidt p src => exact (execLidt_next h).elim raised fun ⟨_, _, moved⟩ => segs_advance moved rfl
  | movR32Cr0 p cr r => exact (execMovR32Cr0_next h).elim raised fun ⟨_, moved⟩ => segs_advance moved rfl
  | movCr0R32 p cr r => exact (execMovCr0R32_next h).elim raised fun ⟨_, _, moved⟩ => segs_advance moved rfl

/-- A next state of MOV Sreg, r/m16 has the segment registers as before, or with the one its code names loaded, which is
not CS. -/
theorem exec_movSreg_segs {p : Prefixes} {code : BitVec 3} {src : RM} {s t : State}
    (h : exec (.movSregRm16 p code src) s = .next t) :
    t.segs = s.segs ∨ ∃ k g, code = k.code ∧ k ≠ .cs ∧ t.segs = s.segs.set k g := by
  obtain ⟨e, c, -, rfl⟩ | ⟨k, v, u, named, notCs, -, load, moved⟩ := execMovSregRm16_next h
  · exact .inl rfl
  · obtain ⟨g, loaded⟩ := segs_loadSeg load
    exact .inr ⟨k, g, (SReg.code_of_ofCode named).symm, notCs, (segs_advance moved rfl).trans loaded⟩

/-! ## Pushing -/

/-- A push to a slot that cannot be written raises StackFault(0) (R124). -/
theorem push_misses {s : State} {n : Nat} {new : Word} (top : (s.pushPtr s.stackSize n).setWidth 32 = new)
    (misses : s.misses .ss new n true) (v : BitVec (8 * n)) : s.push n v = .error (.sf 0) := by
  subst top
  rw [State.push, State.pushWith, segWrite_misses misses, bind_error_left]
  rfl

/-- A push to a slot that can be written stores the value there and moves the stack pointer (R124): `new` is the stack
pointer and `esp` ESP after it (`push_pointer`). -/
theorem push_reaches {s : State} {n : Nat} {new esp : Word} (top : (s.pushPtr s.stackSize n).setWidth 32 = new)
    (moved : s.setReg .esp s.stackSize (s.pushPtr s.stackSize n) = { s with regs := s.regs.set .esp esp })
    (bytes : n ≤ 2 ^ 32) (canonical : s.mem.wf = true) (reaches : s.reaches .ss new n true)
    (storable : s.storable (s.segs.ss.base + new) n) (v : BitVec (8 * n)) :
    ∃ t, s.push n v = .ok t ∧ t = { s with regs := s.regs.set .esp esp, mem := t.mem } ∧
      t.holds (s.segs.ss.base + new) n v ∧ memSameOutside s t (s.segs.ss.base + new) n := by
  subst top
  have pushed : s.push n v = .ok _ := push_ok.2
    ⟨_, segWrite_ok.2 ⟨checkAccess_of_reaches reaches, memWrite_ok.2 ⟨storable, rfl⟩⟩, rfl⟩
  exact ⟨_, pushed, congrArg (State.setMem · _) moved,
    holds_writeLe canonical (fun b hb => (storable b hb).1) bytes rfl rfl,
    fun b outside => Memory.read_writeLe_of_notMem canonical _ _ _ outside⟩

/-- A draw before a push is a draw after it. -/
theorem drawn_push (s : State) (j n : Nat) (v : BitVec (8 * n)) :
    (s.drawn j).push n v = (·.drawn j) <$> s.push n v := by
  simp only [State.push, State.pushWith, State.segWrite, State.memWrite, map_bind, map_pure, bind_assoc, pure_bind]
  rfl

/-- PUSH FS is the push of a value whose low 16 bits are FS (R122); the others are drawn, where there are any (D22). -/
theorem pushFs_eq_push (s : State) (o : Size) :
    ∃ (j : Nat) (v : BitVec (8 * if o = .b32 then 4 else 2)),
      s.pushFs o = (·.drawn j) <$> s.push _ v ∧ v.setWidth (8 * 2) = s.segs.fs.sel := by
  cases o with
  | b32 => exact ⟨1, (s.draw 16 ++ s.segs.fs.sel : BitVec 32), drawn_push s 1 4 _, BitVec.setWidth_append_eq_right⟩
  | b8 | b16 => exact ⟨0, s.segs.fs.sel, drawn_push s 0 2 _, BitVec.setWidth_eq _⟩

/-! ## The claims -/

/-- Settles O22: the opcode byte holds w and the register, and the immediate is the operand of the size they give. -/
theorem movImmediateLoadsRegister : Obligations.MovImmediateLoadsRegister := by
  unfold Obligations.MovImmediateLoadsRegister
  refine fun p r s => ⟨fun d x rest => ?byte,
    fun d x rest size => decode_encode_movRegImm d p r (.i16 x) rest (by simp [Imm.wf, size]),
    fun d x rest size => decode_encode_movRegImm d p r (.i32 x) rest (by simp [Imm.wf, size]),
    fun src locked => settle_bind_invalidOpcode (noLock_true locked) s _,
    fun src z v unlocked room operand => ?run⟩
  case byte =>
    have decoded := decode_encode_movRegImm d p r (.i8 x) rest rfl
    rwa [encode, List.append_assoc] at decoded
  case run =>
    obtain ⟨rfl, rfl⟩ := immSize_immValue_of_claim operand
    exact ⟨false, settle_unlocked_advance unlocked room rfl⟩

/-- Settles O23: in real mode the load makes no check. -/
theorem segmentLoadInRealMode : Obligations.SegmentLoadInRealMode := by
  unfold Obligations.SegmentLoadInRealMode
  intro p k src s v unlocked room real hk source
  exact ⟨_, false, exec_movSreg_of_loadSeg_ok unlocked hk source (loadSeg_real real k v) room rfl, rfl, rfl, rfl, rfl⟩

/-- Settles O24: the descriptor passes every check, and the load writes at most its access byte. -/
theorem segmentLoadFromDescriptor : Obligations.SegmentLoadFromDescriptor := by
  unfold Obligations.SegmentLoadFromDescriptor
  intro p k src s v d at_ acc rpl dpl lim20 unlocked room prot canonical hk source index gdt limit holds present code
    up allowed storable
  have selects : s.Selects v d := ⟨prot, mt selIndex_eq_zero.1 index, gdt, limit, holds⟩
  have check : checkDescriptor k v s.cpl (descAttr d) = .ok () :=
    (checkDescriptor_of_allowed (a := descAttr d) code present allowed).trans (if_pos up)
  obtain ⟨m, marked, stored, same⟩ := markAccessed_stores canonical selects.holds storable
  have load : s.loadSeg k v = .ok ((s.setMem m).setSeg k (descSeg v d)) := by
    rw [selects.loadSeg, check, bind_ok_left, marked, bind_ok_left, pure_ok]
  refine ⟨_, exec_movSreg_of_loadSeg_ok unlocked hk source load room rfl, ?_, stored, same⟩
  rw [descSeg, descLimit_eq]
  rfl

/-- Settles O25: the load marks a register other than SS, and every access checks the mark first. -/
theorem nullSelectorLoad : Obligations.NullSelectorLoad := by
  unfold Obligations.NullSelectorLoad
  intro p k src s v unlocked prot hk source index gdt
  have load := loadSeg_null prot (selIndex_eq_zero.2 index) gdt k
  refine ⟨fun ss => ?stack, fun ss room => ?other⟩
  case stack => exact exec_movSreg_of_loadSeg_error unlocked hk source (load.trans (if_pos ss))
  case other =>
    have run := exec_movSreg_of_loadSeg_ok unlocked hk source (load.trans (if_neg ss)) room rfl
    refine ⟨_, false, _, run, rfl, rfl, accesses_raise_of_invalid ss ?marked⟩
    exact congrArg SegReg.valid (seg_loadSegNull s k v)

/-- Settles O26: each fault is the first check that fails, of the source, the table's limit or the descriptor. -/
theorem segmentLoadRaises : Obligations.SegmentLoadRaises := by
  unfold Obligations.SegmentLoadRaises
  intro p k src s unlocked hk run
  refine ⟨?unreadable, fun v prot source index gdt => ⟨fun beyond => ?beyond, fun d => ?descriptor⟩⟩
  case unreadable =>
    rintro m rfl misses
    exact (exec_movSreg unlocked hk).trans (by rw [readRM_misses misses, bind_error_left, settle_accessFault])
  case beyond =>
    exact exec_movSreg_of_loadSeg_error unlocked hk source
      (loadSeg_beyondTable prot (mt selIndex_eq_zero.1 index) gdt beyond k)
  case descriptor =>
    intro acc rpl dpl limit holds
    have raises {o : Stop} (check : checkDescriptor k v s.cpl (descAttr d) = .error o) : run = settle s (.error o) :=
      exec_movSreg_of_checkDescriptor unlocked hk source ⟨prot, mt selIndex_eq_zero.1 index, gdt, limit, holds⟩ check
    refine ⟨fun ss => ?stack, fun ss => ?other⟩
    case stack =>
      subst ss
      rw [checkDescriptor_ss] at raises
      exact ⟨fun bad => raises (if_neg bad),
        fun good absent => raises ((if_pos good).trans (if_neg (ne_true_of_eq_false absent)))⟩
    case other =>
      rw [checkDescriptor_data ss] at raises
      exact ⟨fun bad => raises (if_neg bad), fun good bad => raises ((if_pos good).trans (if_neg bad)),
        fun good level absent => raises <| (if_pos good).trans <| (if_pos level).trans <|
          if_neg (ne_true_of_eq_false absent)⟩

/-- Settles O27: TI is checked before the descriptor is read, expand-down after every other check. -/
theorem segmentLoadRefuses : Obligations.SegmentLoadRefuses := by
  unfold Obligations.SegmentLoadRefuses
  intro p k src s v unlocked prot hk source run
  refine ⟨fun ldt => exec_movSreg_of_loadSeg_error unlocked hk source (loadSeg_ldt prot ldt k), fun d => ?down⟩
  intro acc rpl dpl index gdt limit holds present code data down allowed
  have notUp : ¬ (acc.getLsbD 3 = true ∨ acc.getLsbD 2 = false) :=
    not_or.2 ⟨ne_true_of_eq_false data, ne_false_of_eq_true down⟩
  have check : checkDescriptor k v s.cpl (descAttr d) = .error (.refuse .expandDown) := by
    refine (checkDescriptor_of_allowed (a := descAttr d) code present ?_).trans (if_neg notUp)
    by_cases ss : k = .ss
    · obtain ⟨rpl, writable, dpl⟩ := (if_pos ss).mp allowed
      exact (if_pos ss).mpr ⟨rpl, data, writable, dpl⟩
    · exact (if_neg ss).mpr ⟨.inl data, .inr ((if_neg ss).mp allowed)⟩
  exact exec_movSreg_of_checkDescriptor unlocked hk source ⟨prot, mt selIndex_eq_zero.1 index, gdt, limit, holds⟩ check

/-- Settles O28: with a lock byte or without one, the code is refused before the source is read. -/
theorem unusedSegmentCodeRaises : Obligations.UnusedSegmentCodeRaises := by
  unfold Obligations.UnusedSegmentCodeRaises
  intro p code src s unused
  cases locked : p.lock with
  | true => exact settle_bind_invalidOpcode (noLock_true locked) s _
  | false =>
    rw [exec, execMovSregRm16, noLock_false locked]
    rcases unused with rfl | rfl | rfl <;> rfl

/-- Settles O29: PUSH FS is a push of FS in 2 or 4 bytes, and what holds of a push of any value holds of it. -/
theorem pushFsStoresBelowStackPointer : Obligations.PushFsStoresBelowStackPointer := by
  unfold Obligations.PushFsStoresBelowStackPointer
  intro p s n big new esp slot
  obtain ⟨top, moved⟩ : (s.pushPtr s.stackSize n).setWidth 32 = new ∧
    s.setReg .esp s.stackSize (s.pushPtr s.stackSize n) = { s with regs := s.regs.set .esp esp } := push_pointer s n
  have bytes : 2 ≤ n ∧ n ≤ 2 ^ 32 := by
    dsimp only [n]; split <;> decide
  obtain ⟨j, v, push, low⟩ := pushFs_eq_push s (s.opsize p)
  refine ⟨fun d rest => ?bytes, fun locked => settle_bind_invalidOpcode (noLock_true locked) s _,
    fun unlocked misses => ?misses, fun unlocked canonical room reaches storable => ?reaches,
    fun v => ⟨fun misses => push_misses top misses v,
      fun canonical reaches storable => push_reaches top moved bytes.2 canonical reaches storable v⟩⟩
  case bytes =>
    rw [decode_prefixes_encode d p _ rfl]
    rfl
  case misses =>
    rw [exec, execPushFs, noLock_false unlocked, bind_ok_left, push, push_misses top misses v]
    rfl
  case reaches =>
    obtain ⟨t, ok, ht, held, same⟩ := push_reaches top moved bytes.2 canonical reaches storable v
    have eip : s.eip = (t.drawn j).eip := by rw [ht]; rfl
    have run : exec (.pushFs p) s = .next { t.drawn j with eip := s.nextPc (.pushFs p), busLock := false } := by
      rw [exec, execPushFs, noLock_false unlocked, bind_ok_left, push, ok]
      exact settle_next.2 (.inl (advance_room room eip))
    refine ⟨_, run, ?state, ?stored, same⟩
    case state => rw [ht]; rfl
    case stored => exact low ▸ held.low bytes.1

/-- Settles O43: MOV Sreg, r/m16 changes the register its code names and no other, every other instruction none. -/
theorem segmentRegisterFrame : Obligations.SegmentRegisterFrame := by
  unfold Obligations.SegmentRegisterFrame
  intro i s t k h changed
  have loaded : t.segs ≠ s.segs := fun same => changed (congrArg (SegRegs.get · k) same)
  cases i with
  | movSregRm16 p code src =>
    obtain ⟨j, g, rfl, notCs, load⟩ := (exec_movSreg_segs h).resolve_left loaded
    obtain rfl : k = j := by
      by_contra other
      exact changed (by rw [State.seg, State.seg, load, SegRegs.get_set, if_neg other])
    exact ⟨notCs, p, src, rfl⟩
  | _ => exact absurd (exec_segs_same h fun _ _ _ => Instr.noConfusion) loaded

end Machine
end Sys2Proof

/-! Control transfer and condition instructions (R130 to R134): JMP rel8, Jcc, SETcc, NOP. -/

namespace Sys2Proof

/-! ## Reading the bytes -/

/-- An opcode of two bytes, the first 0Fh, is the one its second byte selects (R79). -/
theorem takeOpcode_0F {b : Byte} {op : Opcode} (h : Opcode.ofByte0F b = some op) (bs : List Byte) :
    takeOpcode (0x0F :: b :: bs) = .ok op bs := by
  simp [takeOpcode, h]

/-- The decoder reads back a Jcc rel16/rel32, whose second opcode byte holds the condition (R131). -/
theorem decode_encode_jccRel1632 (d : Bool) (p : Prefixes) (c : Cond) (v : Rel) (rest : List Byte)
    (h : v.wf (operandSize d p.opsize) = true) :
    decode d (encode (.jccRel1632 p c v) ++ rest) = .ok (.jccRel1632 p c v) rest := by
  have bytes : encode (.jccRel1632 p c v) ++ rest =
      p.encode ++ 0x0F :: (0x80 ||| c.code.setWidth 8) :: (v.encode ++ rest) := List.append_assoc ..
  rw [bytes, decode_prefixes_encode d p _ rfl, takeOpcode_0F (Opcode.ofByte0F_jccRel1632 _), Cond.ofCode_code,
    Parse.bind_ok, takeRow, takeRel_encode rest h, Parse.map_ok]

/-- The decoder reads a Jcc rel8, whose opcode byte holds the condition (R132). -/
theorem decode_jccRel8 (d : Bool) (p : Prefixes) (c : Cond) (x : BitVec 8) (rest : List Byte) :
    decode d (p.encode ++ (0x70 ||| c.code.setWidth 8) :: x :: rest) = .ok (.jccRel8 p c x) rest := by
  have noPrefix : Mark.ofByte (0x70 ||| c.code.setWidth 8) = none := by cases c <;> rfl
  have opcode : takeOpcode ((0x70 ||| c.code.setWidth 8) :: x :: rest) = .ok (.jccRel8 c) (x :: rest) := by
    cases c <;> rfl
  rw [decode_prefixes_encode d p _ noPrefix, opcode]
  rfl

/-- The decoder reads a SETcc with any reg field; its second opcode byte holds the condition (R133). -/
theorem decode_setcc (d : Bool) (p : Prefixes) (c : Cond) (reg : BitVec 3) (x : RM) (rest : List Byte)
    (h : x.wf (addressSize d p.adsize) = true) :
    decode d (p.encode ++ 0x0F :: (0x90 ||| c.code.setWidth 8) :: (x.encode reg ++ rest)) =
      .ok (.setcc p c x) rest := by
  rw [decode_prefixes_encode d p _ rfl, takeOpcode_0F (Opcode.ofByte0F_setcc _), Cond.ofCode_code, Parse.bind_ok,
    takeRow, takeRM_encode rest rfl h, Parse.map_ok]

namespace Machine

/-! ## Relative jumps -/

/-- The target of a relative jump, as the claims write it: under an operand size of 32 bits the sum, else its low 16
bits (R94, R130). -/
theorem jumpTarget_eq {n : Nat} (s : State) (i : Instr) {o : Size} (ho : o ≠ .b8) (rel : BitVec n) :
    s.jumpTarget i.length o rel =
      if o = .b32 then s.nextPc i + rel.signExtend 32
      else ((s.nextPc i + rel.signExtend 32).setWidth 16).setWidth 32 := by
  cases o with
  | b8 => exact absurd rfl ho
  | b16 => rfl
  | b32 => exact (BitVec.setWidth_eq _).trans (BitVec.setWidth_eq _)

section
variable {p : Prefixes} {s : State} {target : Word} {len n : Nat} {o : Size} {rel : BitVec n}
  (unlocked : p.lock = false) (aimed : s.jumpTarget len o rel = target)
include unlocked aimed

/-- Without a lock byte, a jump beyond the code-segment limit raises GeneralProtection(0) (R130). -/
theorem settle_jump_beyond (beyond : s.segs.cs.limit.toNat < target.toNat) :
    settle s (do noLock p; s.jump len o rel) = s.Raised .generalProtection (some 0) := by
  subst aimed
  rw [noLock_false unlocked, bind_ok_left, jump_error.2 ⟨beyond, rfl⟩]
  rfl

/-- Without a lock byte, a jump within the code-segment limit takes EIP to its target (R130). -/
theorem settle_jump_within (within : target.toNat ≤ s.segs.cs.limit.toNat) :
    settle s (do noLock p; s.jump len o rel) = .next { s with eip := target, busLock := false } := by
  subst aimed
  rw [noLock_false unlocked, bind_ok_left, jump_ok.2 ⟨within, rfl⟩]
  rfl

end

/-- The three forms of Jcc are one conditional jump, with a displacement of their own width (R131, R132). -/
theorem exec_jcc_of_claim {p : Prefixes} {c : Cond} {i : Instr} {rel : Word} (s : State)
    (h : (∃ x : BitVec 16, i = .jccRel1632 p c (.r16 x) ∧ rel = x.signExtend 32) ∨
      (∃ x : BitVec 32, i = .jccRel1632 p c (.r32 x) ∧ rel = x) ∨
      ∃ x : BitVec 8, i = .jccRel8 p c x ∧ rel = x.signExtend 32) :
    ∃ (n : Nat) (x : BitVec n), rel = x.signExtend 32 ∧
      exec i s = settle s (do noLock p; s.jumpIf c i.length (s.opsize p) x) := by
  obtain ⟨x, rfl, rfl⟩ | ⟨x, rfl, rfl⟩ | ⟨x, rfl, rfl⟩ := h
  · exact ⟨16, x, rfl, rfl⟩
  · exact ⟨32, rel, (BitVec.signExtend_eq rel).symm, rfl⟩
  · exact ⟨8, x, rfl, rfl⟩

/-- A conditional jump whose condition holds is the jump (R131). -/
theorem jumpIf_taken {s : State} {c : Cond} (holds : Cond.holds c s.status = true) (len : Nat) (o : Size) {n : Nat}
    (rel : BitVec n) : s.jumpIf c len o rel = s.jump len o rel :=
  if_pos holds

/-- A conditional jump whose condition does not hold goes to the next instruction (R131). -/
theorem jumpIf_not_taken {s : State} {c : Cond} (fails : Cond.holds c s.status = false) (len : Nat) (o : Size)
    {n : Nat} (rel : BitVec n) : s.jumpIf c len o rel = s.advance len :=
  if_neg (ne_true_of_eq_false fails)

/-! ## Storing a byte -/

/-- A memory operand that cannot be written raises the fault of that write. -/
theorem writeMem_misses {s : State} {p : Prefixes} {m : Mem} {z : Size}
    (h : s.misses (memSeg p m) (s.ea m) z.bytes true) (v : BitVec z.bits) :
    s.writeMem p m z v = .error (accessFault (memSeg p m)) :=
  segWrite_misses h v

/-- A byte that was stored is read back (R47). -/
theorem Memory.read_writeLe_byte {m : Memory} (canonical : m.wf = true) (a : Word) (v : Byte) :
    (m.writeLe a 1 v.toNat).read a.toNat = v := by
  have stored := Memory.read_writeLe canonical a 1 v.toNat (by decide) (k := 0) (by decide)
  simpa using stored

/-! ## The claims -/

/-- Settles O30: the target is compared with the code-segment limit. -/
theorem jmpIsRelative : Obligations.JmpIsRelative := by
  unfold Obligations.JmpIsRelative
  intro p rel s sum target
  have aimed : s.jumpTarget (Instr.jmpRel8 p rel).length (s.opsize p) rel = target :=
    jumpTarget_eq s _ (operandSize_ne _ _) rel
  refine ⟨fun d rest => ?bytes, fun locked => settle_bind_invalidOpcode (noLock_true locked) s _,
    fun unlocked beyond => settle_jump_beyond unlocked aimed beyond,
    fun unlocked within => ⟨false, settle_jump_within unlocked aimed within⟩⟩
  case bytes =>
    rw [decode_prefixes_encode d p _ rfl]
    rfl

/-- Settles O31: whatever the width of the displacement, a Jcc is a jump where its condition holds, else an advance. -/
theorem conditionalJumps : Obligations.ConditionalJumps := by
  unfold Obligations.ConditionalJumps
  refine fun p c s =>
    ⟨fun d x rest size => decode_encode_jccRel1632 d p c (.r16 x) rest (by simp [Rel.wf, size]),
    fun d x rest size => decode_encode_jccRel1632 d p c (.r32 x) rest (by simp [Rel.wf, size]),
    fun d x rest => decode_jccRel8 d p c x rest, ?run⟩
  intro i rel form target
  obtain ⟨n, x, rfl, run⟩ := exec_jcc_of_claim s form
  have aimed : s.jumpTarget i.length (s.opsize p) x = target := jumpTarget_eq s i (operandSize_ne _ _) x
  rw [run]
  refine ⟨fun locked => settle_bind_invalidOpcode (noLock_true locked) s _, fun unlocked holds beyond => ?beyond,
    fun unlocked holds within => ⟨false, ?within⟩, fun unlocked fails room => ⟨false, ?next⟩⟩
  case beyond => rw [jumpIf_taken holds, settle_jump_beyond unlocked aimed beyond]
  case within => rw [jumpIf_taken holds, settle_jump_within unlocked aimed within]
  case next => rw [jumpIf_not_taken fails, settle_unlocked_advance unlocked room rfl]

/-- Settles O33: SETcc writes the condition's byte to its operand, then moves to the next instruction. -/
theorem setccStoresCondition : Obligations.SetccStoresCondition := by
  unfold Obligations.SetccStoresCondition
  refine fun p c s => ⟨fun d reg x rest wf => ?bytes,
    fun x locked => settle_bind_invalidOpcode (noLock_true locked) s _,
    fun r unlocked room => ⟨false, settle_unlocked_advance unlocked room rfl⟩, fun m unlocked misses => ?misses,
    fun m unlocked canonical room reaches storable => ?mem⟩
  case bytes =>
    rw [List.append_assoc]
    exact decode_setcc d p c reg x rest wf
  case misses =>
    rw [exec, execSetcc, noLock_false unlocked, bind_ok_left, State.writeRM,
      writeMem_misses (z := .b8) misses, bind_error_left, settle_accessFault]
  case mem =>
    have write := writeMem_of_reaches (z := .b8) (if Cond.holds c s.status then 1 else 0) reaches storable
    have run : exec (.setcc p c (.mem m)) s = _ := settle_next.2 <| .inl <| bind_ok.2
      ⟨(), noLock_false unlocked, bind_ok.2 ⟨_, write, advance_room room rfl⟩⟩
    exact ⟨_, run, rfl, Memory.read_writeLe_byte canonical _ _,
      fun b outside => Memory.read_writeLe_of_notMem canonical _ _ _ outside⟩

/-- Settles O34: after the lock check NOP only advances. -/
theorem nopOnlyAdvances : Obligations.NopOnlyAdvances := by
  unfold Obligations.NopOnlyAdvances
  refine fun p s => ⟨fun d rest => ?bytes, fun locked => settle_bind_invalidOpcode (noLock_true locked) s _,
    fun unlocked room => ⟨false, settle_unlocked_advance unlocked room rfl⟩⟩
  case bytes =>
    rw [decode_prefixes_encode d p rest rfl]
    rfl

end Machine
end Sys2Proof

/-! System instructions (R140 to R144) and the default size D (R78): LGDT, LIDT, MOV to and from CR0. -/

namespace Sys2Proof

/-! ## Reading the bytes -/

/-- What is decoded has the immediates and displacements of its operand size and its address size (R92 to R94). -/
theorem wfIn_of_decode {d : Bool} {bs rest : List Byte} {i : Instr} (h : decode d bs = .ok i rest) :
    i.wfIn d = true := by
  obtain ⟨m, _, -, h⟩ := Parse.bind_eq_ok.1 h
  obtain ⟨op, _, -, row⟩ := Parse.bind_eq_ok.1 h
  split at row
  · cases row
  · obtain ⟨_, -, ⟨prefixes, wf, -⟩, -⟩ := takeRow_reads (operandSize_ne _ _) _ _ _ _ _ _ row
    rwa [← prefixes] at wf

/-- After 0F 01 the reg field 010b is LGDT, 011b LIDT (R140, R141). -/
theorem decode_group0F01 (d : Bool) (p : Prefixes) {reg : BitVec 3} (hreg : reg = 2 ∨ reg = 3) (x : RM)
    (rest : List Byte) (h : x.wf (addressSize d p.adsize) = true) :
    decode d (p.encode ++ 0x0F :: 0x01 :: x.encode reg ++ rest) =
      .ok (if reg = 2 then .lgdt p x else .lidt p x) rest := by
  have admitted : (reg == 2 || reg == 3) = true := by simpa using hreg
  rw [List.append_assoc, List.cons_append, List.cons_append, decode_prefixes_encode d p _ rfl,
    takeOpcode_0F (op := .group0F01) rfl, Parse.bind_ok, takeRow,
    takeRM_encode (sel := fun r => r == 2 || r == 3) rest admitted h, Parse.map_ok]

/-- MOV r32, CR0 is read with any mod field (R142). -/
theorem decode_movFromCr (d : Bool) (p : Prefixes) (mod : BitVec 2) (cr : BitVec 3) (r : Reg) (rest : List Byte) :
    decode d (p.encode ++ 0x0F :: 0x20 :: packFields mod cr r.code :: rest) = .ok (.movR32Cr0 p cr r) rest := by
  rw [decode_prefixes_encode d p _ rfl, takeOpcode_0F (op := .movFromCr) rfl, Parse.bind_ok, takeRow, take8_cons,
    Parse.map_ok, fieldMid_packFields, fieldLo_packFields, Reg.ofCode_code]

/-- MOV CR0, r32 is read with any mod field (R143). -/
theorem decode_movToCr (d : Bool) (p : Prefixes) (mod : BitVec 2) (cr : BitVec 3) (r : Reg) (rest : List Byte) :
    decode d (p.encode ++ 0x0F :: 0x22 :: packFields mod cr r.code :: rest) = .ok (.movCr0R32 p cr r) rest := by
  rw [decode_prefixes_encode d p _ rfl, takeOpcode_0F (op := .movToCr) rfl, Parse.bind_ok, takeRow, take8_cons,
    Parse.map_ok, fieldMid_packFields, fieldLo_packFields, Reg.ofCode_code]

namespace Machine

/-! ## Mode and default size -/

/-- VM is no status flag, so it is kept. -/
theorem Keeps.vm {s t : State} (h : Keeps s t) : t.vm = s.vm :=
  h.flags 17 (by decide) (by decide) (by decide) (by decide) (by decide) (by decide)

/-- D is a bit of CS, so it is kept (R53). -/
theorem Keeps.defaultSize {s t : State} (h : Keeps s t) : t.defaultSize = s.defaultSize :=
  congrArg (fun g => g.attr.x) h.cs

theorem mode_eq_real {s : State} (vm : s.vm = false) : s.mode = .real ↔ s.pe = false := by
  cases pe : s.pe <;> simp [State.mode, vm, pe]

theorem mode_eq_prot {s : State} (vm : s.vm = false) : s.mode = .prot ↔ s.pe = true := by
  cases pe : s.pe <;> simp [State.mode, vm, pe]

/-- Outside VM-86 mode, a change of PE is a change between real and protected mode (R26, R144). -/
theorem mode_changes_of_pe_ne {s t : State} (hs : s.vm = false) (ht : t.vm = false) (h : t.pe ≠ s.pe) :
    (s.mode = .real ↔ t.mode = .prot) ∧ (s.mode = .prot ↔ t.mode = .real) := by
  have flipped : t.pe = !s.pe := Bool.eq_not_of_ne h
  rw [mode_eq_real hs, mode_eq_prot hs, mode_eq_real ht, mode_eq_prot ht, flipped]
  cases s.pe <;> decide

/-! ## The privilege check and the checks before CR0 -/

/-- The privilege check passes exactly where the claims say it does (R163). -/
theorem privileged_iff {s : State} : s.privileged = .ok () ↔ s.mayRunPrivileged :=
  privileged_ok.trans (or_congr_right and_comm)

theorem privileged_of_not_mayRun {s : State} (h : ¬ s.mayRunPrivileged) : s.privileged = .error (.gp 0) :=
  require_error.2 ⟨Bool.eq_false_iff.2 fun holds => h (privileged_iff.1 (require_ok.2 holds)), rfl⟩

section
variable {p : Prefixes} {s : State} (unlocked : p.lock = false)
include unlocked

theorem checkCr_unprivileged (h : ¬ s.mayRunPrivileged) (cr : BitVec 3) : s.checkCr p cr = .error (.gp 0) := by
  rw [State.checkCr, noLock_false unlocked, bind_ok_left, privileged_of_not_mayRun h, bind_error_left]

theorem checkCr_otherRegister (h : s.mayRunPrivileged) {cr : BitVec 3} (other : cr ≠ 0) :
    s.checkCr p cr = .error (.refuse (.controlRegister cr)) := by
  rw [State.checkCr, noLock_false unlocked, bind_ok_left, privileged_iff.2 h, bind_ok_left,
    decide_eq_false other, require_false]

theorem checkCr_cr0 (h : s.mayRunPrivileged) : s.checkCr p 0 = .ok () :=
  checkCr_ok.2 ⟨unlocked, h.imp_right And.symm, rfl⟩

end

/-- Where an instruction's first part stops, the instruction stops, whatever follows. -/
theorem settle_bind_error {α : Type} {x : Except Stop α} {o : Stop} (h : x = .error o) (s : State)
    (f : α → Except Stop State) : settle s (x >>= f) = settle s (.error o) := by
  rw [h, bind_error_left]

/-! ## The operand of LGDT and LIDT -/

/-- A part of memory that can be read, and holds a value, is read (R47). -/
theorem segRead_of_holds {s : State} {k : SReg} {off : Word} {n : Nat} {v : BitVec (8 * n)}
    (reaches : s.reaches k off n false) (holds : s.holds ((s.seg k).base + off) n v) : s.segRead k off n = .ok v :=
  segRead_ok.2 ⟨checkAccess_of_reaches reaches, memRead_holds holds⟩

section
variable {p : Prefixes} {m : Mem} {s : State}

/-- A limit that cannot be read stops the load (R140). -/
theorem readTable_limit_misses (misses : s.misses (memSeg p m) (s.ea m) 2 false) :
    s.readTable p m = .error (accessFault (memSeg p m)) := by
  rw [State.readTable, segRead_misses misses, bind_error_left]

variable (reaches : s.reaches (memSeg p m) (s.ea m) 2 false)
include reaches

/-- Once the limit has been read, a base that cannot be read stops the load (R140). -/
theorem readTable_base_misses (backed : s.backed (s.linear p m) 2)
    (misses : s.misses (memSeg p m) (s.eaPlus m 2) 4 false) :
    s.readTable p m = .error (accessFault (memSeg p m)) := by
  rw [State.readTable, segRead_of_holds reaches ⟨backed, rfl⟩, bind_ok_left, segRead_misses misses, bind_error_left]

/-- Limit and base are read, of the base 24 bits with a 16-bit operand size (R140, D20). -/
theorem readTable_of_holds {limit : BitVec 16} {base : BitVec 32} (hlimit : s.holds (s.linear p m) 2 limit)
    (reaches' : s.reaches (memSeg p m) (s.eaPlus m 2) 4 false)
    (hbase : s.holds ((s.seg (memSeg p m)).base + s.eaPlus m 2) 4 base) :
    s.readTable p m =
      .ok { limit, base := if s.opsize p = .b32 then base else base &&& 0x00FFFFFF } := by
  rw [State.readTable, segRead_of_holds reaches hlimit, bind_ok_left, segRead_of_holds reaches' hbase, bind_ok_left]
  cases s.opsize p <;> rfl

end

/-- A register operand raises InvalidOpcode, with a lock byte or without one (R140). -/
theorem loadTable_reg (s : State) (p : Prefixes) (r : Reg) : s.loadTable p (.reg r) = .error .invalidOpcode := by
  cases locked : p.lock with
  | true => exact loadTable_locked locked s _
  | false => rw [State.loadTable, noLock_false locked]; rfl

section
variable {p : Prefixes} {m : Mem} {s : State} (unlocked : p.lock = false)
include unlocked

theorem loadTable_unprivileged (h : ¬ s.mayRunPrivileged) : s.loadTable p (.mem m) = .error (.gp 0) := by
  rw [State.loadTable, noLock_false unlocked, bind_ok_left, privileged_of_not_mayRun h, bind_error_left]

/-- Where a privileged instruction may run, the operand is read (R140, R163). -/
theorem loadTable_privileged (h : s.mayRunPrivileged) : s.loadTable p (.mem m) = s.readTable p m := by
  rw [State.loadTable, noLock_false unlocked, bind_ok_left, privileged_iff.2 h, bind_ok_left]

end

/-! ## Running LGDT and LIDT -/

/-- A load that stops, stops both instructions. -/
theorem exec_lgdt_lidt_of_error {s : State} {p : Prefixes} {x : RM} {o : Stop} (h : s.loadTable p x = .error o) :
    exec (.lgdt p x) s = settle s (.error o) ∧ exec (.lidt p x) s = settle s (.error o) :=
  ⟨settle_bind_error h s _, settle_bind_error h s _⟩

/-- An operand that cannot be read raises the fault of that read in both. -/
theorem exec_lgdt_lidt_of_accessFault {s : State} {p : Prefixes} {x : RM} {k : SReg}
    (h : s.loadTable p x = .error (accessFault k)) :
    exec (.lgdt p x) s = s.accessRaised k ∧ exec (.lidt p x) s = s.accessRaised k := by
  rw [← settle_accessFault]
  exact exec_lgdt_lidt_of_error h

/-- LGDT writes the operand it has read to GDTR (R140). -/
theorem exec_lgdt_of_loadTable {s : State} {p : Prefixes} {x : RM} {v : TableReg} (h : s.loadTable p x = .ok v)
    (room : s.room (.lgdt p x)) :
    exec (.lgdt p x) s = .next { s with gdtr := v, eip := s.nextPc (.lgdt p x), busLock := false } :=
  settle_next.2 (.inl (bind_ok.2 ⟨v, h, advance_room room rfl⟩))

/-- LIDT writes the operand it has read to IDTR (R141). -/
theorem exec_lidt_of_loadTable {s : State} {p : Prefixes} {x : RM} {v : TableReg} (h : s.loadTable p x = .ok v)
    (room : s.room (.lidt p x)) :
    exec (.lidt p x) s = .next { s with idtr := v, eip := s.nextPc (.lidt p x), busLock := false } :=
  settle_next.2 (.inl (bind_ok.2 ⟨v, h, advance_room room rfl⟩))

/-! ## The claims -/

/-- Settles O8: D is a bit of CS, which every instruction keeps, and what is decoded is well-formed for its sizes. -/
theorem sizesFollowDefaultAndPrefix : Obligations.SizesFollowDefaultAndPrefix := by
  unfold Obligations.SizesFollowDefaultAndPrefix
  refine ⟨fun s p => ⟨rfl, rfl⟩, fun i s t h => ?kept, fun D bs i rest h => wfIn_of_decode h⟩
  case kept =>
    obtain ⟨e, c, -, rfl⟩ | keeps := exec_keeps h
    · rfl
    · exact keeps.defaultSize

/-- Settles O35: both instructions load the same operand, after the same checks. -/
theorem tableRegisterLoads : Obligations.TableRegisterLoads := by
  unfold Obligations.TableRegisterLoads
  refine fun p s => ⟨fun d x rest wf => ⟨decode_group0F01 d p (.inl rfl) x rest wf,
    decode_group0F01 d p (.inr rfl) x rest wf⟩, fun x h => ?invalidOpcode, fun m unlocked => ?mem⟩
  case invalidOpcode =>
    obtain locked | ⟨r, rfl⟩ := h
    · exact exec_lgdt_lidt_of_error (loadTable_locked locked s x)
    · exact exec_lgdt_lidt_of_error (loadTable_reg s p r)
  case mem =>
    intro seg ea2
    have basePart : s.eaPlus m 2 = ea2 := rfl
    rw [← basePart]
    refine ⟨fun h => exec_lgdt_lidt_of_error (loadTable_unprivileged unlocked h), fun h => ?privileged⟩
    have load := loadTable_privileged (m := m) unlocked h
    refine ⟨fun misses => exec_lgdt_lidt_of_accessFault (load.trans (readTable_limit_misses misses)),
      fun reaches backed => ⟨fun misses => ?base, fun limit base hlimit reaches' hbase => ?loaded⟩⟩
    case base =>
      exact exec_lgdt_lidt_of_accessFault (load.trans (readTable_base_misses reaches backed misses))
    case loaded =>
      have read := load.trans (readTable_of_holds reaches hlimit reaches' hbase)
      exact ⟨fun room => ⟨false, exec_lgdt_of_loadTable read room⟩,
        fun room => ⟨false, exec_lidt_of_loadTable read room⟩⟩

/-- Settles O36: after its checks MOV r32, CR0 copies CR0 whole and draws the status flags. -/
theorem movFromCr0 : Obligations.MovFromCr0 := by
  unfold Obligations.MovFromCr0
  refine fun p cr r s => ⟨fun d mod rest => decode_movFromCr d p mod cr r rest,
    fun locked => settle_bind_invalidOpcode (checkCr_locked locked s cr) s _,
    fun unlocked h => settle_bind_error (checkCr_unprivileged unlocked h cr) s _,
    fun unlocked h other => settle_bind_error (checkCr_otherRegister unlocked h other) s _,
    fun unlocked h cr0 room => ?run⟩
  obtain rfl := cr0
  have run : exec (.movR32Cr0 p 0 r) s = _ :=
    settle_next.2 (.inl (bind_ok.2 ⟨(), checkCr_cr0 unlocked h, advance_room room rfl⟩))
  exact ⟨_, _, false, run, otherFlagsSame_putInto _ _⟩

/-- Settles O37: after its checks MOV CR0, r32 copies the register whole and draws the status flags. -/
theorem movToCr0 : Obligations.MovToCr0 := by
  unfold Obligations.MovToCr0
  refine fun p cr r s => ⟨fun d mod rest => decode_movToCr d p mod cr r rest,
    fun locked => settle_bind_invalidOpcode (checkCr_locked locked s cr) s _,
    fun unlocked h => settle_bind_error (checkCr_unprivileged unlocked h cr) s _,
    fun unlocked h other => settle_bind_error (checkCr_otherRegister unlocked h other) s _,
    fun unlocked h cr0 paging => ?paging, fun unlocked h cr0 noPaging room => ?run⟩
  case paging =>
    obtain rfl := cr0
    rw [exec, execMovCr0R32, checkCr_cr0 unlocked h, bind_ok_left, paging]
    rfl
  case run =>
    obtain rfl := cr0
    have allowed : require (!(s.x r).getLsbD 31) (.refuse .paging) = .ok () := by rw [noPaging]; rfl
    have run : exec (.movCr0R32 p 0 r) s = _ :=
      settle_next.2 (.inl (bind_ok.2 ⟨(), checkCr_cr0 unlocked h, bind_ok.2 ⟨(), allowed, advance_room room rfl⟩⟩))
    exact ⟨_, _, false, run, otherFlagsSame_putInto _ _⟩

/-- Settles O38: the write touches CR0, the status flags and EIP, and VM is none of these. -/
theorem peTransitionKeepsSegments : Obligations.PeTransitionKeepsSegments := by
  unfold Obligations.PeTransitionKeepsSegments
  intro p r s t _ vm run completed changed
  have keptVm : t.vm = false := by
    obtain ⟨e, c, -, rfl⟩ | keeps := exec_keeps run
    · exact vm
    · exact keeps.vm.trans vm
  obtain ⟨toProt, toReal⟩ := mode_changes_of_pe_ne vm keptVm changed
  obtain ⟨e, c, -, rfl⟩ | ⟨-, -, moved⟩ := execMovCr0R32_next run
  · cases completed
  · obtain ⟨-, rfl⟩ := advance_ok.1 moved
    exact ⟨toProt, toReal, rfl, rfl, rfl, rfl, rfl, rfl, BitVec.add_zero _, rfl⟩

end Machine
end Sys2Proof

/-! The decoder and the encoder over whole instructions (R70 to R95): they invert each other, what is decoded has its
length, prefixes have no order, and what is refused. -/

namespace Sys2Proof

/-! ## Decoding what the encoder writes -/

/-- The decoder reads back an instruction whose body begins with no byte of the prefixes, where its opcode and its row
read it. -/
theorem decode_encode_of_row {d : Bool} {i : Instr} {b : Byte} {tail operands rest : List Byte} {op : Opcode}
    (body : i.encodeBody ++ rest = b :: tail) (noPrefix : Mark.ofByte b = none)
    (opcode : takeOpcode (b :: tail) = .ok op operands)
    (row : takeRow (operandSize d i.prefixes.opsize) (addressSize d i.prefixes.adsize) i.prefixes op operands =
      .ok i rest) :
    decode d (encode i ++ rest) = .ok i rest := by
  rw [encode, List.append_assoc, body, decode_prefixes_encode d _ tail noPrefix, opcode, Parse.bind_ok, row]

/-- The opcode byte of ADD with an immediate of the operand's size holds s = 0 and w (R111). -/
theorem takeOpcode_addSame (v : Imm) (bs : List Byte) :
    takeOpcode ((AddImm.same v).opcode :: bs) = .ok (.addGroup false v.w) bs := by
  rw [AddImm.opcode]
  cases v.w <;> rfl

/-- The opcode byte of ADD with a sign-extended byte holds s = 1 and w = 1 (R82, R111). -/
theorem takeOpcode_addSext (v : BitVec 8) (bs : List Byte) :
    takeOpcode ((AddImm.sext v).opcode :: bs) = .ok (.addGroup true true) bs := by
  rw [AddImm.opcode]
  rfl

/-- The decoder reads back an ADD, whose opcode byte holds s and w (R111). -/
theorem decode_encode_add (d : Bool) (p : Prefixes) (dst : RM) (src : AddImm) (rest : List Byte)
    (hdst : dst.wf (addressSize d p.adsize) = true) (hsrc : src.wf (operandSize d p.opsize) = true) :
    decode d (encode (.add p dst src) ++ rest) = .ok (.add p dst src) rest := by
  have body : (Instr.add p dst src).encodeBody ++ rest = src.opcode :: (dst.encode 0 ++ (src.encode ++ rest)) := by
    simp [Instr.encodeBody]
  have operand : takeRM (addressSize d p.adsize) (· == 0) (dst.encode 0 ++ (src.encode ++ rest)) =
      .ok (0, dst) (src.encode ++ rest) := takeRM_encode _ rfl hdst
  cases src with
  | same v =>
    have noPrefix : Mark.ofByte (AddImm.same v).opcode = none := by cases v <;> rfl
    refine decode_encode_of_row body noPrefix (takeOpcode_addSame v _) ?_
    rw [takeRow, if_neg (by simp), Instr.prefixes, operand, Parse.bind_ok, if_neg (by simp)]
    rw [AddImm.encode, takeImm_encode rest hsrc, Parse.map_ok]
  | sext v =>
    refine decode_encode_of_row body rfl (takeOpcode_addSext v _) ?_
    rw [takeRow, if_neg (by simp), Instr.prefixes, operand]
    rfl

/-- The decoder reads back a MOV Sreg, r/m16, with the segment code in the reg field (R121). -/
theorem decode_encode_movSregRm16 (d : Bool) (p : Prefixes) (code : BitVec 3) (src : RM) (rest : List Byte)
    (h : src.wf (addressSize d p.adsize) = true) :
    decode d (encode (.movSregRm16 p code src) ++ rest) = .ok (.movSregRm16 p code src) rest :=
  decode_encode_of_row (op := .movSregRm16) (List.cons_append ..) rfl rfl <| by
    rw [takeRow, Instr.prefixes, takeRM_encode rest rfl h, Parse.map_ok]

namespace Machine

/-- Settles O1: each row of the opcode table reads its own fields back. -/
theorem decodeInvertsEncode : Obligations.DecodeInvertsEncode := by
  unfold Obligations.DecodeInvertsEncode
  intro d i rest wf
  cases i with
  | cmc p => exact decode_encode_of_row (op := .cmc) rfl rfl rfl rfl
  | add p dst src =>
    obtain ⟨hdst, hsrc⟩ := Bool.and_eq_true_iff.1 wf
    exact decode_encode_add d p dst src rest hdst hsrc
  | or p src => exact decode_encode_or d p src rest wf
  | movRegImm p r src => exact decode_encode_movRegImm d p r src rest wf
  | movSregRm16 p code src => exact decode_encode_movSregRm16 d p code src rest wf
  | pushFs p => exact decode_encode_of_row (op := .pushFs) rfl rfl rfl rfl
  | jmpRel8 p rel => exact decode_encode_of_row (op := .jmpRel8) rfl rfl rfl rfl
  | jccRel1632 p c rel => exact decode_encode_jccRel1632 d p c rel rest wf
  | jccRel8 p c rel =>
    rw [encode, List.append_assoc]
    exact decode_jccRel8 d p c rel rest
  | setcc p c dst =>
    rw [encode, List.append_assoc]
    exact decode_setcc d p c 0 dst rest wf
  | nop p => exact decode_encode_of_row (op := .nop) rfl rfl rfl rfl
  | lgdt p src => exact decode_group0F01 d p (.inl rfl) src rest wf
  | lidt p src => exact decode_group0F01 d p (.inr rfl) src rest wf
  | movR32Cr0 p cr r =>
    rw [encode, List.append_assoc]
    exact decode_movFromCr d p 3 cr r rest
  | movCr0R32 p cr r =>
    rw [encode, List.append_assoc]
    exact decode_movToCr d p 3 cr r rest

end Machine

/-! ## The length of what is decoded -/

theorem Prefixes.length_le (p : Prefixes) : p.length ≤ 4 := by
  have := p.lock.toNat_le
  have := p.seg.isSome.toNat_le
  have := p.opsize.toNat_le
  have := p.adsize.toNat_le
  rw [Prefixes.length]
  omega

theorem Disp16.length_le (v : Disp16) : v.length ≤ 2 := by cases v <;> simp [Disp16.length]

theorem Disp32.length_le (v : Disp32) : v.length ≤ 4 := by cases v <;> simp [Disp32.length]

/-- A mod r/m byte, a sib byte and a displacement of four bytes are the longest operand (R95). -/
theorem RM.length_le (x : RM) : x.length ≤ 6 := by
  obtain r | m := x
  · simp [RM.length]
  · cases m with
    | base16 b v => have := v.length_le; rw [RM.length]; omega
    | base32 r v | sib sc ix b v => have := v.length_le; rw [RM.length]; omega
    | abs16 v | abs32 v | sibNoBase sc ix v => simp [RM.length]

theorem Imm.length_le (v : Imm) : v.length ≤ 4 := by cases v <;> simp [Imm.length]

theorem AddImm.length_le (v : AddImm) : v.length ≤ 4 := by
  cases v with
  | same v => exact v.length_le
  | sext v => simp [AddImm.length]

theorem Rel.length_le (v : Rel) : v.length ≤ 4 := by cases v <;> simp [Rel.length]

/-- ADD of an immediate to memory is the longest instruction after its prefixes. -/
theorem Instr.bodyLength_le (i : Instr) : i.bodyLength ≤ 11 := by
  cases i with
  | add p dst src => have := dst.length_le; have := src.length_le; rw [Instr.bodyLength]; omega
  | or p v | movRegImm p r v => have := v.length_le; rw [Instr.bodyLength]; omega
  | jccRel1632 p c v => have := v.length_le; rw [Instr.bodyLength]; omega
  | movSregRm16 p k x | setcc p c x | lgdt p x | lidt p x => have := x.length_le; rw [Instr.bodyLength]; omega
  | _ => simp [Instr.bodyLength]

/-- No instruction is longer than the limit of R95 (D18). -/
theorem Instr.length_le (i : Instr) : i.length ≤ 15 :=
  Nat.add_le_add i.prefixes.length_le i.bodyLength_le

/-- The bytes a decoded instruction was read from are as many as its length says (R95). -/
theorem decode_reads_length {d : Bool} {bs rest : List Byte} {i : Instr} (h : decode d bs = .ok i rest) :
    ∃ pre, bs = pre ++ rest ∧ pre.length = i.length := by
  obtain ⟨m, r1, scanned, h⟩ := Parse.bind_eq_ok.1 h
  obtain ⟨op, r2, opcode, row⟩ := Parse.bind_eq_ok.1 h
  obtain ⟨marks, b, r, rfl, hr1, -, marksLength, -⟩ := scanMarks_reads scanned
  obtain ⟨opBytes, hr2, opLength, -⟩ := takeOpcode_reads _ _ _ opcode
  cases rep : m.rep with
  | true => rw [rep, if_pos rfl] at row; cases row
  | false =>
    rw [rep, if_neg (by decide)] at row
    obtain ⟨operands, rfl, ⟨prefixes, -, bodyLength⟩, -⟩ := takeRow_reads (operandSize_ne _ _) _ _ _ _ _ _ row
    refine ⟨marks ++ opBytes ++ operands, by rw [← hr1, hr2]; simp, ?_⟩
    have none : (({} : Marks).p.length + ({} : Marks).rep.toNat) = 0 := rfl
    rw [rep, none, Bool.toNat_false] at marksLength
    rw [Instr.length, prefixes, ← bodyLength, ← opLength, List.length_append, List.length_append]
    omega

namespace Machine

/-- Settles O2: each parser reads as many bytes as it says, and no field of an instruction is longer than R95 allows. -/
theorem decodedInstructionIsWellFormed : Obligations.DecodedInstructionIsWellFormed := by
  unfold Obligations.DecodedInstructionIsWellFormed
  exact fun d bs i rest h => ⟨wfIn_of_decode h, decode_reads_length h, i.length_le⟩

end Machine

/-! ## Prefixes in any order -/

open Machine in
/-- The bytes the decoder takes for prefixes are those of R72's table. -/
theorem Mark.ofByte_isSome_iff (b : Byte) : (Mark.ofByte b).isSome = true ↔ b ∈ prefixBytes := by
  revert b; decide

open Machine in
theorem Mark.ofByte_of_mem {b : Byte} (h : b ∈ prefixBytes) : ∃ k, Mark.ofByte b = some k :=
  Option.isSome_iff_exists.1 ((Mark.ofByte_isSome_iff b).2 h)

/-- A byte of a kind of prefixes is recorded, or refused where its kind was there already (D9). -/
theorem scanMarks_mark {b : Byte} {k : Mark} (h : Mark.ofByte b = some k) (m : Marks) (bs : List Byte) :
    scanMarks m (b :: bs) = (m.add k).elim (.reject .doubledMark) (scanMarks · bs) := by
  cases hm : m.add k with
  | none => exact scanMarks_doubled bs h hm
  | some m' => exact scanMarks_cons bs h hm

/-- Two prefixes are recorded alike in either order, and refused alike where they are of one kind (D9). -/
theorem Marks.add_comm (m : Marks) (k k' : Mark) :
    (m.add k).bind (Marks.add · k') = (m.add k').bind (Marks.add · k) := by
  obtain ⟨⟨o, a, l, g⟩, r⟩ := m
  cases k <;> cases k' <;> cases o <;> cases a <;> cases l <;> cases r <;> cases g <;> rfl

/-- Two neighbours among the prefixes are read alike in either order. -/
theorem scanMarks_swap {b b' : Byte} {k k' : Mark} (h : Mark.ofByte b = some k) (h' : Mark.ofByte b' = some k')
    (m : Marks) (bs : List Byte) : scanMarks m (b :: b' :: bs) = scanMarks m (b' :: b :: bs) := by
  have both {b b' : Byte} {k k' : Mark} (h : Mark.ofByte b = some k) (h' : Mark.ofByte b' = some k') :
      scanMarks m (b :: b' :: bs) =
        ((m.add k).bind (Marks.add · k')).elim (.reject .doubledMark) (scanMarks · bs) := by
    rw [scanMarks_mark h]
    cases m.add k with
    | none => rfl
    | some m' => exact scanMarks_mark h' m' bs
  rw [both h h', both h' h, Marks.add_comm]

open Machine in
/-- Prefixes are read alike in any order. -/
theorem scanMarks_perm {pre pre' : List Byte} (perm : pre.Perm pre') (marks : ∀ b ∈ pre, b ∈ prefixBytes) (m : Marks)
    (rest : List Byte) : scanMarks m (pre ++ rest) = scanMarks m (pre' ++ rest) := by
  induction perm generalizing m with
  | nil => rfl
  | cons b _ ih =>
    obtain ⟨hb, tail⟩ := List.forall_mem_cons.1 marks
    obtain ⟨k, hk⟩ := Mark.ofByte_of_mem hb
    rw [List.cons_append, List.cons_append, scanMarks_mark hk, scanMarks_mark hk]
    exact congrArg _ (funext (ih tail))
  | swap b b' bs =>
    obtain ⟨hb', hb, -⟩ := List.forall_mem_cons.1 marks |>.imp_right List.forall_mem_cons.1
    obtain ⟨k, hk⟩ := Mark.ofByte_of_mem hb
    obtain ⟨k', hk'⟩ := Mark.ofByte_of_mem hb'
    exact scanMarks_swap hk' hk m (bs ++ rest)
  | trans first _ ih ih' => rw [ih marks, ih' fun b hb => marks b (first.mem_iff.2 hb)]

/-! ## Prefixes that are refused -/

open Machine in
/-- Two prefixes of one kind, at the head of the bytes. -/
theorem scanMarks_sameKind {kind : List Byte} {x y : Byte} (hkind : kind ∈ prefixKinds) (hx : x ∈ kind)
    (hy : y ∈ kind) (bs : List Byte) : scanMarks {} (x :: y :: bs) = .reject .doubledMark := by
  have pairs : ∀ kind ∈ prefixKinds, ∀ x ∈ kind, ∀ y ∈ kind, scanMarks {} [x, y] = .reject .doubledMark := by decide
  exact scanMarks_stable {} [x, y] bs _ (pairs kind hkind x hx y hy)

/-- A repeat byte (F2h, F3h) that was recorded stays recorded. -/
theorem Marks.add_rep {m m' : Marks} {k : Mark} (h : m.add k = some m') (rep : m.rep = true) : m'.rep = true := by
  cases k <;> simp only [Marks.add] at h <;> split at h <;> cases h <;> exact rep

/-- What is recorded without a repeat byte is recorded alike after one. -/
theorem Marks.add_after_rep {m m' : Marks} {k : Mark} (h : m.add k = some m') (rep : m'.rep = false) :
    ({ m with rep := true } : Marks).add k = some { m' with rep := true } := by
  cases k <;> simp only [Marks.add] at h ⊢ <;> split at h <;> cases h <;> simp_all

theorem scanMarks_rep {m m' : Marks} {bs rest : List Byte} (h : scanMarks m bs = .ok m' rest) (rep : m.rep = true) :
    m'.rep = true := by
  induction bs generalizing m with
  | nil => cases h
  | cons b bs ih =>
    cases hb : Mark.ofByte b with
    | none => rw [scanMarks_stop m bs hb] at h; cases h; exact rep
    | some k =>
      rw [scanMarks_mark hb] at h
      cases hm : m.add k with
      | none => rw [hm] at h; cases h
      | some m1 => rw [hm] at h; exact ih h (Marks.add_rep hm rep)

/-- Prefixes without a repeat byte among them are read alike after one. -/
theorem scanMarks_after_rep {m m' : Marks} {bs rest : List Byte} (h : scanMarks m bs = .ok m' rest)
    (rep : m'.rep = false) : scanMarks { m with rep := true } bs = .ok { m' with rep := true } rest := by
  induction bs generalizing m with
  | nil => cases h
  | cons b bs ih =>
    cases hb : Mark.ofByte b with
    | none => rw [scanMarks_stop m bs hb] at h; cases h; exact scanMarks_stop _ bs hb
    | some k =>
      rw [scanMarks_mark hb] at h ⊢
      cases hm : m.add k with
      | none => rw [hm] at h; cases h
      | some m1 =>
        rw [hm] at h
        have rep1 : m1.rep = false := by
          by_contra recorded
          simp [scanMarks_rep h (by simpa using recorded)] at rep
        rw [Marks.add_after_rep hm rep1]
        exact ih h

namespace Machine

/-- Settles O3: each kind is recorded in a place of its own, so neighbours may change places. -/
theorem prefixOrderHasNoMeaning : Obligations.PrefixOrderHasNoMeaning := by
  unfold Obligations.PrefixOrderHasNoMeaning
  intro d pre pre' rest marks perm
  rw [decode, decode, scanMarks_perm perm marks]

/-- Settles O4: the two prefixes may stand first, where the second is refused. -/
theorem doubledPrefixRefused : Obligations.DoubledPrefixRefused := by
  unfold Obligations.DoubledPrefixRefused
  intro d before between rest kind x y hkind hx hy others
  have ofKind : ∀ b ∈ kind, b ∈ prefixBytes := fun b hb => List.mem_flatten.2 ⟨kind, hkind, hb⟩
  have marks : ∀ b ∈ x :: y :: (before ++ between), b ∈ prefixBytes :=
    List.forall_mem_cons.2 ⟨ofKind x hx, List.forall_mem_cons.2 ⟨ofKind y hy, others⟩⟩
  have perm : (x :: y :: (before ++ between)).Perm (before ++ x :: between ++ [y]) := by
    rw [List.append_assoc, List.cons_append]
    refine .trans (.cons x ?_) List.perm_middle.symm
    rw [← List.append_assoc]
    exact List.perm_append_comm (l₁ := [y])
  have bytes : before ++ x :: between ++ y :: rest = (before ++ x :: between ++ [y]) ++ rest := by simp
  rw [bytes, decode, ← scanMarks_perm perm marks, List.cons_append, List.cons_append,
    scanMarks_sameKind hkind hx hy, Parse.bind_reject]

/-- Settles O5: the bytes after the repeat byte are read as before, up to the opcode's row. -/
theorem repeatPrefixRefused : Obligations.RepeatPrefixRefused := by
  unfold Obligations.RepeatPrefixRefused
  intro d b bs i rest hb h
  obtain ⟨m, r1, scanned, h⟩ := Parse.bind_eq_ok.1 h
  obtain ⟨op, r2, opcode, row⟩ := Parse.bind_eq_ok.1 h
  have noRep : m.rep = false := by
    by_contra rep
    rw [if_pos (by simpa using rep)] at row
    cases row
  have mark : Mark.ofByte b = some .rep := by obtain rfl | rfl := hb <;> rfl
  rw [decode, scanMarks_cons (m' := { rep := true }) bs mark rfl, scanMarks_after_rep scanned noRep, Parse.bind_ok,
    opcode, Parse.bind_ok, if_pos rfl]

end Machine

/-! ## Bytes of no row -/

section
open Machine
variable {pre : List Byte} (once : PrefixesOnce pre) {b : Byte} (noPrefix : Mark.ofByte b = none) {rest : List Byte}
include once noPrefix

/-- An opcode of no row is refused after any prefixes (R6, U15). -/
theorem decode_noOpcode {r : Reject} (opcode : takeOpcode (b :: rest) = .reject r) (d : Bool) :
    decode d (pre ++ b :: rest) = .reject r := by
  obtain ⟨p, scanned⟩ := scanMarks_once once noPrefix rest
  rw [decode, scanned, Parse.bind_ok, opcode, Parse.bind_reject]

/-- What the row of an opcode refuses is refused after any prefixes, by the repeat byte's name where one is among them
(log 24). -/
theorem decode_refusedRow {op : Opcode} {operands : List Byte} {r : Reject}
    (opcode : takeOpcode (b :: rest) = .ok op operands) (row : ∀ o a p, takeRow o a p op operands = .reject r)
    (d : Bool) :
    decode d (pre ++ b :: rest) = .reject (if 0xF3 ∈ pre ∨ 0xF2 ∈ pre then .repeatMark else r) := by
  obtain ⟨p, scanned⟩ := scanMarks_once once noPrefix rest
  rw [decode, scanned, Parse.bind_ok, opcode, Parse.bind_ok, row]
  simp only [decide_eq_true_eq]
  split <;> rfl

end

/-- A byte that is not the match of any one-byte row (R100). -/
theorem Opcode.ofByte_eq_none {b : Byte} (add : b &&& 0xFC ≠ 0x80) (or : b &&& 0xFE ≠ 0x0C) (mov : b &&& 0xF0 ≠ 0xB0)
    (jcc : b &&& 0xF0 ≠ 0x70) (others : b ∉ [0xF5, 0x8E, 0xEB, 0x90]) : Opcode.ofByte b = none := by
  simp only [List.mem_cons, List.not_mem_nil, or_false, not_or] at others
  obtain ⟨cmc, movSreg, jmp, nop⟩ := others
  rw [Opcode.ofByte, if_neg cmc, if_neg add, if_neg or, if_neg mov, if_neg movSreg, if_neg jmp, if_neg jcc, if_neg nop]

/-- A byte that is not the match of any row after 0Fh (R100). -/
theorem Opcode.ofByte0F_eq_none {b : Byte} (jcc : b &&& 0xF0 ≠ 0x80) (setcc : b &&& 0xF0 ≠ 0x90)
    (others : b ∉ [0xA0, 0x01, 0x20, 0x22]) : Opcode.ofByte0F b = none := by
  simp only [List.mem_cons, List.not_mem_nil, or_false, not_or] at others
  obtain ⟨pushFs, group, fromCr, toCr⟩ := others
  rw [Opcode.ofByte0F, if_neg pushFs, if_neg jcc, if_neg setcc, if_neg group, if_neg fromCr, if_neg toCr]

/-- A reg field that selects no row is refused at the mod r/m byte (R95, U14). -/
theorem takeRM_noRow (a : AddrSize) {sel : BitVec 3 → Bool} {reg : BitVec 3} (h : sel reg = false) (hi : BitVec 2)
    (lo : BitVec 3) (rest : List Byte) : takeRM a sel (packFields hi reg lo :: rest) = .reject .noRow := by
  rw [takeRM, take8_cons, Parse.bind_ok, fieldMid_packFields, h, if_neg (by decide)]

namespace Machine

/-- Settles O6: the opcode tables have no entry for the first two kinds of bytes, and the rows of the others refuse
them. -/
theorem bytesWithoutRowRefused : Obligations.BytesWithoutRowRefused := by
  unfold Obligations.BytesWithoutRowRefused
  intro d pre b rest once orRepeat
  refine ⟨fun noPrefix not0F add or mov jcc others => ?oneByte, fun jcc setcc others => ?twoBytes, ?opcode82,
    fun hi reg lo hb hreg => ?addGroup, fun hi reg lo h2 h3 => ?group0F01⟩
  case oneByte =>
    have noMark : Mark.ofByte b = none :=
      Option.not_isSome_iff_eq_none.1 (mt (Mark.ofByte_isSome_iff b).1 noPrefix)
    exact decode_noOpcode once noMark
      (by rw [takeOpcode, take8_cons, Parse.bind_ok, if_neg not0F, Opcode.ofByte_eq_none add or mov jcc others]) d
  case twoBytes =>
    exact decode_noOpcode once rfl (by
      rw [takeOpcode, take8_cons, Parse.bind_ok, if_pos rfl, take8_cons, Parse.bind_ok,
        Opcode.ofByte0F_eq_none jcc setcc others]) d
  case opcode82 => exact decode_refusedRow once rfl (op := .addGroup true false) rfl (fun _ _ _ => rfl) d
  case addGroup =>
    have row (s w : Bool) (hw : ¬ (s = true ∧ ¬ w = true)) (o : Size) (a : AddrSize) (p : Prefixes) :
        takeRow o a p (.addGroup s w) (packFields hi reg lo :: rest) = .reject .noRow := by
      rw [takeRow, if_neg hw, takeRM_noRow a (sel := (· == 0)) (beq_eq_false_iff_ne.2 hreg), Parse.bind_reject]
    obtain rfl | rfl | rfl := hb
    · exact decode_refusedRow once rfl (op := .addGroup false false) rfl (row _ _ (by decide)) d
    · exact decode_refusedRow once rfl (op := .addGroup false true) rfl (row _ _ (by decide)) d
    · exact decode_refusedRow once rfl (op := .addGroup true true) rfl (row _ _ (by decide)) d
  case group0F01 =>
    have row (o : Size) (a : AddrSize) (p : Prefixes) :
        takeRow o a p .group0F01 (packFields hi reg lo :: rest) = .reject .noRow := by
      rw [takeRow, takeRM_noRow a (Bool.or_eq_false_iff.2 ⟨beq_eq_false_iff_ne.2 h2, beq_eq_false_iff_ne.2 h3⟩)]
      rfl
    exact decode_refusedRow once rfl (takeOpcode_0F rfl _) row d

end Machine
end Sys2Proof

/-! Memory (R40 to R64): what is read back after a write, the canonical form, and the accesses that stop. -/

namespace Sys2Proof.Machine

/-! ## Reading back -/

/-- Memory that holds a value holds each of its bytes at that byte's address (R40). -/
theorem State.holds.byte {s : State} {a : Word} {n k : Nat} {v : BitVec (8 * n)} (h : s.holds a n v) (hk : k < n) :
    s.holds (a + BitVec.ofNat 32 k) 1 (v.extractLsb' (8 * k) 8) := by
  refine ⟨fun b hb => ?_, ?_⟩
  · obtain rfl : b = (a + BitVec.ofNat 32 k).toNat := by simpa [accessAddrs] using hb
    exact h.1 _ (List.mem_map.2 ⟨k, List.mem_range.2 hk, rfl⟩)
  · rw [← h.read_byte hk]
    simp [Memory.readLe]

/-- Settles O13: memory holds the value written, and so its half and its bytes; a write touches its own bytes alone. -/
theorem mixedWidthAccess : Obligations.MixedWidthAccess := by
  unfold Obligations.MixedWidthAccess
  intro s t a v canonical written
  obtain ⟨storable, rfl⟩ := memWrite_ok.1 written
  have whole : (s.setMem (s.mem.writeLe a 4 v.toNat)).holds a 4 v :=
    holds_writeLe canonical (fun b hb => (storable b hb).1) (by decide) rfl rfl
  have half : v.setWidth (8 * 2) = v.extractLsb' 0 16 := BitVec.setWidth_eq_extractLsb' (by decide)
  exact ⟨memRead_holds whole, half ▸ memRead_holds (whole.low (by decide)), fun k hk => memRead_holds (whole.byte hk),
    fun b outside => Memory.read_writeLe_of_notMem canonical _ _ _ outside⟩

/-! ## The canonical form -/

/-- The first cell of a canonical memory that reads like another is the other's first cell. -/
theorem Memory.head_eq {lo : Nat} {c c' : Host.Cell} {m m' : Memory} (h : Memory.wfFrom lo (c :: m) = true)
    (h' : Memory.wfFrom lo (c' :: m') = true) (same : ∀ a, Memory.read (c :: m) a = Memory.read (c' :: m') a) :
    c = c' := by
  have notBelow {c c' : Host.Cell} {m m' : Memory} (h : Memory.wfFrom lo (c :: m) = true)
      (h' : Memory.wfFrom lo (c' :: m') = true) (same : ∀ a, Memory.read (c :: m) a = Memory.read (c' :: m') a) :
      ¬ c.1 < c'.1 := by
    intro below
    obtain ⟨-, -, listed, -⟩ := Memory.wfFrom_cons.1 h
    obtain ⟨-, -, -, rest⟩ := Memory.wfFrom_cons.1 h'
    have at_c := same c.1
    rw [Memory.read, if_pos rfl, Memory.read, if_neg (by omega), Memory.read_below rest (by omega)] at at_c
    exact listed at_c
  have address : c.1 = c'.1 :=
    le_antisymm (not_lt.1 (notBelow h' h fun a => (same a).symm)) (not_lt.1 (notBelow h h' same))
  have byte := same c.1
  rw [Memory.read, if_pos rfl, Memory.read, if_pos address.symm] at byte
  exact Prod.ext address byte

/-- A canonical memory with a cell does not read like the empty one. -/
theorem Memory.read_cons_ne_nil {lo : Nat} {c : Host.Cell} {m : Memory} (h : Memory.wfFrom lo (c :: m) = true) :
    Memory.read (c :: m) c.1 ≠ Memory.read [] c.1 := by
  obtain ⟨-, -, listed, -⟩ := Memory.wfFrom_cons.1 h
  have first : Memory.read (c :: m) c.1 = c.2 := if_pos rfl
  exact first ▸ listed

/-- Two canonical memories that read alike are equal. -/
theorem Memory.eq_of_read_eq {lo : Nat} {m m' : Memory} (h : m.wfFrom lo = true) (h' : m'.wfFrom lo = true)
    (same : ∀ a, m.read a = m'.read a) : m = m' := by
  induction m generalizing lo m' with
  | nil =>
    cases m' with
    | nil => rfl
    | cons c' m' => exact absurd (same c'.1).symm (Memory.read_cons_ne_nil h')
  | cons c m ih =>
    cases m' with
    | nil => exact absurd (same c.1) (Memory.read_cons_ne_nil h)
    | cons c' m' =>
      obtain rfl := Memory.head_eq h h' same
      obtain ⟨-, -, -, rest⟩ := Memory.wfFrom_cons.1 h
      obtain ⟨-, -, -, rest'⟩ := Memory.wfFrom_cons.1 h'
      refine congrArg _ (ih rest rest' fun a => ?_)
      by_cases ha : c.1 = a
      · rw [Memory.read_below rest (by omega), Memory.read_below rest' (by omega)]
      · have tails := same a
        rwa [Memory.read, if_neg ha, Memory.read, if_neg ha] at tails

/-- Settles O14: the first cell has the lowest address that does not read as an unlisted one, and so on along the
list. -/
theorem equalMemoriesAreEqualData : Obligations.EqualMemoriesAreEqualData := by
  unfold Obligations.EqualMemoriesAreEqualData
  exact fun m m' h h' same => Memory.eq_of_read_eq h h' same

/-! ## Accesses that stop -/

/-- The fault of a failed check is an exception with error code 0 (R48, R151). -/
theorem accessFault_eq (k : SReg) :
    accessFault k = .exn (if k = .ss then .stackFault else .generalProtection) (some 0) := by
  cases k <;> rfl

/-- Settles O15: the check is the first part of a segmented access, the memory access its second. -/
theorem accessesAreChecked : Obligations.AccessesAreChecked := by
  unfold Obligations.AccessesAreChecked
  intro s k off n v
  rw [← accessFault_eq]
  refine ⟨fun reaches => ?_, fun reaches => ?_, segRead_misses, fun misses => segWrite_misses misses v,
    fun down => ⟨?_, ?_⟩⟩
  · rw [State.segRead, checkAccess_of_reaches reaches, bind_ok_left]
  · rw [State.segWrite, checkAccess_of_reaches reaches, bind_ok_left]
  · rw [State.segRead, checkAccess_refusesDown down, bind_error_left]
  · rw [State.segWrite, checkAccess_refusesDown down, bind_error_left]

/-- An access outside MEM_MAP stops at one of its own bytes (D26). -/
theorem checkPopulated_of_not_backed {s : State} {a : Word} {n : Nat} (h : ¬ s.backed a n) :
    ∃ b ∈ accessAddrs a n, s.checkPopulated a n = .error (.fault (.unpopulated b)) := by
  cases found : (accessAddrs a n).find? fun b => !s.populated b with
  | none => exact absurd (fun b hb => by simpa using List.find?_eq_none.1 found b hb) h
  | some b => exact ⟨b, List.mem_of_find?_eq_some found, by rw [State.checkPopulated, found]⟩

/-- A store into the program text stops at one of its own bytes (D13). -/
theorem checkText_of_isText {s : State} {a : Word} {n : Nat} (h : ∃ b ∈ accessAddrs a n, s.isText b = true) :
    ∃ b ∈ accessAddrs a n, s.checkText a n = .error (.refuse (.storeToText b)) := by
  cases found : (accessAddrs a n).find? fun b => s.isText b with
  | none =>
    obtain ⟨b, hb, text⟩ := h
    exact absurd text (List.find?_eq_none.1 found b hb)
  | some b => exact ⟨b, List.mem_of_find?_eq_some found, by rw [State.checkText, found]⟩

/-- Settles O53: a read makes the check of MEM_MAP, a store that check and then the check of the program text. -/
theorem memoryAccessStops : Obligations.MemoryAccessStops := by
  unfold Obligations.MemoryAccessStops
  intro s a n v
  refine ⟨fun outside => ?_, fun backed text => ?_⟩
  · obtain ⟨b, hb, stop⟩ := checkPopulated_of_not_backed outside
    exact ⟨⟨b, hb, by rw [State.memRead, stop, bind_error_left]⟩,
      ⟨b, hb, by rw [State.memWrite, stop, bind_error_left]⟩⟩
  · obtain ⟨b, hb, stop⟩ := checkText_of_isText text
    exact ⟨b, hb, by rw [State.memWrite, checkPopulated_ok (u := ()).2 backed, bind_ok_left, stop, bind_error_left]⟩

end Sys2Proof.Machine

/-! What every instruction leaves unchanged (R17, R110 to R143, R150, R157, R162, R163): the system state, the general
registers, the flags and memory; how EIP moves; and that exceptions are precise. -/

namespace Sys2Proof.Machine

/-! ## Exceptions -/

/-- Settles O48: what raises takes the exception in the state it began in, and what completes keeps the fault state. -/
theorem exceptionsArePrecise : Obligations.ExceptionsArePrecise := by
  unfold Obligations.ExceptionsArePrecise
  intro i s t running h raised
  obtain ⟨e, c, raisable, rfl⟩ | keeps := exec_keeps h
  · exact ⟨e, c, h, raisable.imp_right fun ⟨named, code⟩ => ⟨named, Option.isSome_iff_ne_none.1 code⟩⟩
  · exact absurd (keeps.exn.trans running) raised

/-- Settles O40: the check of R163 comes before the operand is read and before CR0 is. -/
theorem privilegedInstructionsRaise : Obligations.PrivilegedInstructionsRaise := by
  unfold Obligations.PrivilegedInstructionsRaise
  intro p m cr r s i unlocked pe outside hi
  have notPrivileged : ¬ s.mayRunPrivileged := by
    rintro (real | ⟨vm, cpl⟩)
    · exact Bool.eq_false_iff.1 real pe
    · exact outside.elim (· cpl) (Bool.eq_false_iff.1 vm)
  simp only [List.mem_cons, List.not_mem_nil, or_false] at hi
  obtain rfl | rfl | rfl | rfl := hi
  · exact settle_bind_error (loadTable_unprivileged unlocked notPrivileged) s _
  · exact settle_bind_error (loadTable_unprivileged unlocked notPrivileged) s _
  · exact settle_bind_error (checkCr_unprivileged unlocked notPrivileged cr) s _
  · exact settle_bind_error (checkCr_unprivileged unlocked notPrivileged cr) s _

/-! ## CR0, GDTR and IDTR -/

/-- LGDT and LIDT load a table only where they may run (R163). -/
theorem mayRunPrivileged_of_loadTable {s : State} {p : Prefixes} {x : RM} {v : TableReg}
    (h : s.loadTable p x = .ok v) : s.mayRunPrivileged := by
  cases x with
  | reg r => rw [loadTable_reg] at h; cases h
  | mem m =>
    obtain ⟨⟨⟩, -, h⟩ := bind_ok.1 h
    obtain ⟨⟨⟩, allowed, -⟩ := bind_ok.1 h
    exact privileged_iff.1 allowed

theorem mayRunPrivileged_of_checkCr {s : State} {p : Prefixes} {cr : BitVec 3} (h : s.checkCr p cr = .ok ()) :
    s.mayRunPrivileged := by
  obtain ⟨-, allowed, -⟩ := checkCr_ok.1 h
  exact allowed.imp_right And.symm

/-- Where the writers of CR0, GDTR and IDTR may run, each changes its own register, and none turns paging on. -/
inductive WritesControl (s t : State) : Instr → Prop
  | lgdt (p : Prefixes) (x : RM) (cr0 : t.cr0 = s.cr0) (idtr : t.idtr = s.idtr) : WritesControl s t (.lgdt p x)
  | lidt (p : Prefixes) (x : RM) (cr0 : t.cr0 = s.cr0) (gdtr : t.gdtr = s.gdtr) : WritesControl s t (.lidt p x)
  | movCr0R32 (p : Prefixes) (cr : BitVec 3) (r : Reg) (pg : t.pg = false) (gdtr : t.gdtr = s.gdtr)
      (idtr : t.idtr = s.idtr) : WritesControl s t (.movCr0R32 p cr r)

/-- A next state of any instruction has CR0, GDTR and IDTR as before, or the instruction is one that writes one of them
and may run (R163). -/
theorem exec_control {i : Instr} {s t : State} (h : exec i s = .next t) :
    KeepsControl s t ∨ s.mayRunPrivileged ∧ WritesControl s t i := by
  have raised : (∃ e c, Exception.Raisable e c ∧ t = s.takeException e c) →
      KeepsControl s t ∨ s.mayRunPrivileged ∧ WritesControl s t i := by
    rintro ⟨e, c, -, rfl⟩
    exact .inl ⟨rfl, rfl, rfl⟩
  have moves {u : State} {len : Nat} {l : Bool} (moved : u.advance len l = .ok t) (hu : KeepsControl s u) :
      KeepsControl s t := hu.trans (control_advance moved)
  cases i with
  | cmc p => exact (execCmc_next h).elim raised fun ⟨_, moved⟩ => .inl (moves moved ⟨rfl, rfl, rfl⟩)
  | add p dst src =>
    cases dst with
    | reg r => exact (execAdd_reg_next h).elim raised fun ⟨_, moved⟩ => .inl (moves moved ⟨rfl, rfl, rfl⟩)
    | mem m =>
      exact (execAdd_mem_next h).elim raised fun ⟨_, _, _, stored, moved⟩ =>
        .inl (moves moved (.trans (t := s.setStatus _) ⟨rfl, rfl, rfl⟩ (control_segWrite stored)))
  | or p src => exact (execOr_next h).elim raised fun ⟨_, moved⟩ => .inl (moves moved ⟨rfl, rfl, rfl⟩)
  | movRegImm p r src => exact (execMovRegImm_next h).elim raised fun ⟨_, moved⟩ => .inl (moves moved ⟨rfl, rfl, rfl⟩)
  | movSregRm16 p code src =>
    exact (execMovSregRm16_next h).elim raised fun ⟨_, _, _, _, _, _, load, moved⟩ =>
      .inl (moves moved (control_loadSeg load))
  | pushFs p =>
    refine (execPushFs_next h).elim raised fun ⟨_, _, pushed, moved⟩ => .inl (moves moved ?_)
    cases hz : s.opsize p with
    | b32 => rw [hz] at pushed; exact .trans (t := s.drawn 1) ⟨rfl, rfl, rfl⟩ (control_push pushed)
    | b8 | b16 => rw [hz] at pushed; exact control_push pushed
  | jmpRel8 p rel =>
    refine (execJmpRel8_next h).elim raised fun ⟨_, jumped⟩ => .inl ?_
    rw [(jump_ok.1 jumped).2]
    exact ⟨rfl, rfl, rfl⟩
  | jccRel1632 p c rel =>
    refine (execJccRel1632_next h).elim raised fun ⟨_, jumped⟩ => .inl ?_
    cases rel <;> exact control_jumpIf jumped
  | jccRel8 p c rel => exact (execJccRel8_next h).elim raised fun ⟨_, jumped⟩ => .inl (control_jumpIf jumped)
  | setcc p c dst =>
    exact (execSetcc_next h).elim raised fun ⟨_, _, written, moved⟩ => .inl (moves moved (control_writeRM written))
  | nop p => exact (execNop_next h).elim raised fun ⟨_, moved⟩ => .inl (control_advance moved)
  | lgdt p src =>
    refine (execLgdt_next h).elim raised fun ⟨v, load, moved⟩ => .inr ⟨mayRunPrivileged_of_loadTable load, ?_⟩
    obtain ⟨-, rfl⟩ := advance_ok.1 moved
    exact .lgdt p src rfl rfl
  | lidt p src =>
    refine (execLidt_next h).elim raised fun ⟨v, load, moved⟩ => .inr ⟨mayRunPrivileged_of_loadTable load, ?_⟩
    obtain ⟨-, rfl⟩ := advance_ok.1 moved
    exact .lidt p src rfl rfl
  | movR32Cr0 p cr r => exact (execMovR32Cr0_next h).elim raised fun ⟨_, moved⟩ => .inl (moves moved ⟨rfl, rfl, rfl⟩)
  | movCr0R32 p cr r =>
    refine (execMovCr0R32_next h).elim raised fun ⟨check, noPaging, moved⟩ =>
      .inr ⟨mayRunPrivileged_of_checkCr check, ?_⟩
    obtain ⟨-, rfl⟩ := advance_ok.1 moved
    exact .movCr0R32 p cr r noPaging rfl rfl

/-- Settles O42: what no operation touches, and for CR0, GDTR and IDTR the one instruction that writes each. -/
theorem systemStateFrame : Obligations.SystemStateFrame := by
  unfold Obligations.SystemStateFrame
  intro i s t h
  have kept : t.cpl = s.cpl ∧ t.segs.cs = s.segs.cs ∧ t.sys = s.sys ∧ t.params = s.params := by
    obtain ⟨e, c, -, rfl⟩ | keeps := exec_keeps h
    · exact ⟨rfl, rfl, rfl, rfl⟩
    · exact ⟨keeps.cpl, keeps.cs, keeps.sys, keeps.params⟩
  obtain ⟨cpl, cs, sys, params⟩ := kept
  refine ⟨cpl, cs, sys, params, ?_⟩
  obtain ⟨cr0, gdtr, idtr⟩ | ⟨-, writes⟩ := exec_control h
  · exact ⟨fun _ => gdtr, fun _ => idtr, fun _ => cr0⟩
  · cases writes with
    | lgdt p x cr0 idtr => exact ⟨fun other => absurd rfl (other p x), fun _ => idtr, fun _ => cr0⟩
    | lidt p x cr0 gdtr => exact ⟨fun _ => gdtr, fun other => absurd rfl (other p x), fun _ => cr0⟩
    | movCr0R32 p cr r pg gdtr idtr => exact ⟨fun _ => gdtr, fun _ => idtr, fun other => absurd rfl (other p cr r)⟩

/-! ## User mode -/

/-- The mode is a function of CR0 and VM (R26). -/
theorem mode_eq_of {s t : State} (cr0 : t.cr0 = s.cr0) (vm : t.vm = s.vm) : t.mode = s.mode := by
  rw [State.mode, State.mode, State.pe, State.pe, cr0, vm]

/-- Settles O41: at such a CPL no writer of CR0, GDTR and IDTR may run, and VM and CPL are written by no instruction. -/
theorem userModeKeepsSystemState : Obligations.UserModeKeepsSystemState := by
  unfold Obligations.UserModeKeepsSystemState
  intro s t h pe user
  obtain ⟨-, i, -, run⟩ | ⟨-, e, c, -, rfl⟩ := step_next h
  · have kept : t.vm = s.vm ∧ t.cpl = s.cpl := by
      obtain ⟨e, c, -, rfl⟩ | keeps := exec_keeps run
      · exact ⟨rfl, rfl⟩
      · exact ⟨keeps.vm, keeps.cpl⟩
    obtain ⟨vm, cpl⟩ := kept
    obtain ⟨cr0, gdtr, idtr⟩ | ⟨real | ⟨-, supervisor⟩, -⟩ := exec_control run
    · exact ⟨cr0, gdtr, idtr, mode_eq_of cr0 vm, cpl⟩
    · exact absurd pe (Bool.eq_false_iff.1 real)
    · exact absurd supervisor user
  · exact ⟨rfl, rfl, rfl, rfl, rfl⟩

/-! ## Legal states -/

/-- Taking an exception keeps a state legal. -/
theorem State.Legal.takeException {s : State} (h : s.Legal) (e : Exception) (c : Option (BitVec 16)) :
    (s.takeException e c).Legal :=
  ⟨h.mem, h.flags, h.vm, h.pg, h.cpl, h.tlb⟩

/-- No status flag is a reserved bit (R17). -/
theorem flagsReservedOk_of_otherFlagsSame {w f : Word} (h : otherFlagsSame w f) (ok : flagsReservedOk w = true) :
    flagsReservedOk f = true := by
  have away : ∀ kb ∈ reservedFlags, kb.1 ≠ 0 ∧ kb.1 ≠ 2 ∧ kb.1 ≠ 4 ∧ kb.1 ≠ 6 ∧ kb.1 ≠ 7 ∧ kb.1 ≠ 11 := by decide
  rw [flagsReservedOk, List.all_eq_true] at ok ⊢
  intro kb hkb
  obtain ⟨h0, h2, h4, h6, h7, h11⟩ := away kb hkb
  rw [h kb.1 h0 h2 h4 h6 h7 h11]
  exact ok kb hkb

/-- What `Keeps` lists and CR0 as `exec_control` says are enough for a legal state to stay legal. -/
theorem State.Legal.of_keeps {s t : State} (h : s.Legal) (keeps : Keeps s t) (pg : t.pg = false)
    (cpl : t.pe = false → s.cpl = 0) : t.Legal where
  mem := keeps.mem h.mem
  flags := flagsReservedOk_of_otherFlagsSame keeps.flags h.flags
  vm := keeps.vm.trans h.vm
  pg := pg
  cpl real := keeps.cpl.trans (cpl real)
  tlb := keeps.sys ▸ h.tlb

/-- Where CR0 is as before, paging is off and real mode is at CPL 0 as before. -/
theorem State.Legal.of_keeps_cr0 {s t : State} (h : s.Legal) (keeps : Keeps s t) (cr0 : t.cr0 = s.cr0) : t.Legal :=
  h.of_keeps keeps ((congrArg (BitVec.getLsbD · 31) cr0).trans h.pg) fun real =>
    h.cpl ((congrArg (BitVec.getLsbD · 0) cr0).symm.trans real)

/-- In a legal state, a privileged instruction runs at CPL 0 (R162, R163). -/
theorem State.Legal.cpl_eq_zero {s : State} (h : s.Legal) (allowed : s.mayRunPrivileged) : s.cpl = 0 :=
  allowed.elim h.cpl And.right

/-- Every instruction keeps a state legal. -/
theorem exec_keeps_legal {i : Instr} {s t : State} (h : s.Legal) (run : exec i s = .next t) : t.Legal := by
  obtain ⟨e, c, -, rfl⟩ | keeps := exec_keeps run
  · exact h.takeException e c
  · obtain ⟨cr0, -, -⟩ | ⟨allowed, writes⟩ := exec_control run
    · exact h.of_keeps_cr0 keeps cr0
    · cases writes with
      | lgdt p x cr0 idtr => exact h.of_keeps_cr0 keeps cr0
      | lidt p x cr0 gdtr => exact h.of_keeps_cr0 keeps cr0
      | movCr0R32 p cr r pg gdtr idtr => exact h.of_keeps keeps pg fun _ => h.cpl_eq_zero allowed

/-- Settles O54: only MOV CR0, r32 could turn paging on or leave protected mode; it never does the first, and the second at
CPL 0 alone. -/
theorem stepKeepsLegal : Obligations.StepKeepsLegal := by
  unfold Obligations.StepKeepsLegal
  intro s t legal h
  obtain ⟨-, i, -, run⟩ | ⟨-, e, c, -, rfl⟩ := step_next h
  · exact exec_keeps_legal legal run
  · exact legal.takeException e c

/-! ## What an instruction does before EIP moves -/

/-- The instructions that write status flags (R110 to R112, R142, R143). -/
def writesFlags : Instr → Bool
  | .cmc _ | .add _ _ _ | .or _ _ | .movR32Cr0 _ _ _ | .movCr0R32 _ _ _ => true
  | _ => false

/-- The relative jumps (R130 to R132). -/
def isJump : Instr → Bool
  | .jmpRel8 _ _ | .jccRel1632 _ _ _ | .jccRel8 _ _ _ => true
  | _ => false

/-- Of EIP, the general registers, EFLAGS and memory, `u` differs from `s` at most in the registers `regs`, the bytes at
`stores` and, where `flags` says so, EFLAGS. -/
structure ChangesOnly (regs : List Reg) (flags : Bool) (stores : List (Word × Nat)) (s u : State) : Prop where
  eip : u.eip = s.eip
  regs : ∀ q ∉ regs, u.x q = s.x q
  flags : flags = false → u.eflags = s.eflags
  mem : s.mem.wf = true → ∀ b, (∀ an ∈ stores, b ∉ accessAddrs an.1 an.2) → u.mem.read b = s.mem.read b

section
variable {regs : List Reg} {flags : Bool} {stores : List (Word × Nat)} {s u t : State}

theorem ChangesOnly.of_same (eip : u.eip = s.eip) (hregs : u.regs = s.regs)
    (eflags : flags = false → u.eflags = s.eflags) (mem : u.mem = s.mem) : ChangesOnly regs flags stores s u where
  eip := eip
  regs q _ := congrArg (Regs.get · q) hregs
  flags := eflags
  mem _ b _ := congrArg (Memory.read · b) mem

/-- A write of one register, the last thing done. -/
theorem ChangesOnly.setReg (h : ChangesOnly regs flags stores s u) {c : Reg} {z : Size} (hc : regHome c z ∈ regs)
    (v : BitVec z.bits) : ChangesOnly regs flags stores s (u.setReg c z v) where
  eip := h.eip
  regs q hq := (u.x_setReg_of_ne c z v (by rintro rfl; exact hq hc)).trans (h.regs q hq)
  flags := h.flags
  mem := h.mem

/-- A store, which keeps everything else. -/
theorem ChangesOnly.memWrite (h : ChangesOnly regs flags stores s u) (same : u.mem = s.mem) {a : Word} {n : Nat}
    {v : BitVec (8 * n)} (stored : u.memWrite a n v = .ok t) (ha : (a, n) ∈ stores) :
    ChangesOnly regs flags stores s t := by
  obtain ⟨-, rfl⟩ := memWrite_ok.1 stored
  refine ⟨h.eip, h.regs, h.flags, fun canonical b outside => ?_⟩
  rw [State.setMem_mem, same, Memory.read_writeLe_of_notMem canonical _ _ _ (outside (a, n) ha)]

/-- A store through a segment register. -/
theorem ChangesOnly.segWrite (h : ChangesOnly regs flags stores s u) (same : u.mem = s.mem) {k : SReg} {off : Word}
    {n : Nat} {v : BitVec (8 * n)} (stored : u.segWrite k off n v = .ok t)
    (ha : ((u.seg k).base + off, n) ∈ stores) :
    ChangesOnly regs flags stores s t :=
  h.memWrite same (segWrite_ok.1 stored).2 ha

end

theorem ChangesOnly.refl (regs : List Reg) (flags : Bool) (stores : List (Word × Nat)) (s : State) :
    ChangesOnly regs flags stores s s := .of_same rfl rfl (fun _ => rfl) rfl

/-- A segment load writes at most the access byte of its descriptor, in protected mode (R46, R123). -/
theorem changesOnly_loadSeg {regs : List Reg} {flags : Bool} {stores : List (Word × Nat)} {s t : State} {k : SReg}
    {v : Selector} (h : s.loadSeg k v = .ok t) (access : s.pe = true → (s.descAddr (selIndex v) + 5, 1) ∈ stores) :
    ChangesOnly regs flags stores s t := by
  obtain ⟨-, rfl⟩ | ⟨-, -, -, -, rfl⟩ | ⟨pe, -, -, d, -, -, u, marked, rfl⟩ := loadSeg_ok h
  · exact .of_same rfl rfl (fun _ => rfl) rfl
  · exact .of_same rfl rfl (fun _ => rfl) rfl
  · have marks : ChangesOnly regs flags stores s u := by
      obtain ⟨-, rfl⟩ | ⟨-, storable, rfl⟩ := markAccessed_ok.1 marked
      · exact .refl ..
      · exact (ChangesOnly.refl ..).memWrite rfl (memWrite_ok.2 ⟨storable, rfl⟩) (access pe)
    exact ⟨marks.eip, marks.regs, marks.flags, marks.mem⟩

/-- A push writes its slot and ESP (R124). -/
theorem changesOnly_push {s t : State} {flags : Bool} {n : Nat} {v : BitVec (8 * n)} (h : s.push n v = .ok t) :
    ChangesOnly [.esp] flags [(s.segs.ss.base + (s.pushPtr s.stackSize n).setWidth 32, n)] s t := by
  obtain ⟨u, stored, rfl⟩ := push_ok.1 h
  refine ((ChangesOnly.refl ..).segWrite rfl stored (List.mem_singleton.2 rfl)).setReg ?_ _
  rw [State.stackSize]
  split <;> simp

/-- PUSH FS writes the slot of its operand size and ESP (R122). -/
theorem changesOnly_pushFs {s t : State} {flags : Bool} {o : Size} (ho : o ≠ .b8) (h : s.pushFs o = .ok t) :
    ChangesOnly [.esp] flags [(s.segs.ss.base + (s.pushPtr s.stackSize o.bytes).setWidth 32, o.bytes)] s t := by
  cases o with
  | b8 => exact absurd rfl ho
  | b16 => exact changesOnly_push h
  | b32 =>
    have pushed := changesOnly_push (s := s.drawn 1) (flags := flags) h
    exact ⟨pushed.eip, pushed.regs, pushed.flags, pushed.mem⟩

/-- After what an instruction does, EIP moves to the next instruction, or a jump sets it. -/
def MovesOn (i : Instr) (u t : State) : Prop :=
  (∃ l, u.advance i.length l = .ok t) ∨ (isJump i = true ∧ ∃ v, t = (u.setEip v).setBusLock false)

theorem MovesOn.frame {i : Instr} {u t : State} (h : MovesOn i u t) :
    t.regs = u.regs ∧ t.eflags = u.eflags ∧ t.mem = u.mem := by
  obtain ⟨l, moved⟩ | ⟨-, v, rfl⟩ := h
  · obtain ⟨-, rfl⟩ := advance_ok.1 moved
    exact ⟨rfl, rfl, rfl⟩
  · exact ⟨rfl, rfl, rfl⟩

/-- A next state of any instruction: an exception taken, or what the instruction writes written and EIP moved on. -/
theorem exec_changesOnly {i : Instr} {s t : State} (h : exec i s = .next t) :
    (∃ e c, Exception.Raisable e c ∧ t = s.takeException e c) ∨
      ∃ u, MovesOn i u t ∧ ChangesOnly (s.writtenBy i) (writesFlags i) (s.storedBy i) s u := by
  cases i with
  | cmc p =>
    exact (execCmc_next h).imp_right fun ⟨_, moved⟩ => ⟨_, .inl ⟨_, moved⟩, .of_same rfl rfl nofun rfl⟩
  | add p dst src =>
    have flagsWritten (f : StatusFlags) :
        ChangesOnly (s.writtenBy (.add p dst src)) true (s.storedBy (.add p dst src)) s (s.setStatus f) :=
      .of_same rfl rfl nofun rfl
    cases dst with
    | reg r =>
      exact (execAdd_reg_next h).imp_right fun ⟨_, moved⟩ =>
        ⟨_, .inl ⟨_, moved⟩, (flagsWritten _).setReg (List.mem_singleton.2 rfl) _⟩
    | mem m =>
      exact (execAdd_mem_next h).imp_right fun ⟨_, _, _, stored, moved⟩ =>
        ⟨_, .inl ⟨_, moved⟩, (flagsWritten _).segWrite rfl stored (List.mem_singleton.2 rfl)⟩
  | or p src =>
    have flagsWritten (f : StatusFlags) : ChangesOnly [.eax] true [] s ((s.setStatus f).drawn 1) :=
      .of_same rfl rfl nofun rfl
    have home : regHome .eax (immSize (s.opsize p) src) = .eax := by cases immSize (s.opsize p) src <;> rfl
    exact (execOr_next h).imp_right fun ⟨_, moved⟩ =>
      ⟨_, .inl ⟨_, moved⟩, (flagsWritten _).setReg (List.mem_singleton.2 home) _⟩
  | movRegImm p r src =>
    exact (execMovRegImm_next h).imp_right fun ⟨_, moved⟩ =>
      ⟨_, .inl ⟨_, moved⟩, (ChangesOnly.refl ..).setReg (List.mem_singleton.2 rfl) _⟩
  | movSregRm16 p code src =>
    refine (execMovSregRm16_next h).imp_right fun ⟨k, v, u, _, _, source, load, moved⟩ =>
      ⟨u, .inl ⟨_, moved⟩, changesOnly_loadSeg load fun pe => ?_⟩
    simp [State.storedBy, pe, source]
  | pushFs p =>
    exact (execPushFs_next h).imp_right fun ⟨_, u, pushed, moved⟩ =>
      ⟨u, .inl ⟨_, moved⟩, changesOnly_pushFs (operandSize_ne _ _) pushed⟩
  | jmpRel8 p rel =>
    exact (execJmpRel8_next h).imp_right fun ⟨_, jumped⟩ => ⟨s, .inr ⟨rfl, _, (jump_ok.1 jumped).2⟩, .refl ..⟩
  | jccRel1632 p c rel =>
    refine (execJccRel1632_next h).imp_right fun ⟨_, jumped⟩ => ⟨s, .inr ⟨rfl, ?_⟩, .refl ..⟩
    cases rel <;> exact jumpIf_ok jumped
  | jccRel8 p c rel =>
    exact (execJccRel8_next h).imp_right fun ⟨_, jumped⟩ => ⟨s, .inr ⟨rfl, jumpIf_ok jumped⟩, .refl ..⟩
  | setcc p c dst =>
    refine (execSetcc_next h).imp_right fun ⟨_, u, written, moved⟩ => ⟨u, .inl ⟨_, moved⟩, ?_⟩
    cases dst with
    | reg r =>
      cases written
      exact (ChangesOnly.refl ..).setReg (List.mem_singleton.2 rfl) _
    | mem m => exact (ChangesOnly.refl ..).segWrite rfl written (List.mem_singleton.2 rfl)
  | nop p => exact (execNop_next h).imp_right fun ⟨_, moved⟩ => ⟨s, .inl ⟨_, moved⟩, .refl ..⟩
  | lgdt p src =>
    exact (execLgdt_next h).imp_right fun ⟨_, _, moved⟩ => ⟨_, .inl ⟨_, moved⟩, .of_same rfl rfl (fun _ => rfl) rfl⟩
  | lidt p src =>
    exact (execLidt_next h).imp_right fun ⟨_, _, moved⟩ => ⟨_, .inl ⟨_, moved⟩, .of_same rfl rfl (fun _ => rfl) rfl⟩
  | movR32Cr0 p cr r =>
    refine (execMovR32Cr0_next h).imp_right fun ⟨_, moved⟩ => ⟨_, .inl ⟨_, moved⟩,
      ⟨rfl, fun q hq => ?_, nofun, fun _ _ _ => rfl⟩⟩
    exact (s.x_setX r s.cr0 q).trans (if_neg fun e => hq (List.mem_singleton.2 e))
  | movCr0R32 p cr r =>
    exact (execMovCr0R32_next h).imp_right fun ⟨_, _, moved⟩ => ⟨_, .inl ⟨_, moved⟩, .of_same rfl rfl nofun rfl⟩

/-! ## The frames -/

/-- Settles O44: an exception, and moving EIP, write no general register. -/
theorem generalRegisterFrame : Obligations.GeneralRegisterFrame := by
  unfold Obligations.GeneralRegisterFrame
  intro i s t q h notWritten
  obtain ⟨e, c, -, rfl⟩ | ⟨u, moves, changes⟩ := exec_changesOnly h
  · rfl
  · obtain ⟨regs, -, -⟩ := moves.frame
    exact (congrArg (Regs.get · q) regs).trans (changes.regs q notWritten)

/-- Settles O46: an exception, and moving EIP, store nothing. -/
theorem memoryFrame : Obligations.MemoryFrame := by
  unfold Obligations.MemoryFrame
  intro i s t b canonical h outside
  obtain ⟨e, c, -, rfl⟩ | ⟨u, moves, changes⟩ := exec_changesOnly h
  · rfl
  · obtain ⟨-, -, mem⟩ := moves.frame
    rw [mem, changes.mem canonical b outside]

/-- An instruction that writes no flags leaves EFLAGS as it was. -/
theorem exec_eflags_same {i : Instr} {s t : State} (h : exec i s = .next t) (noFlags : writesFlags i = false) :
    t.eflags = s.eflags := by
  obtain ⟨e, c, -, rfl⟩ | ⟨u, moves, changes⟩ := exec_changesOnly h
  · rfl
  · obtain ⟨-, eflags, -⟩ := moves.frame
    exact eflags.trans (changes.flags noFlags)

/-- CMC writes bit 0 of EFLAGS alone (R110). -/
theorem exec_cmc_flags {p : Prefixes} {s t : State} (h : exec (.cmc p) s = .next t) {k : Nat} (hk : k ≠ 0) :
    t.eflags.getLsbD k = s.eflags.getLsbD k := by
  obtain ⟨e, c, -, rfl⟩ | ⟨-, moved⟩ := execCmc_next h
  · rfl
  · obtain ⟨-, rfl⟩ := advance_ok.1 moved
    have inverted : (StatusFlags.putInto { s.status with cf := !s.status.cf } s.eflags) = s.eflags ^^^ 1 :=
      putInto_invert_cf s.eflags
    simp [inverted, hk, BitVec.getLsbD_one]

/-- Settles O45: the status flags are the only bits that any instruction writes, and `writesFlags` lists who does. -/
theorem flagFrame : Obligations.FlagFrame := by
  unfold Obligations.FlagFrame
  intro i s t h
  refine ⟨?_, fun p hi k hk => exec_cmc_flags (hi ▸ h) hk, fun cmc add or fromCr0 toCr0 => exec_eflags_same h ?_⟩
  · obtain ⟨e, c, -, rfl⟩ | keeps := exec_keeps h
    · exact fun _ _ _ _ _ _ _ => rfl
    · exact keeps.flags
  · cases i with
    | cmc p => exact absurd rfl (cmc p)
    | add p dst src => exact absurd rfl (add p dst src)
    | or p src => exact absurd rfl (or p src)
    | movR32Cr0 p cr r => exact absurd rfl (fromCr0 p cr r)
    | movCr0R32 p cr r => exact absurd rfl (toCr0 p cr r)
    | _ => rfl

/-- Settles O47: what an instruction does leaves EIP alone, and the move to the next instruction does not wrap. -/
theorem programCounterAdvances : Obligations.ProgramCounterAdvances := by
  unfold Obligations.ProgramCounterAdvances
  intro i s t _ h completed notJmp notJcc notJcc8
  obtain ⟨e, c, -, rfl⟩ | ⟨u, ⟨l, moved⟩ | ⟨jump, -⟩, changes⟩ := exec_changesOnly h
  · cases completed
  · obtain ⟨room, rfl⟩ := advance_ok.1 moved
    rw [State.setBusLock_eip, State.setEip_eip, BitVec.toNat_add, BitVec.toNat_ofNat, Nat.add_mod_mod,
      Nat.mod_eq_of_lt room, changes.eip]
  · cases i with
    | jmpRel8 p v => exact absurd rfl (notJmp p v)
    | jccRel1632 p c v => exact absurd rfl (notJcc p c v)
    | jccRel8 p c v => exact absurd rfl (notJcc8 p c v)
    | _ => cases jump

end Sys2Proof.Machine

/-! The step (R14, R41, R95, R156, R164, R187) and the state after reset (R181). -/

namespace Sys2Proof.Machine

/-! ## Stops before the fetch -/

/-- A check that fails before the fetch is the outcome of the step. -/
theorem next_of_checkStep_error {s : State} {o : Stop} (h : s.checkStep = .error o) : s.next = .error o := by
  rw [State.next, h, bind_error_left]

/-- Settles O49: the fault state is the first thing a step looks at. -/
theorem faultStateHasNoStep : Obligations.FaultStateHasNoStep := by
  unfold Obligations.FaultStateHasNoStep
  intro s r h
  have stop : s.checkStep = .error (.fault (.inFaultState r)) := by rw [State.checkStep, h]; rfl
  rw [step, next_of_checkStep_error stop]

/-- Settles O52: HALT_ADDR, VM and PG are looked at in this order. -/
theorem stepStopsBeforeFetch : Obligations.StepStopsBeforeFetch := by
  unfold Obligations.StepStopsBeforeFetch
  intro s noFault
  have checks : s.checkStep = (do
      require (decide (s.params.haltAddr ≠ some s.eip)) (.fault .runEnded)
      require (!s.vm) (.refuse .vm86)
      require (!s.pg) (.refuse .paging)) := by
    rw [State.checkStep, noFault]; rfl
  refine ⟨fun halt => ?_, fun halt vm => ?_, fun halt vm pg => ?_⟩
  · have stop : s.checkStep = .error (.fault .runEnded) := by rw [checks, decide_eq_false (not_not.2 halt)]; rfl
    rw [step, next_of_checkStep_error stop]
  · have stop : s.checkStep = .error (.refuse .vm86) := by rw [checks, decide_eq_true halt, vm]; rfl
    rw [step, next_of_checkStep_error stop]
  · have stop : s.checkStep = .error (.refuse .paging) := by rw [checks, decide_eq_true halt, vm, pg]; rfl
    rw [step, next_of_checkStep_error stop]

/-! ## The fetch -/

/-- Settles O50: the bytes that are fetched begin with those that stand at EIP, and more bytes after them change
nothing. -/
theorem stepRunsDecodedInstruction : Obligations.StepRunsDecodedInstruction := by
  unfold Obligations.StepRunsDecodedInstruction
  intro s bs running short code
  have window := window_codeIs code short
  refine ⟨fun i rest decoded => ?_, fun r rejected => ?_⟩
  · rw [step, next_of_running running, State.fetch, window, decode_append decoded]
  · rw [step, next_of_running running, State.fetch, window, decode_append_reject _ _ _ _ rejected]

/-- The bytes that are fetched end before the first that cannot be (R95). -/
theorem window_of_fetchStop {s : State} {bs : List Byte} {o : Stop} (code : s.codeIs bs) (short : bs.length < 15)
    (stop : s.fetchStop bs.length = some o) : s.window = bs := by
  obtain ⟨n, hn⟩ : ∃ n, Config.maxLength - bs.length = n + 1 :=
    ⟨14 - bs.length, by rw [Config.maxLength]; omega⟩
  rw [window_codeIs code (Nat.le_of_lt short), hn, State.fetchFrom, stop, List.append_nil]

/-- An instruction that needs a byte that cannot be fetched stops the fetch as that byte does (R95). -/
theorem fetch_of_fetchStop {s : State} {bs : List Byte} {o : Stop} (code : s.codeIs bs) (short : bs.length < 15)
    (needsMore : decode s.defaultSize bs = .short) (stop : s.fetchStop bs.length = some o) : s.fetch = .error o := by
  have inside : bs.length < Config.maxLength := short
  simp only [State.fetch, window_of_fetchStop code short stop, needsMore, if_pos inside, stop, Option.getD_some]

/-- Settles O51: the byte after those that stand at EIP is the first that cannot be fetched. -/
theorem fetchBeyondLimitRaises : Obligations.FetchBeyondLimitRaises := by
  unfold Obligations.FetchBeyondLimitRaises
  intro s bs running short code needsMore a
  refine ⟨fun beyond => ?_, fun within outside => ?_⟩
  · have stop : s.fetchStop bs.length = some (.gp 0) := if_pos beyond
    rw [step, next_of_running running, fetch_of_fetchStop code short needsMore stop]
    rfl
  · have stop : s.fetchStop bs.length = some (.fault (.unpopulated a)) := by
      rw [State.fetchStop, if_neg (Nat.not_lt.2 within)]
      exact if_neg (Bool.eq_false_iff.1 outside)
    rw [step, next_of_running running, fetch_of_fetchStop code short needsMore stop]

/-! ## Reset -/

/-- Settles O55: the empty memory is canonical, and of EFLAGS bit 1 alone is set. -/
theorem resetIsLegal : Obligations.ResetIsLegal := by
  unfold Obligations.ResetIsLegal
  exact ⟨Memory.wf_nil, by decide, rfl, rfl, fun _ => rfl, Nat.zero_le _⟩

/-- Settles O56: each value is the one `State.reset` writes; every segment register but CS is reset alike. -/
theorem resetValues : Obligations.ResetValues := by
  unfold Obligations.ResetValues
  refine ⟨rfl, rfl, rfl, rfl, rfl, fun k notCs => ?_, rfl, rfl, rfl, rfl, rfl, rfl, rfl, rfl, rfl, rfl, rfl⟩
  cases k with
  | cs => exact absurd rfl notCs
  | _ => exact ⟨rfl, rfl, rfl⟩

end Sys2Proof.Machine
